-- ==== Sys2Proof/Word.lean ====
section
/-! DEFINITION. The words of LPF-PP: their fixed widths (R15) and nothing else. -/

namespace Sys2Proof

/-- A byte of the sample memory (R70). -/
abbrev Byte := BitVec 8

/-- A word of the command, response and event ports, and a binary32 bit pattern (R15). -/
abbrev Word := BitVec 32

/-- A Sample: 16 bits, two's complement (R15). -/
abbrev Sample := BitVec 16

/-- A 32-bit byte address (R15, R70). -/
abbrev Addr := BitVec 32

/-- A channel number, which is also a peripheral identity (R27, R101). -/
abbrev ChanId := BitVec 8

end Sys2Proof
end

