-- ==== Sys2Proof/Machine/Float32.lean ====
section
/-! DEFINITION. The binary32 primitives of R21, computed exactly: every finite binary32 value is a whole multiple of
2^-149, so an operation is done on integers and rounded once at the end. PRESUMED: their semantics is IEEE-754, as R21
itself says from general knowledge (log 14). -/

namespace Sys2Proof.Machine

/-- A binary32 datum. `fin neg mag` is plus or minus `mag` times 2^-149, the sign of zero kept. One NaN stands for all,
since no rule looks at a NaN's payload (log 14). -/
inductive F32 where
  | nan
  | inf (neg : Bool)
  | fin (neg : Bool) (mag : Nat)
deriving DecidableEq, Repr

/-- The value of a 32-bit pattern: `bits32` of R21. Subnormals are values like any other (R133). -/
def F32.ofBits (w : Word) : F32 :=
  let neg := w.extractLsb' 31 1 == 1#1
  let expo := (w.extractLsb' 23 8).toNat
  let frac := (w.extractLsb' 0 23).toNat
  if expo = 255 then (if frac = 0 then .inf neg else .nan)
  else if expo = 0 then .fin neg frac
  else .fin neg ((2 ^ 23 + frac) * 2 ^ (expo - 1))

/-- `f32` of R21: the value of an integer, exact for magnitudes up to 2^24; `f32(0)` is +0 (R131). -/
def F32.ofInt (i : Int) : F32 :=
  .fin (decide (i < 0)) (i.natAbs * 2 ^ 149)

/-- The integer nearest to `m / 2^q`, ties to even. -/
def roundEven (m q : Nat) : Nat :=
  if 2 * (m % 2 ^ q) < 2 ^ q then m / 2 ^ q
  else if 2 ^ q < 2 * (m % 2 ^ q) then m / 2 ^ q + 1
  else m / 2 ^ q + m / 2 ^ q % 2

/-- How many low bits of a magnitude `m`, in units of 2^-(149+u), a binary32 value cannot hold: all below 2^-149, and
all but the top 24. -/
def dropBits (m u : Nat) : Nat := max u (m.log2 - 23)

/-- The binary32 value nearest to plus or minus `m` times 2^-(149+u), ties to even; 2^128 and above is an infinity. -/
def F32.round (neg : Bool) (m u : Nat) : F32 :=
  if roundEven m (dropBits m u) * 2 ^ (dropBits m u - u) < 2 ^ 277 then
    .fin neg (roundEven m (dropBits m u) * 2 ^ (dropBits m u - u))
  else .inf neg

/-- `mul32` of R21: one rounding. -/
def F32.mul : F32 → F32 → F32
  | .nan, _ => .nan
  | _, .nan => .nan
  | .inf n, .inf k => .inf (n != k)
  | .inf n, .fin k b => if b = 0 then .nan else .inf (n != k)
  | .fin n a, .inf k => if a = 0 then .nan else .inf (n != k)
  | .fin n a, .fin k b => .round (n != k) (a * b) 149

/-- The signed integer, in units of 2^-149, of a finite value. -/
def signed (neg : Bool) (mag : Nat) : Int := if neg then -(mag : Int) else mag

/-- `add32` of R21: one rounding; an exact zero sum is +0 unless both operands are -0. -/
def F32.add : F32 → F32 → F32
  | .nan, _ => .nan
  | _, .nan => .nan
  | .inf n, .inf k => if n = k then .inf n else .nan
  | .inf n, .fin _ _ => .inf n
  | .fin _ _, .inf k => .inf k
  | .fin n a, .fin k b =>
    if signed n a + signed k b = 0 then .fin (n && k) 0
    else .round (decide (signed n a + signed k b < 0)) (signed n a + signed k b).natAbs 0

/-- The value with its sign changed. -/
def F32.neg : F32 → F32
  | .nan => .nan
  | .inf n => .inf (!n)
  | .fin n a => .fin (!n) a

/-- `sub32` of R21. -/
def F32.sub (a b : F32) : F32 := a.add b.neg

/-- `lt32` of R21: false on a NaN, and +0 equals -0. -/
def F32.lt : F32 → F32 → Bool
  | .nan, _ => false
  | _, .nan => false
  | .inf n, .inf k => n && !k
  | .inf n, .fin _ _ => n
  | .fin _ _, .inf k => !k
  | .fin n a, .fin k b => decide (signed n a < signed k b)

/-- `gt32` of R21. -/
def F32.gt (a b : F32) : Bool := b.lt a

/-- `truncz` of R21: the integer part of a finite value, rounded toward zero; no other value has one. -/
def F32.truncz : F32 → Option Int
  | .nan => none
  | .inf _ => none
  | .fin n a => some (signed n (a / 2 ^ 149))

end Sys2Proof.Machine
end

