-- ==== Sys2Proof/Agents.lean ====
section
/-! DEFINITION. The agents' moves: one constructor for each atomic step of R22 and R23, with what the agent draws freely
in it (the Sample a SampleSource writes, the word a host writes). -/

namespace Sys2Proof

/-- One step of one agent (R23). A move whose enabling condition fails changes nothing (log 6). -/
inductive Move where
  /-- ENG takes the command at the head of CMDQ (R138). -/
  | engCommand
  /-- ENG starts the pending handler of channel `c`: H_START, with H_ABORT as one outcome (R180, R185). -/
  | engStart (c : Nat)
  /-- ENG goes on with the handler in progress: H_SAMPLE or H_SUBMIT, whichever is enabled (R182, R184;
  log 17). -/
  | engHandler
  /-- ARB accepts the event word `w`, whoever delivered it (R170, R178; log 7). -/
  | event (w : Word)
  /-- SRC.WRITE of the Sample `v` by SRC[c] (R211). -/
  | srcWrite (c : Nat) (v : Sample)
  /-- SRC.EVENT of SRC[c] (R212). -/
  | srcEvent (c : Nat)
  /-- XPT.SEND of XPT[t] (R221). -/
  | xptSend (t : Nat)
  /-- HOST.CMD: one word onto CMDQ (R230). -/
  | hostCmd (w : Word)
  /-- HOST.TAKE: one word off RESPQ (R230). -/
  | hostTake
  /-- HOST.STORE of the bytes `bs`, ascending from address `a` (R231; log 25). -/
  | hostStore (a : Nat) (bs : List Byte)
  /-- HOST.LOAD of `n` bytes from address `a` (R231). -/
  | hostLoad (a n : Nat)
deriving DecidableEq, Repr, Inhabited

end Sys2Proof
end

