-- ==== Sys2Proof/Config.lean ====
section
/-! DEFINITION. The configuration CFG (R7 to R15): what is fixed at elaboration; the spec's own configuration K; and the
one free value of the model, the order in which agents move. -/

namespace Sys2Proof

/-- A channel's forwarding policy: FILTER_EN, with OUT_BASE present only when it is true (R10). -/
inductive Policy where
  /-- FILTER_EN false: forward the raw samples (R183). -/
  | raw
  /-- FILTER_EN true: filter into the output buffer at `outBase`, then forward (R182). -/
  | filtered (outBase : Addr)
deriving DecidableEq, Repr

/-- The parameters of one channel (R10). -/
structure ChannelCfg where
  /-- REGISTERED -/
  registered : Bool
  /-- FILTER_EN and OUT_BASE -/
  policy : Policy
  /-- CAP_BASE -/
  capBase : Addr
  /-- XPORT -/
  xport : Nat
  /-- ALPHA_CFG, a binary32 pattern -/
  alphaCfg : Word
  /-- MIN_CFG -/
  minCfg : Sample
  /-- MAX_CFG -/
  maxCfg : Sample
deriving DecidableEq, Repr

/-- Where `N` comes from: taken directly (R9), or the product of R8. DESIGN CHOICE: a configuration that takes `N` directly
has no SAMPLE_RATE, CHANNEL_COUNT or FRAME_COUNT; the spec does not say whether it has them (log 26). -/
inductive BufLength where
  | direct (n : Nat)
  | computed (sampleRate channelCount frameCount : Nat)
deriving DecidableEq, Repr

/-- CUTOFF_HZ, a real number of at least 0 (R8). State is data that can be compared, so a real number that is not given as a
rational stands here as a name; which real number of at least 0 a name stands for is an argument wherever it matters, and
may be any (log 12). -/
inductive Cutoff where
  | rational (f : Rat)
  | named (k : Nat)
deriving DecidableEq, Repr

/-- CFG: the global parameters of R8 and one record per channel, so that NUM_CH is the number of records. -/
structure Config where
  /-- N; and SAMPLE_RATE, CHANNEL_COUNT and FRAME_COUNT where N is computed from them (log 26) -/
  bufLength : BufLength
  /-- CUTOFF_HZ, where the configuration uses it (log 12) -/
  cutoffHz : Option Cutoff
  /-- MEM_BYTES -/
  memBytes : Nat
  /-- NUM_XPT -/
  numXpt : Nat
  chans : List ChannelCfg
deriving DecidableEq, Repr

/-- The configuration K of 95_test_vectors.md section 0. DESIGN CHOICE: it is the configuration of `State.reset`
(log 2). -/
def Config.k : Config where
  bufLength := .direct 8
  cutoffHz := none
  memBytes := 0x2000
  numXpt := 2
  chans := [
    { registered := true, policy := .filtered 0x1100, capBase := 0x1000, xport := 0,
      alphaCfg := 0x3F000000, minCfg := 0x8000, maxCfg := 0x7FFF },
    { registered := true, policy := .raw, capBase := 0x1200, xport := 1,
      alphaCfg := 0x3F000000, minCfg := 0x8000, maxCfg := 0x7FFF },
    { registered := false, policy := .raw, capBase := 0x1300, xport := 0,
      alphaCfg := 0x3F000000, minCfg := 0x8000, maxCfg := 0x7FFF },
    { registered := true, policy := .filtered 0x1500, capBase := 0x1400, xport := 0,
      alphaCfg := 0x3F800000, minCfg := BitVec.ofInt 16 (-100), maxCfg := 100 }]

/-- FREE VALUE: the move the agents make at the `k`-th free choice, when State lists no move to come. The spec lets any
enabled step come next (R22, R138, R180) and draws Samples and words freely (R216, R230); nothing constrains this value
(log 4). -/
opaque Config.freeMove (k : Nat) : Move

end Sys2Proof
end

