-- ==== Sys2Proof/Machine/State.lean ====
section
/-! DEFINITION. The state of the machine, as plain data: the block's own state (R32 to R52), the model-only ghost set
(R53), the environment's state (R54), the configuration (R7), and the moves still to come (log 4). -/

namespace Sys2Proof.Machine

/-- A half of a capture or output buffer (R26). -/
inductive Half where
  | first
  | second
deriving DecidableEq, Repr

/-- PHASE (R41). -/
inductive Phase where
  | fillingFirst
  | fillingSecond
deriving DecidableEq, Repr

/-- The event a SampleSource owes next, DUE (R54). -/
inductive Due where
  | none
  | half
  | full
deriving DecidableEq, Repr

/-- ENG (R32). -/
inductive Eng where
  | idle
  /-- The handler of channel `c` is processing half `h`, of which `i` samples are done. -/
  | handler (c : Nat) (h : Half) (i : Nat)
deriving DecidableEq, Repr

/-- One channel's filter bank (R33 to R37). An `Option` here is the spec's own: `none` is 'holds no value' (R18). -/
structure FilterBank where
  /-- PREV_OUT (R33) -/
  prevOut : Option Sample
  /-- ALPHA, a binary32 pattern (R34) -/
  alpha : Option Word
  /-- MIN_CLAMP (R35) -/
  minClamp : Option Sample
  /-- MAX_CLAMP (R36) -/
  maxClamp : Option Sample
  /-- INIT_DONE (R37) -/
  initDone : Bool
deriving DecidableEq, Repr

/-- One channel's arbiter bank (R41 to R43). `none` is the code NONE; the code 0b11 cannot be held (R42, log 21). -/
structure ArbBank where
  /-- PHASE (R41) -/
  phase : Phase
  /-- SW_HALF (R42) -/
  swHalf : Option Half
  /-- HALF_LATCH (R43) -/
  halfLatch : Option Half
deriving DecidableEq, Repr

/-- One SampleSource (R54, R210). -/
structure Source where
  /-- WPTR -/
  wptr : Nat
  /-- DUE -/
  due : Due
deriving DecidableEq, Repr

/-- A pending submission (R54, R114, R220). -/
structure Submission where
  ptr : Addr
  len : BitVec 32
  /-- how many bytes of the span have been sent -/
  sent : Nat
deriving DecidableEq, Repr

/-- One OutputTransport (R54). -/
structure Transport where
  /-- XQ -/
  queue : List Submission
  /-- WIRE -/
  wire : List Byte
deriving DecidableEq, Repr

/-- The ghost faults (R53, R247). -/
inductive Ghost where
  | overrun
  | seq
  | evrsv
  | staleSpan
deriving DecidableEq, Repr

/-- GF, a set of ghost faults: which of the four it holds (R53). -/
structure GhostSet where
  overrun : Bool
  seq : Bool
  evrsv : Bool
  staleSpan : Bool
deriving DecidableEq, Repr

/-- The status codes (R240). -/
inductive Status where
  | ok
  | illegal
  | nochan
  | uninit
  | reinit
  | align
  | range
  | ownership
deriving DecidableEq, Repr

/-- The sample memory as its listed bytes: addresses strictly rising, no byte equal to what an unlisted address reads as. -/
abbrev Memory := List Host.Cell

/-- Everything the spec gives the machine. -/
structure State where
  /-- CFG: no operation changes it (R7, log 1) -/
  cfg : Config
  /-- ENG (R32) -/
  eng : Eng
  /-- the filter banks, by channel (R33 to R37) -/
  filters : List FilterBank
  /-- the arbiter banks, by channel (R41 to R43) -/
  arbs : List ArbBank
  /-- ERR (R50) -/
  err : BitVec 8
  /-- CMDQ, head first (R51) -/
  cmdq : List Word
  /-- RESPQ, head first (R51) -/
  respq : List Word
  /-- GF (R53) -/
  gf : GhostSet
  /-- MEM (R54, R70) -/
  mem : Memory
  /-- WPTR and DUE, by channel (R54) -/
  srcs : List Source
  /-- XQ and WIRE, by transport handle (R54) -/
  xpts : List Transport
  /-- the model's own: the moves still to come, next first (log 4) -/
  script : List Move
  /-- the model's own: the index of the next free move (log 5) -/
  draws : Nat
deriving DecidableEq, Repr

/-- Why the machine stops. No instruction stops on every path, and no state a run from reset reaches stops. -/
inductive Fault where
  /-- Raised by FSAMPLE, FBLOCK, RDREG and H_SAMPLE where INIT_DONE is 1 and a register of the bank holds no value, or the
  filter sum is no number. R37 and R133 say that neither arises. SAFE (log 10). -/
  | filterValueMissing
  /-- Raised by H_SAMPLE, SRC.WRITE, XPT.SEND and FBLOCK at an access to an address at or above MEM_BYTES, which does not
  exist (R70). R88 says the block never makes one. SAFE (log 11). -/
  | outsideMemory
deriving DecidableEq, Repr

/-- What the machine gives no meaning to. -/
inductive Refusal where
  /-- Raised by an arm of `exec` whose instruction has no meaning yet. SAFE. No arm of this model raises it. -/
  | notModelled (mnemonic : String)
  /-- Raised by `step` when the configuration fails R8 or WF1 to WF8: a model refuses such a configuration (R13). SAFE
  (log 9). -/
  | illFormedConfig
deriving DecidableEq, Repr

/-- A filter bank at reset: no register holds a value (R270, R272). -/
def FilterBank.atReset : FilterBank :=
  { prevOut := none, alpha := none, minClamp := none, maxClamp := none, initDone := false }

/-- An arbiter bank at reset (R270, R271). -/
def ArbBank.atReset : ArbBank :=
  { phase := .fillingFirst, swHalf := none, halfLatch := none }

/-- A SampleSource at reset (R270). -/
def Source.atReset : Source :=
  { wptr := 0, due := .none }

/-- An OutputTransport at reset (R270). -/
def Transport.atReset : Transport :=
  { queue := [], wire := [] }

/-- The machine right after reset (R270) in configuration `cfg`, with `mem` what memory was drawn to hold and `script`
the moves to come. -/
def State.powerOn (cfg : Config) (mem : Memory) (script : List Move) : State where
  cfg := cfg
  eng := .idle
  filters := List.replicate cfg.chans.length .atReset
  arbs := List.replicate cfg.chans.length .atReset
  err := 0
  cmdq := []
  respq := []
  gf := { overrun := false, seq := false, evrsv := false, staleSpan := false }
  mem := mem
  srcs := List.replicate cfg.chans.length .atReset
  xpts := List.replicate cfg.numXpt .atReset
  script := script
  draws := 0

/-- The machine right after reset in configuration K (log 2), with nothing listed in memory (DESIGN CHOICE, log 3) and no
move listed (log 4). -/
def State.reset : State := State.powerOn Config.k [] []

end Sys2Proof.Machine
end

