-- ==== Sys2Proof/Machine/Layout.lean ====
section
/-! DEFINITION. What the configuration determines: N and H, the address map (R79), the declared regions (WF7), and the
well-formedness checks of R8 and R13. -/

namespace Sys2Proof.Machine

/-- NUM_CH (R8). -/
def numCh (cfg : Config) : Nat := cfg.chans.length

/-- The record of channel `c`, where there is one (R10). -/
def chanCfg (cfg : Config) (c : Nat) : Option ChannelCfg := cfg.chans[c]?

/-- REGISTERED[c]; false for a number no channel has (R10, R172). -/
def registered (cfg : Config) (c : Nat) : Bool :=
  match chanCfg cfg c with
  | some cc => cc.registered
  | none => false

/-- FILTER_EN (R10). -/
def filterEn (p : Policy) : Bool :=
  match p with
  | .raw => false
  | .filtered _ => true

/-- N, in samples (R8, R9). -/
def bufSamples : BufLength → Nat
  | .direct n => n
  | .computed rate channels frames => rate / 1000 * channels * frames

/-- N of a configuration (R8). -/
def bufN (cfg : Config) : Nat := bufSamples cfg.bufLength

/-- H, the samples of a half (R9). -/
def halfH (cfg : Config) : Nat := bufN cfg / 2

/-- `off(h)`, the index of a half's first sample (R26). -/
def halfOff (cfg : Config) : Half → Nat
  | .first => 0
  | .second => halfH cfg

/-- The byte address of sample `k` of the buffer that starts at `base` (R79). -/
def sampleAddr (base : Addr) (k : Nat) : Nat := base.toNat + 2 * k

/-! ### Declared regions -/

/-- The region `[lo, hi)` of the buffer that starts at `base` (R79). -/
def bufRegion (cfg : Config) (base : Addr) : Nat × Nat := (base.toNat, base.toNat + 2 * bufN cfg)

/-- The declared regions of one channel: its capture buffer, and its output buffer if FILTER_EN (WF7). -/
def chanRegions (cfg : Config) (cc : ChannelCfg) : List (Nat × Nat) :=
  match cc.policy with
  | .raw => [bufRegion cfg cc.capBase]
  | .filtered out => [bufRegion cfg cc.capBase, bufRegion cfg out]

/-- Every declared region, of every channel, registered or not (WF7, R196). -/
def regions (cfg : Config) : List (Nat × Nat) := cfg.chans.flatMap (chanRegions cfg)

/-- `[lo, hi)` and `[lo', hi')` have an address in common. -/
def overlaps (lo hi lo' hi' : Nat) : Bool := decide (max lo lo' < min hi hi')

/-- `meets(lo, hi)` of R142: `[lo, hi)` is not empty and meets a declared region. -/
def meets (cfg : Config) (lo hi : Nat) : Bool :=
  decide (lo < hi) && (regions cfg).any fun r => decide (lo < r.2) && decide (r.1 < hi)

/-! ### Well-formedness -/

/-- The ranges of R8's table that no WF check names (log 13). -/
def rangesOk (cfg : Config) : Bool :=
  decide (cfg.memBytes % 2 = 0) && decide (2 ≤ cfg.memBytes) && decide (cfg.memBytes ≤ 2 ^ 32) &&
  (match cfg.bufLength with
    | .direct _ => true
    | .computed rate channels frames => decide (0 < rate) && decide (1 ≤ channels) && decide (1 ≤ frames)) &&
  (match cfg.cutoffHz with
    | none => true
    | some (.rational f) => decide (0 ≤ f)
    | some (.named _) => true)

/-- WF1: N is even and at least 2. -/
def wf1 (cfg : Config) : Bool := decide (bufN cfg % 2 = 0) && decide (2 ≤ bufN cfg)

/-- WF2: SAMPLE_RATE is a multiple of 1000, unless N is taken directly; the product is `bufSamples` itself. -/
def wf2 (cfg : Config) : Bool :=
  match cfg.bufLength with
  | .direct _ => true
  | .computed rate _ _ => decide (rate % 1000 = 0)

/-- WF3: 1 <= NUM_CH <= 256 and NUM_XPT >= 1. -/
def wf3 (cfg : Config) : Bool :=
  decide (1 ≤ numCh cfg) && decide (numCh cfg ≤ 256) && decide (1 ≤ cfg.numXpt)

/-- A coefficient pattern is a finite binary32 value `a` with 0 < a <= 1 (WF4). -/
def alphaOk (w : Word) : Bool :=
  match F32.ofBits w with
  | .nan => false
  | .inf _ => false
  | .fin neg mag =>
    (F32.fin neg mag).gt (.ofInt 0) && !(F32.fin neg mag).gt (.ofInt 1)

/-- WF4: every ALPHA_CFG is in (0, 1]. -/
def wf4 (cfg : Config) : Bool := cfg.chans.all fun cc => alphaOk cc.alphaCfg

/-- WF5: every MIN_CFG is at most its MAX_CFG. -/
def wf5 (cfg : Config) : Bool := cfg.chans.all fun cc => decide (cc.minCfg.toInt ≤ cc.maxCfg.toInt)

/-- A buffer base is even and its buffer lies in memory (WF6). -/
def baseOk (cfg : Config) (base : Addr) : Bool :=
  decide (base.toNat % 2 = 0) && decide (base.toNat + 2 * bufN cfg ≤ cfg.memBytes)

/-- WF6: every CAP_BASE, and every OUT_BASE there is. -/
def wf6 (cfg : Config) : Bool :=
  cfg.chans.all fun cc =>
    baseOk cfg cc.capBase &&
    (match cc.policy with
      | .raw => true
      | .filtered out => baseOk cfg out)

/-- No two regions of a list have an address in common. -/
def disjointAll : List (Nat × Nat) → Bool
  | [] => true
  | r :: rs => (rs.all fun q => !overlaps r.1 r.2 q.1 q.2) && disjointAll rs

/-- WF7: the declared regions are pairwise disjoint. -/
def wf7 (cfg : Config) : Bool := disjointAll (regions cfg)

/-- WF8: every XPORT is below NUM_XPT. -/
def wf8 (cfg : Config) : Bool := cfg.chans.all fun cc => decide (cc.xport < cfg.numXpt)

/-- WF(CFG) of R13, with R8's ranges. -/
def cfgWf (cfg : Config) : Bool :=
  rangesOk cfg && wf1 cfg && wf2 cfg && wf3 cfg && wf4 cfg && wf5 cfg && wf6 cfg && wf7 cfg && wf8 cfg

end Sys2Proof.Machine
end

