-- ==== Sys2Proof/Machine/Operands.lean ====
section
/-! DEFINITION. Operand assembly (R108) and the widths of results (R17): the integer each field of a command stands for,
and the word each result is carried in. -/

namespace Sys2Proof.Machine

/-- `s16`: a 16-bit pattern as a two's-complement integer (R17). -/
def s16 (x : Sample) : Int := x.toInt

/-- `bits16`: the 16-bit two's-complement pattern of an integer (R17). -/
def bits16 (i : Int) : Sample := BitVec.ofInt 16 i

/-- `sext_32` of a Sample (R17). -/
def sext32 (x : Sample) : Word := x.signExtend 32

/-- `zext_32` of a byte (R17). -/
def zext32 (b : BitVec 8) : Word := b.zeroExtend 32

/-- `ch = u8(CH)` (R108). -/
def chanNum (ch : ChanId) : Nat := ch.toNat

/-- `size = u16(IMM16)`, in samples, unscaled (R108). -/
def sizeNum (size : BitVec 16) : Nat := size.toNat

/-- The bytes of a Sample in ascending address order: bits 7:0, then bits 15:8 (R72). -/
def sampleBytes (x : Sample) : List Byte := [x.extractLsb' 0 8, x.extractLsb' 8 8]

/-- The Sample whose byte at the lower address is `lo` (R72). -/
def sampleOfBytes (lo hi : Byte) : Sample := hi ++ lo

end Sys2Proof.Machine
end

