-- ==== Sys2Proof/Machine/Flags.lean ====
section
/-! DEFINITION. The status codes and the bits of ERR they set (R240, R50), and the FLAGS view (R52). -/

namespace Sys2Proof.Machine

/-- The 4-bit code of a status (R240). -/
def statusCode : Status → BitVec 4
  | .ok => 0
  | .illegal => 1
  | .nochan => 2
  | .uninit => 3
  | .reinit => 4
  | .align => 5
  | .range => 6
  | .ownership => 7

/-- RESP0 of a status: the code in bits 3:0, zeros above (R110). -/
def statusWord (st : Status) : Word := (statusCode st).zeroExtend 32

/-- ERR after status `st`: a status other than OK sets the bit of its code (R50). -/
def errAfter (st : Status) (err : BitVec 8) : BitVec 8 :=
  match st with
  | .ok => err
  | .illegal => err ||| 0x02
  | .nochan => err ||| 0x04
  | .uninit => err ||| 0x08
  | .reinit => err ||| 0x10
  | .align => err ||| 0x20
  | .range => err ||| 0x40
  | .ownership => err ||| 0x80

/-- The 2-bit code of SW_HALF and HALF_LATCH (R42). -/
def halfCode : Option Half → BitVec 2
  | none => 0b00
  | some .first => 0b01
  | some .second => 0b10

/-- The bit of PHASE (R41). -/
def phaseBit : Phase → BitVec 1
  | .fillingFirst => 0
  | .fillingSecond => 1

/-- PEND: a handler is pending or running (R44). -/
def pend (a : ArbBank) : Bool := a.halfLatch.isSome

/-- The FLAGS view of a channel (R52), bit 31 first. -/
def flagsWord (cc : ChannelCfg) (f : FilterBank) (a : ArbBank) : Word :=
  0#23 ++ BitVec.ofBool (filterEn cc.policy) ++ BitVec.ofBool cc.registered ++ halfCode a.halfLatch ++
    BitVec.ofBool (pend a) ++ halfCode a.swHalf ++ phaseBit a.phase ++ BitVec.ofBool f.initDone

end Sys2Proof.Machine
end

