-- ==== Sys2Proof/Machine/Ops.lean ====
section
/-! DEFINITION. The shared operations over the state: banks by channel, the sample memory, the ghost set, and the outcomes
of R20: respond, raise, ghost, submit. -/

namespace Sys2Proof.Machine

/-! ### Banks: one entry per channel or transport -/

/-- Entry `c` of a bank; a number the bank has no entry for reads as reset (log 20). -/
def bankGet {α : Type} (d : α) (l : List α) (c : Nat) : α := l.getD c d

/-- The bank with entry `c` set; entries it lacks below `c` are reset ones (log 20). -/
def bankSet {α : Type} (d : α) : List α → Nat → α → List α
  | [], 0, v => [v]
  | [], c + 1, v => d :: bankSet d [] c v
  | _ :: l, 0, v => v :: l
  | a :: l, c + 1, v => a :: bankSet d l c v

/-- The filter bank of channel `c` (R33). -/
def State.filter (s : State) (c : Nat) : FilterBank := bankGet .atReset s.filters c
/-- The arbiter bank of channel `c` (R41). -/
def State.arb (s : State) (c : Nat) : ArbBank := bankGet .atReset s.arbs c
/-- SRC[c] (R54). -/
def State.src (s : State) (c : Nat) : Source := bankGet .atReset s.srcs c
/-- XPT[t] (R54). -/
def State.xpt (s : State) (t : Nat) : Transport := bankGet .atReset s.xpts t

def State.setFilter (s : State) (c : Nat) (b : FilterBank) : State :=
  { s with filters := bankSet .atReset s.filters c b }
def State.setArb (s : State) (c : Nat) (b : ArbBank) : State :=
  { s with arbs := bankSet .atReset s.arbs c b }
def State.setSrc (s : State) (c : Nat) (b : Source) : State :=
  { s with srcs := bankSet .atReset s.srcs c b }
def State.setXpt (s : State) (t : Nat) (b : Transport) : State :=
  { s with xpts := bankSet .atReset s.xpts t b }
/-- ENG <- e (R32). -/
def State.setEng (s : State) (e : Eng) : State := { s with eng := e }
/-- ERR after status `st` (R50). -/
def State.noteStatus (s : State) (st : Status) : State := { s with err := errAfter st s.err }

/-- The owner of half `h` of channel `c` is the engine, `SW` (R45). -/
def State.ownedBySw (s : State) (c : Nat) (h : Half) : Bool :=
  registered s.cfg c && decide ((s.arb c).swHalf = some h)

/-! ### Ghost faults (R53) -/

/-- The set with `g` in it: `ghost G` of R20. Nothing is ever taken out. -/
def ghostAdd (gf : GhostSet) : Ghost → GhostSet
  | .overrun => { gf with overrun := true }
  | .seq => { gf with seq := true }
  | .evrsv => { gf with evrsv := true }
  | .staleSpan => { gf with staleSpan := true }

/-- Whether the set holds `g`. -/
def ghostHas (gf : GhostSet) : Ghost → Bool
  | .overrun => gf.overrun
  | .seq => gf.seq
  | .evrsv => gf.evrsv
  | .staleSpan => gf.staleSpan

/-- `ghost g`, where `cond` holds. -/
def State.ghostIf (s : State) (cond : Bool) (g : Ghost) : State :=
  if cond then { s with gf := ghostAdd s.gf g } else s

/-! ### The sample memory (R70, R72) -/

/-- What an address that memory does not list reads as. DESIGN CHOICE, unsafe only for `State.reset` itself: any contents
can be listed (log 3). -/
def unlistedByte : Byte := 0

/-- The byte at an address. -/
def memRead : Memory → Nat → Byte
  | [], _ => unlistedByte
  | (a, b) :: m, x => if a = x then b else memRead m x

/-- The memory with a byte entered before the first higher address. -/
def memInsert : Memory → Nat → Byte → Memory
  | [], x, v => [(x, v)]
  | (a, b) :: m, x, v => if x < a then (x, v) :: (a, b) :: m else (a, b) :: memInsert m x v

/-- The memory without an address. -/
def memErase : Memory → Nat → Memory
  | [], _ => []
  | (a, b) :: m, x => if a = x then memErase m x else (a, b) :: memErase m x

/-- `MEM[x] <- v`, in canonical form: writing what an unlisted address reads as takes the entry out. -/
def memWrite (m : Memory) (x : Nat) (v : Byte) : Memory :=
  if v = unlistedByte then memErase m x else memInsert (memErase m x) x v

/-- The bytes `bs` written ascending from `a` (R72, R87). -/
def memWriteBytes : Memory → Nat → List Byte → Memory
  | m, _, [] => m
  | m, a, b :: bs => memWriteBytes (memWrite m a b) (a + 1) bs

/-- The canonical form: addresses strictly rising, no entry that reads as an unlisted address does. -/
def Memory.wf : Memory → Bool
  | [] => true
  | [(_, b)] => decide (b ≠ unlistedByte)
  | (a, b) :: (a', b') :: m =>
    decide (b ≠ unlistedByte) && decide (a < a') && Memory.wf ((a', b') :: m)

/-- Some pending submission of some transport has an unsent byte in `[a, a + n)` (R222). -/
def stale (xpts : List Transport) (a n : Nat) : Bool :=
  xpts.any fun t => t.queue.any fun q =>
    overlaps a (a + n) (q.ptr.toNat + q.sent) (q.ptr.toNat + q.len.toNat)

/-- MemWrite of the bytes `bs` from `a`, by any agent: the STALE_SPAN check, then the write (R19, R222). -/
def State.storeBytes (s : State) (a : Nat) (bs : List Byte) : State :=
  { s.ghostIf (stale s.xpts a bs.length) .staleSpan with mem := memWriteBytes s.mem a bs }

/-- The Sample in the two bytes at `a` (R72). -/
def sampleAt (m : Memory) (a : Nat) : Sample := sampleOfBytes (memRead m a) (memRead m (a + 1))

/-- MemRead(a, 2) (R19); an address at or above MEM_BYTES does not exist (R70). -/
def State.load16 (s : State) (a : Nat) : Except Fault Sample :=
  if a + 2 ≤ s.cfg.memBytes then .ok (sampleAt s.mem a) else .error .outsideMemory

/-- MemWrite(a, 2, x) (R19). -/
def State.store16 (s : State) (a : Nat) (x : Sample) : Except Fault State :=
  if a + 2 ≤ s.cfg.memBytes then .ok (s.storeBytes a (sampleBytes x)) else .error .outsideMemory

/-- A 1-byte read (R87). -/
def State.load8 (s : State) (a : Nat) : Except Fault Byte :=
  if a < s.cfg.memBytes then .ok (memRead s.mem a) else .error .outsideMemory

/-! ### Outcomes (R20) -/

/-- `respond(st, data)`: the two response words (R110). -/
def State.respond (s : State) (st : Status) (data : Word) : State :=
  { s with respq := s.respq ++ [statusWord st, data] }

/-- `raise Status(st)`: the block's one way to answer an error. It sets the status's bit of ERR, responds with data 0, and
changes nothing else (R20, R252). -/
def State.raise (s : State) (st : Status) : State := (s.noteStatus st).respond st 0

/-- `submit(t, ptr, len)` (R20, R220). -/
def State.submit (s : State) (t : Nat) (ptr : Addr) (len : BitVec 32) : State :=
  s.setXpt t { s.xpt t with queue := (s.xpt t).queue ++ [{ ptr := ptr, len := len, sent := 0 }] }

/-- The outcome of a computation that may fault. -/
def finish : Except Fault State → Host.Outcome State Fault Refusal
  | .ok s => .next s
  | .error f => .fault f

/-- What `f` makes of a next state; a stop stays as it is. -/
def andThen (o : Host.Outcome State Fault Refusal) (f : State → State) : Host.Outcome State Fault Refusal :=
  match o with
  | .next s => .next (f s)
  | .fault r => .fault r
  | .refused r => .refused r

end Sys2Proof.Machine
end

