-- ==== Sys2Proof/Machine/Filter.lean ====
section
/-! DEFINITION. The filter step FS (R130 to R137), which FSAMPLE, FBLOCK and H_SAMPLE share (R151). -/

namespace Sys2Proof.Machine

/-- The sum `s` of R132: four binary32 operations, each rounded once. -/
def filterSum (a xf pf : F32) : F32 :=
  let t1 := a.mul xf
  let oma := (F32.ofInt 1).sub a
  let t2 := oma.mul pf
  t1.add t2

/-- The clamp of R134, on the binary32 value: the upper bound is tested first. -/
def clampF32 (s lo hi : F32) : F32 :=
  if s.gt hi then hi else if s.lt lo then lo else s

/-- The value of FS from its four registers and its input (R131 to R136). -/
def filterValue (alpha : Word) (prev lo hi x : Sample) : Option Sample :=
  let s := filterSum (.ofBits alpha) (.ofInt (s16 x)) (.ofInt (s16 prev))
  let cl := clampF32 s (.ofInt (s16 lo)) (.ofInt (s16 hi))
  cl.truncz.map bits16

/-- `FS(c, x)` on a bank: the value, where every register it reads holds one (R130). -/
def FilterBank.fs (b : FilterBank) (x : Sample) : Option Sample :=
  match b.alpha, b.prevOut, b.minClamp, b.maxClamp with
  | some a, some p, some lo, some hi => filterValue a p lo hi x
  | _, _, _, _ => none

/-- `y = FS(c, x)` with its write of PREV_OUT (R137). -/
def State.filterSample (s : State) (c : Nat) (x : Sample) : Except Fault (Sample × State) :=
  match (s.filter c).fs x with
  | some y => .ok (y, s.setFilter c { s.filter c with prevOut := some y })
  | none => .error .filterValueMissing

/-- One element of a block: read the Sample at `src`, FS it, write the result at `dst` (R142's loop body, R182). -/
def State.filterMove (s : State) (c src dst : Nat) : Except Fault State :=
  match s.load16 src with
  | .error f => .error f
  | .ok x =>
    match s.filterSample c x with
    | .error f => .error f
    | .ok (y, s') => s'.store16 dst y

/-- `n` elements in strictly ascending order, from `src` and to `dst` (R142). -/
def filterLoop (c : Nat) : Nat → Nat → Nat → State → Except Fault State
  | 0, _, _, s => .ok s
  | n + 1, src, dst, s =>
    match s.filterMove c src dst with
    | .error f => .error f
    | .ok s' => filterLoop c n (src + 2) (dst + 2) s'

end Sys2Proof.Machine
end

