-- ==== Sys2Proof/Syntax.lean ====
section
/-! DEFINITION. The instructions: one constructor for each row of spec/opcode_table.json. -/

namespace Sys2Proof

/-- The four commands (R106) and the two events (R112). Operands are taken from the words as R108 says. -/
inductive Instr where
  /-- INIT ch (R102, R140). -/
  | init (ch : ChanId)
  /-- FSAMPLE ch, x (R103, R141). -/
  | fsample (ch : ChanId) (x : Sample)
  /-- FBLOCK ch, size, src, dst (R105, R142). -/
  | fblock (ch : ChanId) (size : BitVec 16) (src dst : Addr)
  /-- RDREG ch, sel (R104, R143). -/
  | rdreg (ch : ChanId) (sel : BitVec 4)
  /-- EV.HALF id (R112, R173). -/
  | evHalf (id : ChanId)
  /-- EV.FULL id (R112, R174). -/
  | evFull (id : ChanId)
deriving DecidableEq, Repr

end Sys2Proof
end

