-- ==== Sys2Proof/WellFormed.lean ====
section
/-! DEFINITION. Which terms of `Instr` are instructions of the block, and at which port each arrives. -/

namespace Sys2Proof

/-- The two inbound word ports (R100, R112). -/
inductive Port where
  | command
  | event
deriving DecidableEq, Repr

/-- The port an instruction's words arrive at (R100, R112). -/
def Instr.port : Instr → Port
  | .init _ => .command
  | .fsample _ _ => .command
  | .fblock _ _ _ _ => .command
  | .rdreg _ _ => .command
  | .evHalf _ => .event
  | .evFull _ => .event

/-- RDREG's selector is 0 to 5; 6 to 15 are reserved (R57, R104, R107). -/
def selectorLegal (sel : BitVec 4) : Bool := decide (sel.toNat ≤ 5)

/-- The one check the operand types leave open: a reserved selector is no instruction (R104). -/
def Instr.wf : Instr → Bool
  | .init _ => true
  | .fsample _ _ => true
  | .fblock _ _ _ _ => true
  | .rdreg _ sel => selectorLegal sel
  | .evHalf _ => true
  | .evFull _ => true

end Sys2Proof
end

