-- ==== Sys2Proof/Machine/Commands.lean ====
section
/-! DEFINITION. The meanings of the four commands (R140 to R143), each with its checks in the order of R150. -/

namespace Sys2Proof.Machine

/-- INIT ch (R140). -/
def execInit (ch : ChanId) (s : State) : Host.Outcome State Fault Refusal :=
  match chanCfg s.cfg (chanNum ch) with
  | none => .next (s.raise .nochan)
  | some cc =>
    if (s.filter (chanNum ch)).initDone then .next (s.raise .reinit)
    else
      .next ((s.setFilter (chanNum ch)
        { prevOut := some 0, alpha := some cc.alphaCfg, minClamp := some cc.minCfg, maxClamp := some cc.maxCfg,
          initDone := true }).respond .ok 0)

/-- FSAMPLE ch, x (R141). -/
def execFsample (ch : ChanId) (x : Sample) (s : State) : Host.Outcome State Fault Refusal :=
  match chanCfg s.cfg (chanNum ch) with
  | none => .next (s.raise .nochan)
  | some _ =>
    if (s.filter (chanNum ch)).initDone then
      match s.filterSample (chanNum ch) x with
      | .error f => .fault f
      | .ok (y, s') => .next (s'.respond .ok (sext32 y))
    else .next (s.raise .uninit)

/-- FBLOCK's own checks, in their order; `ok` where all pass (R142, R249). -/
def fblockStatus (cfg : Config) (f : FilterBank) (size src dst : Nat) : Status :=
  if f.initDone = false then .uninit
  else if src % 2 ≠ 0 ∨ dst % 2 ≠ 0 then .align
  else if src + 2 * size > cfg.memBytes ∨ dst + 2 * size > cfg.memBytes then .range
  else if meets cfg src (src + 2 * size) || meets cfg dst (dst + 2 * size) then .ownership
  else .ok

/-- FBLOCK ch, size, src, dst (R142). -/
def execFblock (ch : ChanId) (size : BitVec 16) (src dst : Addr) (s : State) : Host.Outcome State Fault Refusal :=
  match chanCfg s.cfg (chanNum ch) with
  | none => .next (s.raise .nochan)
  | some _ =>
    match fblockStatus s.cfg (s.filter (chanNum ch)) (sizeNum size) src.toNat dst.toNat with
    | .ok =>
      match filterLoop (chanNum ch) (sizeNum size) src.toNat dst.toNat s with
      | .error f => .fault f
      | .ok s' => .next (s'.respond .ok 0)
    | st => .next (s.raise st)

/-- What RDREG reads: a value, a register that holds none, or a reserved selector. -/
inductive RegRead where
  | value (d : Word)
  /-- a filter register (selectors 0 to 3), which may hold no value -/
  | filterReg (d : Option Word)
  | reserved
deriving DecidableEq, Repr

/-- The register a selector names (R57, R143). -/
def readReg (cc : ChannelCfg) (f : FilterBank) (a : ArbBank) (err : BitVec 8) (sel : BitVec 4) : RegRead :=
  if sel = 0 then .filterReg (f.prevOut.map sext32)
  else if sel = 1 then .filterReg f.alpha
  else if sel = 2 then .filterReg (f.minClamp.map sext32)
  else if sel = 3 then .filterReg (f.maxClamp.map sext32)
  else if sel = 4 then .value (flagsWord cc f a)
  else if sel = 5 then .value (zext32 err)
  else .reserved

/-- RDREG ch, sel (R143). A reserved selector is ILLEGAL, before NOCHAN (R107, R150; log 23). -/
def execRdreg (ch : ChanId) (sel : BitVec 4) (s : State) : Host.Outcome State Fault Refusal :=
  if selectorLegal sel = false then .next (s.raise .illegal)
  else
    match chanCfg s.cfg (chanNum ch) with
    | none => .next (s.raise .nochan)
    | some cc =>
      match readReg cc (s.filter (chanNum ch)) (s.arb (chanNum ch)) s.err sel with
      | .value d => .next (s.respond .ok d)
      | .reserved => .next (s.raise .illegal)
      | .filterReg d =>
        if (s.filter (chanNum ch)).initDone then
          match d with
          | some w => .next (s.respond .ok w)
          | none => .fault .filterValueMissing
        else .next (s.raise .uninit)

end Sys2Proof.Machine
end

