-- ==== Sys2Proof/Machine/Events.lean ====
section
/-! DEFINITION. The meanings of the two events: the acceptance step of R178 for a word that is not reserved. -/

namespace Sys2Proof.Machine

/-- The arbiter bank after an event that makes half `h` ready and puts the writer in `phase` (R173, R174), latching the
half when no handler is pending (R175). -/
def ArbBank.accept (a : ArbBank) (h : Half) (phase : Phase) : ArbBank :=
  { phase := phase, swHalf := some h, halfLatch := if pend a then a.halfLatch else some h }

/-- The acceptance step of R178 for an event of identity `id`: `h` is the half it readies, `phase` the half the writer
fills after it. SEQ if the writer is in that phase already (R177), OVERRUN if a handler is pending (R176). -/
def State.accept (s : State) (id : ChanId) (h : Half) (phase : Phase) : State :=
  if registered s.cfg (chanNum id) then
    let a := s.arb (chanNum id)
    ((s.ghostIf (decide (a.phase = phase)) .seq).ghostIf (pend a) .overrun).setArb (chanNum id) (a.accept h phase)
  else s

/-- EV.HALF id (R173): the first half is ready, the writer fills the second. -/
def execEvHalf (id : ChanId) (s : State) : Host.Outcome State Fault Refusal :=
  .next (s.accept id .first .fillingSecond)

/-- EV.FULL id (R174): the second half is ready, the writer fills the first. -/
def execEvFull (id : ChanId) (s : State) : Host.Outcome State Fault Refusal :=
  .next (s.accept id .second .fillingFirst)

end Sys2Proof.Machine
end

