-- ==== Sys2Proof/Machine/Dispatch.lean ====
section
/-! DEFINITION. One arm per instruction, each one call of its meaning. -/

namespace Sys2Proof.Machine

def exec (i : Instr) (s : State) : Host.Outcome State Fault Refusal :=
  match i with
  | .init ch => Sys2Proof.Machine.execInit ch s
  | .fsample ch x => Sys2Proof.Machine.execFsample ch x s
  | .fblock ch size src dst => Sys2Proof.Machine.execFblock ch size src dst s
  | .rdreg ch sel => Sys2Proof.Machine.execRdreg ch sel s
  | .evHalf id => Sys2Proof.Machine.execEvHalf id s
  | .evFull id => Sys2Proof.Machine.execEvFull id s

end Sys2Proof.Machine
end

