-- ==== Sys2Proof/Decode.lean ====
section
/-! DEFINITION. The decoders of the command port (R109) and of the event port (R112, R113), the encoder written from the
same formats, and the words an opcode-table row stands for. -/

namespace Sys2Proof

/-- Why a word is no instruction. -/
inductive Reject where
  /-- OPC is 0x0 or 0x5 to 0xF (R107). -/
  | reservedOpcode
  /-- RSV is not 0 (R107). -/
  | reservedBits
  /-- INIT with IMM16 not 0 (R107). -/
  | initImmediate
  /-- RDREG with IMM16[15:4] not 0 (R107). -/
  | selectorBits
  /-- RDREG with SEL above 5 (R107). -/
  | reservedSelector
  /-- An event word with ERSV not 0 (R113). -/
  | eventReservedBits
  /-- An event word with KIND 0b00 or 0b11 (R113). -/
  | eventReservedKind
deriving DecidableEq, Repr

/-! ### Fields of a header (R101) and of an event word (R112) -/

def headerOpc (w : Word) : BitVec 4 := w.extractLsb' 28 4
def headerCh (w : Word) : ChanId := w.extractLsb' 20 8
def headerRsv (w : Word) : BitVec 4 := w.extractLsb' 16 4
def headerImm (w : Word) : BitVec 16 := w.extractLsb' 0 16
/-- RDREG's IMM16[15:4] (R104). -/
def headerSelHigh (w : Word) : BitVec 12 := w.extractLsb' 4 12
/-- RDREG's IMM16[3:0] (R104). -/
def headerSel (w : Word) : BitVec 4 := w.extractLsb' 0 4
def eventErsv (w : Word) : BitVec 22 := w.extractLsb' 10 22
def eventKind (w : Word) : BitVec 2 := w.extractLsb' 8 2
def eventId (w : Word) : ChanId := w.extractLsb' 0 8

/-! ### Decoding -/

/-- How many words a command has: its header's OPC alone decides (R100). -/
def commandLength (w0 : Word) : Nat :=
  if headerOpc w0 = 0x3#4 then 3 else 1

/-- The decoder of R109. `w1` and `w2` are looked at only for an FBLOCK. -/
def decodeCommand (w0 w1 w2 : Word) : Except Reject Instr :=
  if headerOpc w0 = 0x1#4 then
    if headerRsv w0 ≠ 0 then .error .reservedBits
    else if headerImm w0 ≠ 0 then .error .initImmediate
    else .ok (.init (headerCh w0))
  else if headerOpc w0 = 0x2#4 then
    if headerRsv w0 ≠ 0 then .error .reservedBits
    else .ok (.fsample (headerCh w0) (headerImm w0))
  else if headerOpc w0 = 0x3#4 then
    if headerRsv w0 ≠ 0 then .error .reservedBits
    else .ok (.fblock (headerCh w0) (headerImm w0) w1 w2)
  else if headerOpc w0 = 0x4#4 then
    if headerRsv w0 ≠ 0 then .error .reservedBits
    else if headerSelHigh w0 ≠ 0 then .error .selectorBits
    else if selectorLegal (headerSel w0) then .ok (.rdreg (headerCh w0) (headerSel w0))
    else .error .reservedSelector
  else .error .reservedOpcode

/-- The command at the head of a sequence of words, with the words after it; `none` while its words are not all there
(R100, R138 (b) and (c)). -/
def nextCommand : List Word → Option (Except Reject Instr × List Word)
  | [] => none
  | w0 :: rest =>
    if commandLength w0 = 3 then
      match rest with
      | w1 :: w2 :: rest' => some (decodeCommand w0 w1 w2, rest')
      | _ => none
    else some (decodeCommand w0 0 0, rest)

/-- The event port's decoder (R112, R113). -/
def decodeEvent (w : Word) : Except Reject Instr :=
  if eventErsv w ≠ 0 then .error .eventReservedBits
  else if eventKind w = 0b01#2 then .ok (.evHalf (eventId w))
  else if eventKind w = 0b10#2 then .ok (.evFull (eventId w))
  else .error .eventReservedKind

/-! ### Encoding -/

/-- A header from its fields (R101). -/
def headerWord (opc : BitVec 4) (ch : ChanId) (imm : BitVec 16) : Word :=
  opc ++ ch ++ 0#4 ++ imm

/-- An event word from its fields (R112). -/
def eventWord (kind : BitVec 2) (id : ChanId) : Word :=
  0#22 ++ kind ++ id

/-- The words of an instruction (R102 to R105, R112). -/
def encode : Instr → List Word
  | .init ch => [headerWord 0x1 ch 0]
  | .fsample ch x => [headerWord 0x2 ch x]
  | .fblock ch size src dst => [headerWord 0x3 ch size, src, dst]
  | .rdreg ch sel => [headerWord 0x4 ch (0#12 ++ sel)]
  | .evHalf id => [eventWord 0b01 id]
  | .evFull id => [eventWord 0b10 id]

/-! ### The words of a row of the opcode table -/

/-- Word `k` of an instruction whose low `nbits` bits are those of `w` and whose other bits are 0; bit 0 of `w` is bit 0
of the first word. -/
def tableWord (nbits w k : Nat) : Word :=
  BitVec.ofNat 32 ((w % 2 ^ nbits) / 2 ^ (32 * k))

/-- The words of the command whose header is the first of them, the operand words after it (R100). -/
def tableWords (nbits w : Nat) : List Word :=
  ([tableWord nbits w 0, tableWord nbits w 1, tableWord nbits w 2]).take (commandLength (tableWord nbits w 0))

/-- The instruction the two ports' decoders read from those words: the event port's if it accepts the word (then the
word's OPC is 0, which the command port rejects), else the command port's (log 22). -/
def decodeTableWord (nbits w : Nat) : Option Instr :=
  match decodeEvent (tableWord nbits w 0) with
  | .ok i => some i
  | .error _ =>
    match nextCommand (tableWords nbits w) with
    | some (.ok i, _) => some i
    | some (.error _, _) => none
    | none => none

end Sys2Proof
end

