-- ==== Sys2Proof/Machine/Environment.lean ====
section
/-! DEFINITION. The steps of the environment that accept no event: SRC.WRITE (R211), XPT.SEND (R221), HOST.CMD and
HOST.TAKE (R230), HOST.STORE and HOST.LOAD (R231). -/

namespace Sys2Proof.Machine

/-- SRC[c] after it has written the sample at WPTR (R211). -/
def Source.afterWrite (cfg : Config) (r : Source) : Source :=
  if r.wptr + 1 = bufN cfg then { wptr := 0, due := .full }
  else if r.wptr + 1 = halfH cfg then { wptr := r.wptr + 1, due := .half }
  else { wptr := r.wptr + 1, due := r.due }

/-- SRC.WRITE(c, v), enabled when SRC[c] owes no event (R211). -/
def State.srcWrite (s : State) (c : Nat) (v : Sample) : Except Fault State :=
  match chanCfg s.cfg c with
  | none => .ok s
  | some cc =>
    if (s.src c).due = .none then
      match s.store16 (sampleAddr cc.capBase (s.src c).wptr) v with
      | .error f => .error f
      | .ok s' => .ok (s'.setSrc c ((s.src c).afterWrite s.cfg))
    else .ok s

/-- The queue once one more byte of its head `q` is sent (R221). -/
def queueAfterSend (q : Submission) (rest : List Submission) : List Submission :=
  if q.sent + 1 = q.len.toNat then rest else { q with sent := q.sent + 1 } :: rest

/-- XPT.SEND(t), enabled when XQ[t] is not empty (R221). -/
def State.xptSend (s : State) (t : Nat) : Except Fault State :=
  match (s.xpt t).queue with
  | [] => .ok s
  | q :: rest =>
    match s.load8 (q.ptr.toNat + q.sent) with
    | .error f => .error f
    | .ok b => .ok (s.setXpt t { queue := queueAfterSend q rest, wire := (s.xpt t).wire ++ [b] })

/-- HOST.CMD (R230). -/
def State.hostCmd (s : State) (w : Word) : State := { s with cmdq := s.cmdq ++ [w] }

/-- HOST.TAKE (R230). -/
def State.hostTake (s : State) : State := { s with respq := s.respq.tail }

/-- The spans of one decoded command: an FBLOCK's source and destination. -/
def commandSpans : Except Reject Instr → List (Nat × Nat)
  | .ok (.fblock _ size src dst) =>
    [(src.toNat, src.toNat + 2 * size.toNat), (dst.toNat, dst.toNat + 2 * size.toNat)]
  | .ok (.init _) => []
  | .ok (.fsample _ _) => []
  | .ok (.rdreg _ _) => []
  | .ok (.evHalf _) => []
  | .ok (.evFull _) => []
  | .error _ => []

/-- The spans of the FBLOCKs a sequence of command words holds whole: those issued and not yet answered (R231, log 15). A command of one word has no span. -/
def issuedSpans : List Word → List (Nat × Nat)
  | [] => []
  | [_] => []
  | [_, _] => []
  | w :: w1 :: w2 :: rest =>
    if commandLength w = 3 then commandSpans (decodeCommand w w1 w2) ++ issuedSpans rest
    else issuedSpans (w1 :: w2 :: rest)

/-- HOST may touch `[a, a + n)`: it is memory, no byte of it is in a declared region, and none is in the span of an FBLOCK
issued and not answered (R231). -/
def State.hostMayTouch (s : State) (a n : Nat) : Bool :=
  decide (a + n ≤ s.cfg.memBytes) && !meets s.cfg a (a + n) &&
    !(issuedSpans s.cmdq).any fun r => overlaps a (a + n) r.1 r.2

/-- HOST.STORE of the bytes `bs` from `a`, where it is admitted (R231). -/
def State.hostStore (s : State) (a : Nat) (bs : List Byte) : State :=
  if s.hostMayTouch a bs.length then s.storeBytes a bs else s

/-- What HOST.LOAD of `n` bytes from `a` gives the host, where it is admitted; it changes nothing (R78, R231, log 16). -/
def State.hostLoadValue (s : State) (a n : Nat) : Option (List Byte) :=
  if s.hostMayTouch a n then some ((List.range n).map fun k => memRead s.mem (a + k)) else none

end Sys2Proof.Machine
end

