-- ==== Sys2Proof/Machine/Handler.lean ====
section
/-! DEFINITION. The handler's steps: H_START with H_ABORT (R180, R185), H_SAMPLE (R182), H_SUBMIT (R184). -/

namespace Sys2Proof.Machine

/-- H_ABORT (R185): ERR[3], the latch cleared, no response word. -/
def State.hAbort (s : State) (c : Nat) : State :=
  (s.noteStatus .uninit).setArb c { s.arb c with halfLatch := none }

/-- H_START of channel `c`, enabled when ENG is IDLE and a handler of `c` is pending (R180, R181, R183). -/
def State.hStart (s : State) (c : Nat) : State :=
  if s.eng = .idle then
    match chanCfg s.cfg c, (s.arb c).halfLatch with
    | some cc, some h =>
      match cc.policy with
      | .raw => s.setEng (.handler c h (halfH s.cfg))
      | .filtered _ => if (s.filter c).initDone then s.setEng (.handler c h 0) else s.hAbort c
    | _, _ => s
  else s

/-- H_SAMPLE of a channel that captures at `cap` and filters into `out` (R182). -/
def State.hSample (s : State) (c : Nat) (cap out : Addr) (h : Half) (i : Nat) : Except Fault State :=
  match s.filterMove c (sampleAddr cap (halfOff s.cfg h + i)) (sampleAddr out (halfOff s.cfg h + i)) with
  | .error f => .error f
  | .ok s' => .ok (s'.setEng (.handler c h (i + 1)))

/-- The buffer a handler submits from: the output buffer of a filtered channel, the capture buffer of a raw one (R184). -/
def submitBase (cc : ChannelCfg) : Addr :=
  match cc.policy with
  | .raw => cc.capBase
  | .filtered out => out

/-- PTR of the record a handler of half `h` submits (R184, R114). -/
def submitPtr (cfg : Config) (cc : ChannelCfg) (h : Half) : Addr :=
  BitVec.ofNat 32 (sampleAddr (submitBase cc) (halfOff cfg h))

/-- LEN of the record: N bytes, which are N/2 samples (R184). -/
def submitLen (cfg : Config) : BitVec 32 := BitVec.ofNat 32 (bufN cfg)

/-- H_SUBMIT (R184): submit the half's span, clear the latch, ENG back to IDLE. -/
def State.hSubmit (s : State) (c : Nat) (cc : ChannelCfg) (h : Half) : State :=
  let s' := s.submit cc.xport (submitPtr s.cfg cc h) (submitLen s.cfg)
  (s'.setArb c { s'.arb c with halfLatch := none }).setEng .idle

/-- The step of the handler in progress: H_SAMPLE while a filtered half has samples left, H_SUBMIT when none is left
(R182, R184, R186). Otherwise no step is enabled. -/
def State.hNext (s : State) : Except Fault State :=
  match s.eng with
  | .idle => .ok s
  | .handler c h i =>
    match chanCfg s.cfg c with
    | none => .ok s
    | some cc =>
      if i = halfH s.cfg then .ok (s.hSubmit c cc h)
      else
        match cc.policy with
        | .raw => .ok s
        | .filtered out => if i < halfH s.cfg then s.hSample c cc.capBase out h i else .ok s

end Sys2Proof.Machine
end

