-- ==== Sys2Proof/Machine/Moves.lean ====
section
/-! DEFINITION. One move of one agent: the command step of ENG (R138), the acceptance of an event word by ARB (R170),
SRC.EVENT (R212), and which operation each move is. -/

namespace Sys2Proof.Machine

/-- ENG's command step: enabled when ENG is IDLE and a whole command is in CMDQ. It removes the command's words and
performs its rule, or answers ILLEGAL (R138, R107). -/
def State.engCommand (s : State) : Host.Outcome State Fault Refusal :=
  match s.eng with
  | .idle =>
    match nextCommand s.cmdq with
    | none => .next s
    | some (.ok i, rest) => exec i { s with cmdq := rest }
    | some (.error _, rest) => .next (State.raise { s with cmdq := rest } .illegal)
  | .handler _ _ _ => .next s

/-- ACCEPT(w) of R178: a reserved word adds EVRSV and does nothing else (R171). -/
def State.acceptWord (s : State) (w : Word) : Host.Outcome State Fault Refusal :=
  match decodeEvent w with
  | .ok i => exec i s
  | .error _ => .next (s.ghostIf true .evrsv)

/-- The event word SRC[c] raises (R212). -/
def dueWord (d : Due) (c : Nat) : Option Word :=
  match d with
  | .none => none
  | .half => some (eventWord 0b01 (BitVec.ofNat 8 c))
  | .full => some (eventWord 0b10 (BitVec.ofNat 8 c))

/-- DUE[c] <- NONE. -/
def State.clearDue (s : State) (c : Nat) : State := s.setSrc c { s.src c with due := .none }

/-- SRC.EVENT(c), enabled when SRC[c] owes an event: delivery, acceptance and DUE <- NONE in one step (R212). -/
def State.srcEvent (s : State) (c : Nat) : Host.Outcome State Fault Refusal :=
  match chanCfg s.cfg c with
  | none => .next s
  | some _ =>
    match dueWord (s.src c).due c with
    | none => .next s
    | some w => andThen (s.acceptWord w) fun s' => s'.clearDue c

/-- One move (R22, R23). -/
def perform (m : Move) (s : State) : Host.Outcome State Fault Refusal :=
  match m with
  | .engCommand => s.engCommand
  | .engStart c => .next (s.hStart c)
  | .engHandler => finish s.hNext
  | .event w => s.acceptWord w
  | .srcWrite c v => finish (s.srcWrite c v)
  | .srcEvent c => s.srcEvent c
  | .xptSend t => finish (s.xptSend t)
  | .hostCmd w => .next (s.hostCmd w)
  | .hostTake => .next s.hostTake
  | .hostStore a bs => .next (s.hostStore a bs)
  | .hostLoad _ _ => .next s

/-- The next move and the state without it: the head of the script, or a free move where the script is empty (log 4). -/
def State.takeMove (s : State) : Move × State :=
  match s.script with
  | m :: rest => (m, { s with script := rest })
  | [] => (Config.freeMove s.draws, { s with draws := s.draws + 1 })

/-- One step of the whole machine: the next move, unless the configuration is one a model refuses (R13, log 9). -/
def stepMove (s : State) : Host.Outcome State Fault Refusal :=
  if cfgWf s.cfg then perform s.takeMove.1 s.takeMove.2 else .refused .illFormedConfig

/-- `s` with the instruction whose words are given placed so that the next step runs it: an event word as the next move;
a command's words at the head of CMDQ, ENG idle, and ENG's command step as the next move (log 8). -/
def State.placeWords (s : State) (nbits w : Nat) : State :=
  match decodeEvent (tableWord nbits w 0) with
  | .ok _ => { s with script := .event (tableWord nbits w 0) :: s.script }
  | .error _ =>
    { s with eng := .idle, cmdq := tableWords nbits w ++ s.cmdq, script := .engCommand :: s.script }

end Sys2Proof.Machine
end

