-- ==== Sys2Proof/Machine/Step.lean ====
section
/-! DEFINITION. The step of the machine, and the placing of one instruction where the next step takes it. -/

namespace Sys2Proof.Machine

/-- One atomic step of one agent (R22). -/
def step (s : State) : Host.Outcome State Fault Refusal := stepMove s

/-- `s` with the instruction whose bits are `w` placed where `step` takes its next move (log 8). -/
def State.withFetchWord (s : State) (nbits w : Nat) : State := s.placeWords nbits w

end Sys2Proof.Machine
end

