-- ==== Sys2Proof/Machine/Assembler.lean ====
section
/-! DEFINITION. The assembler of R115 and R116: from a line of text to an instruction, or an assembly error, and from an
instruction to its words by R116's formulas. It is written apart from the encoder of Decode.lean. -/

namespace Sys2Proof.Machine

/-- A number as written (R115): decimal, optionally negative, or `0x` hexadecimal. -/
inductive AsmNum where
  | dec (i : Int)
  | hex (n : Nat)
deriving DecidableEq, Repr

/-- One line that holds a command or an event (R115). RDREG's selector names stand for 0 to 5. -/
inductive AsmLine where
  | init (ch : AsmNum)
  | fsample (ch x : AsmNum)
  | fblock (ch size src dst : AsmNum)
  | rdreg (ch sel : AsmNum)
  | evHalf (id : AsmNum)
  | evFull (id : AsmNum)
deriving DecidableEq, Repr

/-! ### Operands and words (R116) -/

/-- The integer a number stands for. -/
def asmInt : AsmNum → Int
  | .dec i => i
  | .hex n => n

/-- An unsigned operand of at most `hi`; any other value is an assembly error (R116). -/
def asmUnsigned (w : Nat) (hi : Int) (n : AsmNum) : Option (BitVec w) :=
  if 0 ≤ asmInt n ∧ asmInt n ≤ hi then some (BitVec.ofInt w (asmInt n)) else none

/-- FSAMPLE's `x`: -32768 to 32767, or 0x0000 to 0xFFFF (R115). -/
def asmSample : AsmNum → Option Sample
  | .dec i => if -32768 ≤ i ∧ i ≤ 32767 then some (BitVec.ofInt 16 i) else none
  | .hex n => if n ≤ 0xFFFF then some (BitVec.ofNat 16 n) else none

/-- The instruction of a line whose operands are in range (R116). -/
def asmInstr : AsmLine → Option Instr
  | .init ch => do return .init (← asmUnsigned 8 255 ch)
  | .fsample ch x => do return .fsample (← asmUnsigned 8 255 ch) (← asmSample x)
  | .fblock ch size src dst => do
    return .fblock (← asmUnsigned 8 255 ch) (← asmUnsigned 16 65535 size)
      (← asmUnsigned 32 (2 ^ 32 - 1) src) (← asmUnsigned 32 (2 ^ 32 - 1) dst)
  | .rdreg ch sel => do return .rdreg (← asmUnsigned 8 255 ch) (← asmUnsigned 4 5 sel)
  | .evHalf id => do return .evHalf (← asmUnsigned 8 255 id)
  | .evFull id => do return .evFull (← asmUnsigned 8 255 id)

/-- The words of an instruction by R116. -/
def asmWords : Instr → List Word
  | .init ch => [0x10000000 ||| ch.zeroExtend 32 <<< 20]
  | .fsample ch x => [0x20000000 ||| ch.zeroExtend 32 <<< 20 ||| x.zeroExtend 32]
  | .fblock ch size src dst => [0x30000000 ||| ch.zeroExtend 32 <<< 20 ||| size.zeroExtend 32, src, dst]
  | .rdreg ch sel => [0x40000000 ||| ch.zeroExtend 32 <<< 20 ||| sel.zeroExtend 32]
  | .evHalf id => [0x00000100 ||| id.zeroExtend 32]
  | .evFull id => [0x00000200 ||| id.zeroExtend 32]

/-- The words of a line; `none` is an assembly error, and no word is produced (R116). -/
def assemble (l : AsmLine) : Option (List Word) := (asmInstr l).map asmWords

/-! ### Text (R115) -/

/-- The tokens of a line: words parted by blanks, a comma a token of its own, `;` starting a comment. `cur` is the word
being read, last character first. -/
def asmTokens : List Char → List Char → List (List Char)
  | [], cur => if cur.isEmpty then [] else [cur.reverse]
  | c :: cs, cur =>
    if c = ';' then (if cur.isEmpty then [] else [cur.reverse])
    else if c = ' ' ∨ c = '\t' then (if cur.isEmpty then [] else [cur.reverse]) ++ asmTokens cs []
    else if c = ',' then (if cur.isEmpty then [] else [cur.reverse]) ++ [','] :: asmTokens cs []
    else asmTokens cs (c :: cur)

/-- A digit of base 10 or 16. -/
def asmDigit (base : Nat) (c : Char) : Option Nat :=
  let n := c.toNat
  let v := if 48 ≤ n ∧ n ≤ 57 then n - 48 else if 97 ≤ n ∧ n ≤ 102 then n - 87 else if 65 ≤ n ∧ n ≤ 70 then n - 55 else base
  if v < base then some v else none

/-- Digits read after `acc`. -/
def asmDigits (base : Nat) : List Char → Nat → Option Nat
  | [], acc => some acc
  | c :: cs, acc =>
    match asmDigit base c with
    | some v => asmDigits base cs (acc * base + v)
    | none => none

/-- A number token (R115). -/
def asmNum : List Char → Option AsmNum
  | [] => none
  | ['-'] => none
  | ['0', 'x'] => none
  | '-' :: c :: cs => (asmDigits 10 (c :: cs) 0).map fun n => .dec (-(n : Int))
  | '0' :: 'x' :: c :: cs => (asmDigits 16 (c :: cs) 0).map .hex
  | c :: cs => (asmDigits 10 (c :: cs) 0).map fun n => .dec (n : Int)

/-- A selector token: a name or a number (R115). -/
def asmSel (t : List Char) : Option AsmNum :=
  if t = ['P', 'R', 'E', 'V'] then some (.dec 0)
  else if t = ['A', 'L', 'P', 'H', 'A'] then some (.dec 1)
  else if t = ['M', 'I', 'N'] then some (.dec 2)
  else if t = ['M', 'A', 'X'] then some (.dec 3)
  else if t = ['F', 'L', 'A', 'G', 'S'] then some (.dec 4)
  else if t = ['E', 'R', 'R'] then some (.dec 5)
  else asmNum t

/-- The line a sequence of tokens stands for (R115). There are no pseudo-instructions (R117). -/
def asmParse : List (List Char) → Option AsmLine
  | [m, a] =>
    if m = ['I', 'N', 'I', 'T'] then (asmNum a).map .init
    else if m = ['E', 'V', '.', 'H', 'A', 'L', 'F'] then (asmNum a).map .evHalf
    else if m = ['E', 'V', '.', 'F', 'U', 'L', 'L'] then (asmNum a).map .evFull
    else none
  | [m, a, [','], b] =>
    if m = ['F', 'S', 'A', 'M', 'P', 'L', 'E'] then do return .fsample (← asmNum a) (← asmNum b)
    else if m = ['R', 'D', 'R', 'E', 'G'] then do return .rdreg (← asmNum a) (← asmSel b)
    else none
  | [m, a, [','], b, [','], c, [','], d] =>
    if m = ['F', 'B', 'L', 'O', 'C', 'K'] then do return .fblock (← asmNum a) (← asmNum b) (← asmNum c) (← asmNum d)
    else none
  | _ => none

/-- The words of one line of text: none for a blank line or a comment, `none` on an assembly error (R115, R116; log 19). -/
def assembleText (line : List Char) : Option (List Word) :=
  if (asmTokens line []).isEmpty then some []
  else (asmParse (asmTokens line [])).bind assemble

end Sys2Proof.Machine
end

