-- ==== Sys2Proof/Safety.lean ====
section
/-! DEFINITION. The terms claims about the machine are stated in: the faulted states of R248, the invariant of the
reachable states, the bytes a transport has promised (R224), the contract of a SampleSource (R212), fair runs (R285), and
the default configuration values (R11, R12). -/

namespace Sys2Proof.Machine

/-! ### Faulted states (R248) -/

/-- GF is empty. -/
def ghostFree (gf : GhostSet) : Bool := !gf.overrun && !gf.seq && !gf.evrsv && !gf.staleSpan

/-- ERR is not 0 or GF is not empty (R248). -/
def State.faulted (s : State) : Bool := decide (s.err ≠ 0) || !ghostFree s.gf

/-! ### The invariant of the reachable states -/

/-- PREV_OUT of an initialised bank: 0, or within the bounds (R38 (c)). -/
def prevOk (cc : ChannelCfg) : Option Sample → Bool
  | none => false
  | some p => decide (p = 0) || (decide (s16 cc.minCfg ≤ s16 p) && decide (s16 p ≤ s16 cc.maxCfg))

/-- A filter bank holds nothing before INIT, and after it what INIT loaded, with PREV_OUT as R38 says (R34 to R38). -/
def filterOk (cc : ChannelCfg) (b : FilterBank) : Bool :=
  if b.initDone then
    decide (b.alpha = some cc.alphaCfg) && decide (b.minClamp = some cc.minCfg) &&
      decide (b.maxClamp = some cc.maxCfg) && prevOk cc b.prevOut
  else decide (b = .atReset)

/-- R46 (a) to (d). -/
def arbOk (cc : ChannelCfg) (a : ArbBank) : Bool :=
  (decide (a.swHalf ≠ none) || decide (a.phase = .fillingFirst)) &&
    decide (a.swHalf = some .first ↔ a.phase = .fillingSecond) &&
    (decide (a.swHalf ≠ some .second) || decide (a.phase = .fillingFirst)) &&
    (cc.registered || decide (a = .atReset))

/-- WPTR is below N, and a SampleSource that owes an event has just filled that half (R54, R211). -/
def srcOk (cfg : Config) (r : Source) : Bool :=
  decide (r.wptr < bufN cfg) &&
    (match r.due with
      | .none => true
      | .half => decide (r.wptr = halfH cfg)
      | .full => decide (r.wptr = 0))

/-- The three banks of channel `c`. -/
def chanOk (s : State) (c : Nat) : Bool :=
  match chanCfg s.cfg c with
  | none => true
  | some cc => filterOk cc (s.filter c) && arbOk cc (s.arb c) && srcOk s.cfg (s.src c)

/-- A handler in progress is that of a channel, of the half its latch names, of at most H samples; a filtered channel's has
an initialised bank, a raw channel's has nothing left to do but submit (R32, R43, R180, R181). -/
def engOk (s : State) : Bool :=
  match s.eng with
  | .idle => true
  | .handler c h i =>
    match chanCfg s.cfg c with
    | none => false
    | some cc =>
      decide ((s.arb c).halfLatch = some h) && decide (i ≤ halfH s.cfg) &&
        (match cc.policy with
          | .raw => decide (i = halfH s.cfg)
          | .filtered _ => (s.filter c).initDone)

/-- A pending submission lies in memory and has a byte left to send (R220, R221). -/
def submissionOk (cfg : Config) (q : Submission) : Bool :=
  decide (q.ptr.toNat + q.len.toNat ≤ cfg.memBytes) && decide (q.sent < q.len.toNat)

/-- There is one bank of each kind per channel and one transport per handle. -/
def sized (s : State) : Bool :=
  decide (s.filters.length = numCh s.cfg) && decide (s.arbs.length = numCh s.cfg) &&
    decide (s.srcs.length = numCh s.cfg) && decide (s.xpts.length = s.cfg.numXpt)

/-- The memory is in canonical form and lists only bytes that exist (R70). -/
def memOk (cfg : Config) (m : Memory) : Bool := Memory.wf m && m.all fun p => decide (p.1 < cfg.memBytes)

/-- What every state a run from reset reaches satisfies. -/
structure Inv (s : State) : Prop where
  cfgOk : cfgWf s.cfg = true
  sizedOk : sized s = true
  memoryOk : memOk s.cfg s.mem = true
  chansOk : ∀ c, c < numCh s.cfg → chanOk s c = true
  engineOk : engOk s = true
  errOk : s.err.getLsbD 0 = false
  queuesOk : ∀ t ∈ s.xpts, ∀ q ∈ t.queue, submissionOk s.cfg q = true

/-! ### What a transport has promised (R224) -/

/-- The bytes of `[p, p + n)`, ascending (R74). -/
def spanBytes (m : Memory) (p n : Nat) : List Byte := (List.range n).map fun k => memRead m (p + k)

/-- The unsent bytes of a submission, as memory holds them now. -/
def unsentBytes (m : Memory) (q : Submission) : List Byte :=
  spanBytes m (q.ptr.toNat + q.sent) (q.len.toNat - q.sent)

/-- What XPT[t] has sent, then what it would send of its queue if memory stayed as it is. -/
def promised (s : State) (t : Nat) : List Byte :=
  (s.xpt t).wire ++ (s.xpt t).queue.flatMap (unsentBytes s.mem)

/-! ### A SampleSource that keeps its contract (R212) -/

/-- The arbiter's PHASE of channel `c` is the half SRC[c] is filling, its owed event not yet accepted (R41, R271). -/
def phaseInStep (s : State) (c : Nat) : Bool :=
  match (s.src c).due with
  | .none => decide ((s.arb c).phase = if (s.src c).wptr < halfH s.cfg then .fillingFirst else .fillingSecond)
  | .half => decide ((s.arb c).phase = .fillingFirst)
  | .full => decide ((s.arb c).phase = .fillingSecond)

/-- A move that is not the delivery of a raw event word: the moves of agents that keep their contracts (log 7). -/
def contractual : Move → Bool
  | .event _ => false
  | .engCommand => true
  | .engStart _ => true
  | .engHandler => true
  | .srcWrite _ _ => true
  | .srcEvent _ => true
  | .xptSend _ => true
  | .hostCmd _ => true
  | .hostTake => true
  | .hostStore _ _ => true
  | .hostLoad _ _ => true

/-- A move of ENG. -/
def ofEngine : Move → Bool
  | .engCommand => true
  | .engStart _ => true
  | .engHandler => true
  | .event _ => false
  | .srcWrite _ _ => false
  | .srcEvent _ => false
  | .xptSend _ => false
  | .hostCmd _ => false
  | .hostTake => false
  | .hostStore _ _ => false
  | .hostLoad _ _ => false

/-! ### What statements about instructions are said with -/

/-- An initialised bank with these register values (R37). -/
def liveBank (a : Word) (p lo hi : Sample) : FilterBank :=
  { prevOut := some p, alpha := some a, minClamp := some lo, maxClamp := some hi, initDone := true }

/-- The recurrence over a sequence of samples, left to right, from PREV_OUT `p`: the outputs (R149). -/
def filterSeq (a : Word) (lo hi : Sample) : Sample → List Sample → Option (List Sample)
  | _, [] => some []
  | p, x :: xs =>
    match filterValue a p lo hi x with
    | none => none
    | some y => (filterSeq a lo hi y xs).map (y :: ·)

/-- The `n` samples from address `a` (R79). -/
def samplesAt (m : Memory) (a n : Nat) : List Sample := (List.range n).map fun k => sampleAt m (a + 2 * k)

/-- What a command on channel `c` leaves unchanged, besides ERR, GF, RESPQ and memory. -/
structure CommandFrame (s t : State) (c : Nat) : Prop where
  cfg : t.cfg = s.cfg
  eng : t.eng = s.eng
  filters : ∀ d, d ≠ c → t.filter d = s.filter d
  arbs : t.arbs = s.arbs
  cmdq : t.cmdq = s.cmdq
  srcs : t.srcs = s.srcs
  xpts : t.xpts = s.xpts
  script : t.script = s.script
  draws : t.draws = s.draws

/-- Moves in order, stopping at the first fault or refusal. -/
def performAll : List Move → State → Host.Outcome State Fault Refusal
  | [], s => .next s
  | m :: ms, s =>
    match perform m s with
    | .next t => performAll ms t
    | .fault r => .fault r
    | .refused r => .refused r

/-- SRC[c] writes the samples of one half and raises its event (R81 (a), R190). -/
def fillHalf (c : Nat) (xs : List Sample) : List Move := xs.map (.srcWrite c ·) ++ [.srcEvent c]

/-- The complete handler of channel `c` over a half of `n` samples: H_START, n H_SAMPLE, H_SUBMIT (R186). -/
def wholeHandler (c n : Nat) : List Move := .engStart c :: List.replicate (n + 1) .engHandler

/-- A magnitude, in units of 2^-149, that some binary32 value has: 24 significant bits at most, below 2^128. -/
def isBinary32 (mag : Nat) : Prop := ∃ f e, mag = f * 2 ^ e ∧ f < 2 ^ 24 ∧ e ≤ 253

/-- A magnitude whose binary32 significand is even. -/
def evenSignificand (mag : Nat) : Prop :=
  ∃ f e, mag = f * 2 ^ e ∧ f % 2 = 0 ∧ f < 2 ^ 24 ∧ (2 ^ 23 ≤ f ∨ e = 0)

/-! ### Ownership (R45) -/

/-- While no event was lost, the half a pending or running handler processes is the one the engine owns (R45, R81 (b),
R175). -/
def latchOwned (s : State) : Prop :=
  s.gf.overrun = false → ∀ c, c < numCh s.cfg →
    (s.arb c).halfLatch = none ∨ (s.arb c).halfLatch = (s.arb c).swHalf

/-! ### Enabling and fairness (R285) -/

/-- The enabling condition of a move (R138, R170, R180, R182, R184, R211, R212, R221, R230, R231). -/
def moveEnabled (m : Move) (s : State) : Bool :=
  match m with
  | .engCommand => decide (s.eng = .idle) && (nextCommand s.cmdq).isSome
  | .engStart c => decide (s.eng = .idle) && (chanCfg s.cfg c).isSome && pend (s.arb c)
  | .engHandler =>
    match s.eng with
    | .idle => false
    | .handler c _ i =>
      match chanCfg s.cfg c with
      | none => false
      | some cc => decide (i = halfH s.cfg) || (filterEn cc.policy && decide (i < halfH s.cfg))
  | .event _ => true
  | .srcWrite c _ => (chanCfg s.cfg c).isSome && decide ((s.src c).due = .none)
  | .srcEvent c => (chanCfg s.cfg c).isSome && decide ((s.src c).due ≠ .none)
  | .xptSend t => !(s.xpt t).queue.isEmpty
  | .hostCmd _ => true
  | .hostTake => !s.respq.isEmpty
  | .hostStore a bs => s.hostMayTouch a bs.length
  | .hostLoad a n => s.hostMayTouch a n

/-- An infinite run: states `σ`, and the move `μ k` that leads from `σ k` to `σ (k + 1)` (R22, R28). -/
def IsRun (σ : Nat → State) (μ : Nat → Move) : Prop :=
  ∀ k, perform (μ k) (σ k) = .next (σ (k + 1))

/-- A condition holds infinitely often. -/
def InfOften (P : Nat → Prop) : Prop := ∀ k, ∃ j, k ≤ j ∧ P j

/-- Strong fairness of a move: enabled infinitely often, it is taken infinitely often (R285 (a)). -/
def StronglyFair (σ : Nat → State) (μ : Nat → Move) (m : Move) : Prop :=
  InfOften (fun k => moveEnabled m (σ k) = true) → InfOften (fun k => moveEnabled m (σ k) = true ∧ μ k = m)

/-- Weak fairness of a move: enabled from some point on, it is taken infinitely often (R285 (b), (c)). -/
def WeaklyFair (σ : Nat → State) (μ : Nat → Move) (m : Move) : Prop :=
  (∃ k, ∀ j, k ≤ j → moveEnabled m (σ j) = true) → InfOften (fun k => μ k = m)

/-- The fairness a liveness claim assumes, and nothing more (R285 (a) to (d)). -/
structure Fair (σ : Nat → State) (μ : Nat → Move) : Prop where
  command : StronglyFair σ μ .engCommand
  start : ∀ c, StronglyFair σ μ (.engStart c)
  handler : StronglyFair σ μ .engHandler
  send : ∀ t, WeaklyFair σ μ (.xptSend t)
  take : WeaklyFair σ μ .hostTake

/-! ### What was written since reset (R274) -/

/-- Before step `k` of a run, SRC[c] wrote the byte at `x` (R211). -/
def SourceWrote (σ : Nat → State) (μ : Nat → Move) (k c x : Nat) : Prop :=
  ∃ j v cc, j < k ∧ μ j = .srcWrite c v ∧ ((σ j).src c).due = .none ∧ chanCfg (σ j).cfg c = some cc ∧
    cc.capBase.toNat + 2 * ((σ j).src c).wptr ≤ x ∧ x < cc.capBase.toNat + 2 * ((σ j).src c).wptr + 2

/-- Before step `k` of a run, an H_SAMPLE of channel `c` wrote the byte at `x` (R182). -/
def HandlerWrote (σ : Nat → State) (μ : Nat → Move) (k c x : Nat) : Prop :=
  ∃ j h i cc out, j < k ∧ μ j = .engHandler ∧ (σ j).eng = .handler c h i ∧ i < halfH (σ j).cfg ∧
    chanCfg (σ j).cfg c = some cc ∧ cc.policy = .filtered out ∧
    out.toNat + 2 * (halfOff (σ j).cfg h + i) ≤ x ∧ x < out.toNat + 2 * (halfOff (σ j).cfg h + i) + 2

/-! ### What a configuration declares (R10, WF7), and what a command queue holds (R231) -/

/-- `b` is the base of a buffer of the channel (R79). -/
def isBuffer (cc : ChannelCfg) (b : Addr) : Prop := b = cc.capBase ∨ cc.policy = .filtered b

/-- The buffers at `b` and at `e` have a byte in common. -/
def buffersMeet (cfg : Config) (b e : Addr) : Prop :=
  ∃ x, b.toNat ≤ x ∧ x < b.toNat + 2 * bufN cfg ∧ e.toNat ≤ x ∧ x < e.toNat + 2 * bufN cfg

/-- The words hold whole, at their head or behind other whole commands, a command that decodes to `d`. -/
inductive Queued (d : Except Reject Instr) : List Word → Prop where
  | head {q rest : List Word} : nextCommand q = some (d, rest) → Queued d q
  | later {q rest : List Word} {d' : Except Reject Instr} : nextCommand q = some (d', rest) → Queued d rest → Queued d q

/-- `x` is in the source or the destination span of an FBLOCK (R142). -/
def inSpans (size : BitVec 16) (src dst : Addr) (x : Nat) : Prop :=
  (src.toNat ≤ x ∧ x < src.toNat + 2 * size.toNat) ∨ (dst.toNat ≤ x ∧ x < dst.toNat + 2 * size.toNat)

/-! ### Default configuration values -/

/-- The bounds are the defaults of R11. -/
def hasDefaultBounds (cc : ChannelCfg) : Bool := decide (s16 cc.minCfg = -32768) && decide (s16 cc.maxCfg = 32767)

/-- `w` is the binary32 pattern nearest to the real number `r`, the even one of two equally near (R12). -/
def NearestBinary32 (r : ℝ) (w : Word) : Prop :=
  ∃ neg mag, F32.ofBits w = .fin neg mag ∧
    ∀ w' neg' mag', F32.ofBits w' = .fin neg' mag' → signed neg' mag' ≠ signed neg mag →
      |(signed neg mag : ℝ) / 2 ^ 149 - r| < |(signed neg' mag' : ℝ) / 2 ^ 149 - r| ∨
      (|(signed neg mag : ℝ) / 2 ^ 149 - r| = |(signed neg' mag' : ℝ) / 2 ^ 149 - r| ∧ w.getLsbD 0 = false)

/-- `w` is the default coefficient for a cutoff of `f` Hz at a sample rate of `rate` Hz (R12). -/
def IsDefaultAlpha (f : ℝ) (rate : Nat) (w : Word) : Prop :=
  NearestBinary32 (1 / (1 + 2 * Real.pi * f / (rate : ℝ))) w

/-- The real number a cutoff is, where `ν` says which number of at least 0 each name stands for (R8, log 12). -/
def CutoffIs (ν : Nat → NNReal) (c : Cutoff) (f : ℝ) : Prop :=
  match c with
  | .rational q => f = (q : ℝ)
  | .named k => f = (ν k : ℝ)

/-- Channel record `cc` of `cfg` has the default coefficient of R12. DESIGN CHOICE: a configuration that takes `N` directly
(R9) has no SAMPLE_RATE, so no channel of it has the default coefficient, whatever its CUTOFF_HZ; the spec does not say
whether such a configuration has a sample rate (log 26). A configuration without CUTOFF_HZ has none either (log 12). -/
def hasDefaultAlpha (ν : Nat → NNReal) (cfg : Config) (cc : ChannelCfg) : Prop :=
  match cfg.cutoffHz, cfg.bufLength with
  | some c, .computed rate _ _ => ∃ f, CutoffIs ν c f ∧ IsDefaultAlpha f rate cc.alphaCfg
  | _, _ => False

end Sys2Proof.Machine
end

