-- ==== Sys2Proof/Certificates/Slice0/Obligations.lean ====
section
/-! DEFINITION. The statements for the provers, from the spec's numbered rules. -/

open Sys2Proof Sys2Proof.Machine

/-! ## Encoding -/

/-- Decoding the words of a well-formed command, whatever words follow, gives the command and leaves those words. -/
def Obligations.CommandRoundTrip : Prop :=
  ∀ (i : Instr) (rest : List Word), i.wf = true → i.port = .command →
    nextCommand (encode i ++ rest) = some (.ok i, rest)

/-- An event is one word, which the event port decodes to it; and a word the event port decodes is the one word that
encodes what it gives. -/
def Obligations.EventRoundTrip : Prop :=
  (∀ i : Instr, i.port = .event → ∃ w, encode i = [w] ∧ decodeEvent w = .ok i) ∧
  (∀ (w : Word) (i : Instr), decodeEvent w = .ok i → i.wf = true ∧ i.port = .event ∧ encode i = [w])

/-- What the command decoder accepts is well formed and encodes to exactly the words it came from: no bit is dropped. -/
def Obligations.DecodedCommandReencodes : Prop :=
  ∀ (w0 w1 w2 : Word) (i : Instr), decodeCommand w0 w1 w2 = .ok i →
    i.wf = true ∧ i.port = .command ∧ encode i = ([w0, w1, w2]).take (commandLength w0)

/-- Words written out from the spec's encodings decode to the instructions they stand for. -/
def Obligations.SpecWordsDecode : Prop :=
  decodeCommand 0x10300000 0 0 = .ok (.init 3) ∧
  decodeCommand 0x2000FFFF 0 0 = .ok (.fsample 0 (BitVec.ofInt 16 (-1))) ∧
  decodeCommand 0x3FF0FFFF 0xFFFFFFFE 0 = .ok (.fblock 255 65535 0xFFFFFFFE 0) ∧
  decodeCommand 0x4FF00005 0 0 = .ok (.rdreg 255 5) ∧
  decodeEvent 0x00000100 = .ok (.evHalf 0) ∧
  decodeEvent 0x000002FF = .ok (.evFull 255)

/-- R107: a header is rejected exactly when its OPC is reserved, its RSV is not 0, it is an INIT with an immediate, or an
RDREG with IMM16[15:4] not 0 or SEL above 5. -/
def Obligations.IllegalHeaders : Prop :=
  ∀ w0 w1 w2 : Word,
    (∃ e, decodeCommand w0 w1 w2 = .error e) ↔
      (w0.toNat / 2 ^ 28 = 0 ∨ 5 ≤ w0.toNat / 2 ^ 28) ∨
      w0.toNat / 2 ^ 16 % 16 ≠ 0 ∨
      (w0.toNat / 2 ^ 28 = 1 ∧ w0.toNat % 2 ^ 16 ≠ 0) ∨
      (w0.toNat / 2 ^ 28 = 4 ∧ (w0.toNat / 16 % 2 ^ 12 ≠ 0 ∨ 5 < w0.toNat % 16))

/-- R113, R171: an event word is rejected exactly when ERSV is not 0 or KIND is 0b00 or 0b11. -/
def Obligations.ReservedEventWords : Prop :=
  ∀ w : Word,
    (∃ e, decodeEvent w = .error e) ↔
      w.toNat / 2 ^ 10 ≠ 0 ∨ w.toNat / 2 ^ 8 % 4 = 0 ∨ w.toNat / 2 ^ 8 % 4 = 3

/-- R100: OPC 3 means three words and every other OPC one; a command is taken only when all its words are there, and
exactly they are taken. -/
def Obligations.CommandLengths : Prop :=
  ∀ (w0 : Word) (tl : List Word),
    (w0.toNat / 2 ^ 28 = 3 → tl.length < 2 → nextCommand (w0 :: tl) = none) ∧
    (w0.toNat / 2 ^ 28 = 3 → 2 ≤ tl.length → ∃ d, nextCommand (w0 :: tl) = some (d, tl.drop 2)) ∧
    (w0.toNat / 2 ^ 28 ≠ 3 → ∃ d, nextCommand (w0 :: tl) = some (d, tl)) ∧
    nextCommand [] = none

/-- R116: the assembler's words are the encoder's; every operand in its range stands for the field of that value; and a
line with any operand out of its range is an assembly error, which gives no word. FSAMPLE's `x` is -32768 to 32767 in
decimal or 0 to 0xFFFF in hex (R115). -/
def Obligations.AssemblerMatchesEncoder : Prop :=
  (∀ i : Instr, asmWords i = encode i) ∧
  (∀ (l : AsmLine) (ws : List Word), assemble l = some ws → ∃ i, asmInstr l = some i ∧ i.wf = true ∧ ws = encode i) ∧
  (∀ c : AsmNum,
    (assemble (.init c) = none ↔ asmInt c < 0 ∨ 255 < asmInt c) ∧
    (∀ ch : ChanId, (ch.toNat : Int) = asmInt c → assemble (.init c) = some (encode (.init ch)))) ∧
  (∀ c x : AsmNum,
    (assemble (.fsample c x) = none ↔ asmInt c < 0 ∨ 255 < asmInt c ∨
      (match x with | .dec i => i < -32768 ∨ 32767 < i | .hex n => 0xFFFF < n)) ∧
    (∀ (ch : ChanId) (v : Sample), (ch.toNat : Int) = asmInt c →
      (match x with | .dec i => s16 v = i | .hex n => v.toNat = n) →
      assemble (.fsample c x) = some (encode (.fsample ch v)))) ∧
  (∀ c n a b : AsmNum,
    (assemble (.fblock c n a b) = none ↔ asmInt c < 0 ∨ 255 < asmInt c ∨ asmInt n < 0 ∨ 65535 < asmInt n ∨
      asmInt a < 0 ∨ 2 ^ 32 ≤ asmInt a ∨ asmInt b < 0 ∨ 2 ^ 32 ≤ asmInt b) ∧
    (∀ (ch : ChanId) (size : BitVec 16) (src dst : Addr), (ch.toNat : Int) = asmInt c → (size.toNat : Int) = asmInt n →
      (src.toNat : Int) = asmInt a → (dst.toNat : Int) = asmInt b →
      assemble (.fblock c n a b) = some (encode (.fblock ch size src dst)))) ∧
  (∀ c n : AsmNum,
    (assemble (.rdreg c n) = none ↔ asmInt c < 0 ∨ 255 < asmInt c ∨ asmInt n < 0 ∨ 5 < asmInt n) ∧
    (∀ (ch : ChanId) (sel : BitVec 4), (ch.toNat : Int) = asmInt c → (sel.toNat : Int) = asmInt n → sel.toNat ≤ 5 →
      assemble (.rdreg c n) = some (encode (.rdreg ch sel)))) ∧
  (∀ n : AsmNum,
    (assemble (.evHalf n) = none ↔ asmInt n < 0 ∨ 255 < asmInt n) ∧
    (assemble (.evFull n) = none ↔ asmInt n < 0 ∨ 255 < asmInt n) ∧
    (∀ id : ChanId, (id.toNat : Int) = asmInt n →
      assemble (.evHalf n) = some (encode (.evHalf id)) ∧ assemble (.evFull n) = some (encode (.evFull id))))

/-! ## The step -/

/-- When the words at the head of CMDQ decode to an instruction and it is ENG's turn, the step is that instruction's
`exec`, on the state without its words and without the move. -/
def Obligations.StepRunsDecodedCommand : Prop :=
  ∀ (s : State) (i : Instr) (rest : List Word) (ms : List Move),
    cfgWf s.cfg = true → s.eng = .idle → s.script = .engCommand :: ms → nextCommand s.cmdq = some (.ok i, rest) →
    step s = exec i { s with script := ms, cmdq := rest }

/-- R107: an illegal header, with all the words its length gives it, is consumed and answered with status 1 and data 0;
ERR[1] is set and nothing else changes. -/
def Obligations.StepAnswersIllegal : Prop :=
  ∀ (s : State) (e : Reject) (rest : List Word) (ms : List Move),
    cfgWf s.cfg = true → s.eng = .idle → s.script = .engCommand :: ms → nextCommand s.cmdq = some (.error e, rest) →
    step s = .next { s with
      script := ms, cmdq := rest, err := s.err ||| 0x02, respq := s.respq ++ [1, 0] }

/-- An event word that decodes to an instruction is accepted by that instruction's `exec`, whatever ENG is doing; a
reserved one adds EVRSV and changes nothing else (R170, R171). -/
def Obligations.StepAcceptsEventWord : Prop :=
  ∀ (s : State) (w : Word) (ms : List Move), cfgWf s.cfg = true → s.script = .event w :: ms →
    (∀ i, decodeEvent w = .ok i → step s = exec i { s with script := ms }) ∧
    (∀ e, decodeEvent w = .error e → step s = .next { s with script := ms, gf := { s.gf with evrsv := true } })

/-- R138: while a handler is in progress, or the command's words are not all there, the command waits and is not
dropped. -/
def Obligations.CommandWaits : Prop :=
  ∀ (s : State) (ms : List Move), cfgWf s.cfg = true → s.script = .engCommand :: ms →
    (s.eng ≠ .idle ∨ nextCommand s.cmdq = none) →
    step s = .next { s with script := ms }

/-- R13: the step refuses exactly the configurations that fail a check, each written out: WF1 to WF8, then the other ranges
of R8. The patterns of WF4 are those of a binary32 value above 0 and at most 1. -/
def Obligations.IllFormedConfigRefused : Prop :=
  ∀ s : State, step s = .refused .illFormedConfig ↔
    (bufN s.cfg % 2 = 1 ∨ bufN s.cfg < 2) ∨
    (∃ rate channels frames, s.cfg.bufLength = .computed rate channels frames ∧
      (rate % 1000 ≠ 0 ∨ rate = 0 ∨ channels = 0 ∨ frames = 0)) ∨
    (numCh s.cfg = 0 ∨ 256 < numCh s.cfg ∨ s.cfg.numXpt = 0) ∨
    (∃ cc ∈ s.cfg.chans,
      (cc.alphaCfg.toNat = 0 ∨ 0x3F800000 < cc.alphaCfg.toNat) ∨ s16 cc.maxCfg < s16 cc.minCfg ∨
      (∃ b, isBuffer cc b ∧ (b.toNat % 2 = 1 ∨ s.cfg.memBytes < b.toNat + 2 * bufN s.cfg)) ∨
      (∃ out, cc.policy = .filtered out ∧ buffersMeet s.cfg cc.capBase out) ∨
      s.cfg.numXpt ≤ cc.xport) ∨
    (∃ c d cc dd b e, c < d ∧ chanCfg s.cfg c = some cc ∧ chanCfg s.cfg d = some dd ∧
      isBuffer cc b ∧ isBuffer dd e ∧ buffersMeet s.cfg b e) ∨
    (s.cfg.memBytes % 2 = 1 ∨ s.cfg.memBytes < 2 ∨ 2 ^ 32 < s.cfg.memBytes) ∨
    (∃ f : Rat, s.cfg.cutoffHz = some (.rational f) ∧ f < 0)

/-! ## Commands -/

/-- R140: INIT of a channel not yet initialised loads its bank from the configuration, responds OK, and changes nothing
else. -/
def Obligations.InitLoadsBank : Prop :=
  ∀ (s : State) (ch : ChanId) (cc : ChannelCfg),
    chanCfg s.cfg ch.toNat = some cc → (s.filter ch.toNat).initDone = false →
    ∃ t, exec (.init ch) s = .next t ∧
      (t.filter ch.toNat).prevOut = some 0 ∧ (t.filter ch.toNat).alpha = some cc.alphaCfg ∧
      (t.filter ch.toNat).minClamp = some cc.minCfg ∧ (t.filter ch.toNat).maxClamp = some cc.maxCfg ∧
      (t.filter ch.toNat).initDone = true ∧
      t.respq = s.respq ++ [0, 0] ∧ t.err = s.err ∧ t.gf = s.gf ∧ t.mem = s.mem ∧ CommandFrame s t ch.toNat

/-- R244: a second INIT answers REINIT, sets ERR[4], and changes no filter state nor anything else. -/
def Obligations.SecondInitAnswersReinit : Prop :=
  ∀ (s : State) (ch : ChanId), ch.toNat < numCh s.cfg → (s.filter ch.toNat).initDone = true →
    exec (.init ch) s = .next { s with err := s.err ||| 0x10, respq := s.respq ++ [4, 0] }

/-- R242: every legal command on a channel that does not exist answers NOCHAN, before anything else is looked at. -/
def Obligations.MissingChannelAnswersNochan : Prop :=
  ∀ (s : State) (i : Instr), i.wf = true →
    (∃ ch : ChanId, numCh s.cfg ≤ ch.toNat ∧
      (i = .init ch ∨ (∃ x, i = .fsample ch x) ∨ (∃ size src dst, i = .fblock ch size src dst) ∨ ∃ sel, i = .rdreg ch sel)) →
    exec i s = .next { s with err := s.err ||| 0x04, respq := s.respq ++ [2, 0] }

/-- R243: FSAMPLE, FBLOCK and RDREG of a filter register answer UNINIT before INIT, set ERR[3], and store or return no
value. -/
def Obligations.UninitialisedUseAnswersUninit : Prop :=
  ∀ (s : State) (i : Instr) (ch : ChanId), ch.toNat < numCh s.cfg → (s.filter ch.toNat).initDone = false →
    ((∃ x, i = .fsample ch x) ∨ (∃ size src dst, i = .fblock ch size src dst) ∨ ∃ sel : BitVec 4, sel.toNat ≤ 3 ∧ i = .rdreg ch sel) →
    exec i s = .next { s with err := s.err ||| 0x08, respq := s.respq ++ [3, 0] }

/-- R141: FSAMPLE on an initialised channel applies FS once, writes PREV_OUT with the value, responds with it
sign-extended, and changes nothing else. -/
def Obligations.FsampleFilters : Prop :=
  ∀ (s : State) (ch : ChanId) (x : Sample) (a : Word) (p lo hi : Sample),
    ch.toNat < numCh s.cfg → s.filter ch.toNat = liveBank a p lo hi → alphaOk a = true → s16 lo ≤ s16 hi →
    ∃ y t, filterValue a p lo hi x = some y ∧ exec (.fsample ch x) s = .next t ∧
      t.filter ch.toNat = liveBank a y lo hi ∧ t.respq = s.respq ++ [0, y.signExtend 32] ∧
      t.err = s.err ∧ t.gf = s.gf ∧ t.mem = s.mem ∧ CommandFrame s t ch.toNat

/-- R142, R249: on an initialised channel FBLOCK's first failing check decides: ALIGN, then RANGE, then OWNERSHIP; it
makes no access and changes nothing but ERR and RESPQ. -/
def Obligations.FblockCheckOrder : Prop :=
  ∀ (s : State) (ch : ChanId) (size : BitVec 16) (src dst : Addr),
    ch.toNat < numCh s.cfg → (s.filter ch.toNat).initDone = true →
    (src.toNat % 2 = 1 ∨ dst.toNat % 2 = 1 →
      exec (.fblock ch size src dst) s = .next { s with err := s.err ||| 0x20, respq := s.respq ++ [5, 0] }) ∧
    (src.toNat % 2 = 0 → dst.toNat % 2 = 0 →
      s.cfg.memBytes < src.toNat + 2 * size.toNat ∨ s.cfg.memBytes < dst.toNat + 2 * size.toNat →
      exec (.fblock ch size src dst) s = .next { s with err := s.err ||| 0x40, respq := s.respq ++ [6, 0] }) ∧
    (src.toNat % 2 = 0 → dst.toNat % 2 = 0 →
      src.toNat + 2 * size.toNat ≤ s.cfg.memBytes → dst.toNat + 2 * size.toNat ≤ s.cfg.memBytes →
      (∃ r ∈ regions s.cfg, ∃ x, r.1 ≤ x ∧ x < r.2 ∧
        ((src.toNat ≤ x ∧ x < src.toNat + 2 * size.toNat) ∨ (dst.toNat ≤ x ∧ x < dst.toNat + 2 * size.toNat))) →
      exec (.fblock ch size src dst) s = .next { s with err := s.err ||| 0x80, respq := s.respq ++ [7, 0] })

/-- FBLOCK over spans that do not overlap, or in place, is the recurrence over the samples at `src`: its outputs stand at
`dst`, PREV_OUT is the last of them, and every byte outside the destination span is unchanged (R142, R149, R151). -/
def Obligations.FblockIsRecurrence : Prop :=
  ∀ (s : State) (ch : ChanId) (size : BitVec 16) (src dst : Addr) (a : Word) (p lo hi : Sample),
    ch.toNat < numCh s.cfg → s.filter ch.toNat = liveBank a p lo hi → alphaOk a = true → s16 lo ≤ s16 hi →
    fblockStatus s.cfg (s.filter ch.toNat) size.toNat src.toNat dst.toNat = .ok →
    (src = dst ∨ src.toNat + 2 * size.toNat ≤ dst.toNat ∨ dst.toNat + 2 * size.toNat ≤ src.toNat) →
    ∃ ys t, filterSeq a lo hi p (samplesAt s.mem src.toNat size.toNat) = some ys ∧
      exec (.fblock ch size src dst) s = .next t ∧
      samplesAt t.mem dst.toNat size.toNat = ys ∧
      t.filter ch.toNat = liveBank a ((p :: ys).getLast (by simp)) lo hi ∧
      (∀ x, x < dst.toNat ∨ dst.toNat + 2 * size.toNat ≤ x → memRead t.mem x = memRead s.mem x) ∧
      t.respq = s.respq ++ [0, 0] ∧ t.err = s.err ∧ CommandFrame s t ch.toNat

/-- FBLOCK answers OK whenever its checks pass, also over spans that overlap; it writes only its destination span, and
STALE_SPAN is the one ghost it can add (R142, R246). -/
def Obligations.FblockCompletes : Prop :=
  ∀ (s : State) (ch : ChanId) (size : BitVec 16) (src dst : Addr) (a : Word) (p lo hi : Sample),
    cfgWf s.cfg = true →
    ch.toNat < numCh s.cfg → s.filter ch.toNat = liveBank a p lo hi → alphaOk a = true → s16 lo ≤ s16 hi →
    src.toNat % 2 = 0 → dst.toNat % 2 = 0 →
    src.toNat + 2 * size.toNat ≤ s.cfg.memBytes → dst.toNat + 2 * size.toNat ≤ s.cfg.memBytes →
    (∀ r ∈ regions s.cfg, ∀ x, r.1 ≤ x → x < r.2 →
      ¬(src.toNat ≤ x ∧ x < src.toNat + 2 * size.toNat) ∧ ¬(dst.toNat ≤ x ∧ x < dst.toNat + 2 * size.toNat)) →
    ∃ t q, exec (.fblock ch size src dst) s = .next t ∧ t.filter ch.toNat = liveBank a q lo hi ∧
      (∀ x, x < dst.toNat ∨ dst.toNat + 2 * size.toNat ≤ x → memRead t.mem x = memRead s.mem x) ∧
      t.gf.overrun = s.gf.overrun ∧ t.gf.seq = s.gf.seq ∧ t.gf.evrsv = s.gf.evrsv ∧
      t.respq = s.respq ++ [0, 0] ∧ t.err = s.err ∧ CommandFrame s t ch.toNat

/-- R143, R52, R50: RDREG of an initialised channel answers the register its selector names and changes nothing but
RESPQ; FLAGS and ERR are read whether or not the channel is initialised; a reserved selector answers ILLEGAL. -/
def Obligations.RdregReadsRegisters : Prop :=
  ∀ (s : State) (ch : ChanId) (cc : ChannelCfg), chanCfg s.cfg ch.toNat = some cc →
    (∀ a p lo hi, s.filter ch.toNat = liveBank a p lo hi →
      exec (.rdreg ch 0) s = .next { s with respq := s.respq ++ [0, p.signExtend 32] } ∧
      exec (.rdreg ch 1) s = .next { s with respq := s.respq ++ [0, a] } ∧
      exec (.rdreg ch 2) s = .next { s with respq := s.respq ++ [0, lo.signExtend 32] } ∧
      exec (.rdreg ch 3) s = .next { s with respq := s.respq ++ [0, hi.signExtend 32] }) ∧
    (∃ d : Word, exec (.rdreg ch 4) s = .next { s with respq := s.respq ++ [0, d] } ∧
      d.toNat =
        (if (s.filter ch.toNat).initDone then 1 else 0) +
        (match (s.arb ch.toNat).phase with | .fillingFirst => 0 | .fillingSecond => 2) +
        (match (s.arb ch.toNat).swHalf with | none => 0 | some .first => 4 | some .second => 8) +
        (match (s.arb ch.toNat).halfLatch with | none => 0 | some .first => 16 + 32 | some .second => 16 + 64) +
        (if cc.registered then 128 else 0) +
        (match cc.policy with | .raw => 0 | .filtered _ => 256)) ∧
    (∃ d : Word, exec (.rdreg ch 5) s = .next { s with respq := s.respq ++ [0, d] } ∧ d.toNat = s.err.toNat) ∧
    (∀ sel : BitVec 4, 5 < sel.toNat →
      exec (.rdreg ch sel) s = .next { s with err := s.err ||| 0x02, respq := s.respq ++ [1, 0] })

/-! ## Events -/

/-- R173, R175, R176, R177: EV.HALF on a registered channel makes the first half ready, latches it if no handler is
pending, adds SEQ if the writer was in the second half and OVERRUN if a handler was pending, and changes nothing else. -/
def Obligations.EvHalfTransition : Prop :=
  ∀ (s : State) (id : ChanId), registered s.cfg id.toNat = true →
    ∃ t, exec (.evHalf id) s = .next t ∧
      (t.arb id.toNat).phase = .fillingSecond ∧ (t.arb id.toNat).swHalf = some .first ∧
      t.ownedBySw id.toNat .first = true ∧ t.ownedBySw id.toNat .second = false ∧
      (t.arb id.toNat).halfLatch =
        (match (s.arb id.toNat).halfLatch with | none => some .first | some h => some h) ∧
      (t.gf.seq = true ↔ s.gf.seq = true ∨ (s.arb id.toNat).phase = .fillingSecond) ∧
      (t.gf.overrun = true ↔ s.gf.overrun = true ∨ (s.arb id.toNat).halfLatch ≠ none) ∧
      t.gf.evrsv = s.gf.evrsv ∧ t.gf.staleSpan = s.gf.staleSpan ∧
      (∀ d, d ≠ id.toNat → t.arb d = s.arb d) ∧ t = { s with arbs := t.arbs, gf := t.gf }

/-- R174, R175, R176, R177: EV.FULL on a registered channel, likewise for the second half. -/
def Obligations.EvFullTransition : Prop :=
  ∀ (s : State) (id : ChanId), registered s.cfg id.toNat = true →
    ∃ t, exec (.evFull id) s = .next t ∧
      (t.arb id.toNat).phase = .fillingFirst ∧ (t.arb id.toNat).swHalf = some .second ∧
      t.ownedBySw id.toNat .second = true ∧ t.ownedBySw id.toNat .first = false ∧
      (t.arb id.toNat).halfLatch =
        (match (s.arb id.toNat).halfLatch with | none => some .second | some h => some h) ∧
      (t.gf.seq = true ↔ s.gf.seq = true ∨ (s.arb id.toNat).phase = .fillingFirst) ∧
      (t.gf.overrun = true ↔ s.gf.overrun = true ∨ (s.arb id.toNat).halfLatch ≠ none) ∧
      t.gf.evrsv = s.gf.evrsv ∧ t.gf.staleSpan = s.gf.staleSpan ∧
      (∀ d, d ≠ id.toNat → t.arb d = s.arb d) ∧ t = { s with arbs := t.arbs, gf := t.gf }

/-- R172, R191: an event whose identity is no channel, or a channel not registered, changes no state at all. -/
def Obligations.UnrecognisedIdentityIsNoop : Prop :=
  ∀ (s : State) (id : ChanId),
    (numCh s.cfg ≤ id.toNat ∨ ∃ cc, chanCfg s.cfg id.toNat = some cc ∧ cc.registered = false) →
    exec (.evHalf id) s = .next s ∧ exec (.evFull id) s = .next s

/-- R250: the acceptances of events of two different channels commute. -/
def Obligations.EventsOfTwoChannelsCommute : Prop :=
  ∀ (s t u : State) (i j : Instr) (c d : ChanId), c ≠ d →
    (i = .evHalf c ∨ i = .evFull c) → (j = .evHalf d ∨ j = .evFull d) →
    exec i s = .next t → exec j t = .next u →
    ∃ t', exec j s = .next t' ∧ exec i t' = .next u

/-! ## The handler -/

/-- R180, R183, R185: H_START of a pending channel with ENG idle: a raw channel's handler starts with no sample to do, an
initialised filtered one's with all of them; an uninitialised filtered one's is aborted, with ERR[3] set and the latch
cleared. -/
def Obligations.HandlerStarts : Prop :=
  ∀ (s : State) (c : Nat) (cc : ChannelCfg) (h : Half),
    s.eng = .idle → chanCfg s.cfg c = some cc → (s.arb c).halfLatch = some h →
    (cc.policy = .raw →
      perform (.engStart c) s = .next { s with eng := .handler c h (bufN s.cfg / 2) }) ∧
    (cc.policy ≠ .raw → (s.filter c).initDone = true →
      perform (.engStart c) s = .next { s with eng := .handler c h 0 }) ∧
    (cc.policy ≠ .raw → (s.filter c).initDone = false →
      ∃ t, perform (.engStart c) s = .next t ∧ t = { s with err := s.err ||| 0x08, arbs := t.arbs } ∧
        (t.arb c).halfLatch = none ∧ (t.arb c).phase = (s.arb c).phase ∧ (t.arb c).swHalf = (s.arb c).swHalf ∧
        ∀ d, d ≠ c → t.arb d = s.arb d)

/-- R182: H_SAMPLE reads sample `off(h) + i` of the capture buffer, applies FS, writes the result at the same index of the
output buffer, counts the sample, and changes nothing else but the ghost of R222. -/
def Obligations.HandlerFiltersOneSample : Prop :=
  ∀ (s : State) (c i : Nat) (h : Half) (cc : ChannelCfg) (out : Addr) (a : Word) (p lo hi : Sample),
    s.eng = .handler c h i → chanCfg s.cfg c = some cc → cc.policy = .filtered out → i < halfH s.cfg →
    s.filter c = liveBank a p lo hi → alphaOk a = true → s16 lo ≤ s16 hi →
    cc.capBase.toNat + 2 * (halfOff s.cfg h + i) + 2 ≤ s.cfg.memBytes →
    out.toNat + 2 * (halfOff s.cfg h + i) + 2 ≤ s.cfg.memBytes →
    ∃ y t, filterValue a p lo hi (sampleAt s.mem (cc.capBase.toNat + 2 * (halfOff s.cfg h + i))) = some y ∧
      perform .engHandler s = .next t ∧ t.eng = .handler c h (i + 1) ∧ t.filter c = liveBank a y lo hi ∧
      sampleAt t.mem (out.toNat + 2 * (halfOff s.cfg h + i)) = y ∧
      (∀ x, x ≠ out.toNat + 2 * (halfOff s.cfg h + i) → x ≠ out.toNat + 2 * (halfOff s.cfg h + i) + 1 →
        memRead t.mem x = memRead s.mem x) ∧
      (∀ d, d ≠ c → t.filter d = s.filter d) ∧
      t.gf = { s.gf with staleSpan := t.gf.staleSpan } ∧
      t = { s with eng := t.eng, filters := t.filters, mem := t.mem, gf := t.gf }

/-- R184: H_SUBMIT appends the half's span of N bytes to the channel's transport, from the output buffer of a filtered
channel and the capture buffer of a raw one, clears the latch, makes ENG idle, and changes nothing else. -/
def Obligations.HandlerSubmits : Prop :=
  ∀ (s : State) (c : Nat) (h : Half) (cc : ChannelCfg),
    s.eng = .handler c h (halfH s.cfg) → chanCfg s.cfg c = some cc →
    ∃ t, perform .engHandler s = .next t ∧ t.eng = .idle ∧
      (t.xpt cc.xport).wire = (s.xpt cc.xport).wire ∧
      (t.xpt cc.xport).queue = (s.xpt cc.xport).queue ++
        [{ ptr := BitVec.ofNat 32
             ((match cc.policy with | .raw => cc.capBase.toNat | .filtered out => out.toNat) +
               2 * (match h with | .first => 0 | .second => bufN s.cfg / 2)),
           len := BitVec.ofNat 32 (bufN s.cfg), sent := 0 }] ∧
      (∀ x, x ≠ cc.xport → t.xpt x = s.xpt x) ∧
      t.arb c = { s.arb c with halfLatch := none } ∧ (∀ d, d ≠ c → t.arb d = s.arb d) ∧
      t = { s with eng := .idle, xpts := t.xpts, arbs := t.arbs }

/-- The H_SAMPLE steps of a handler are the block filter over that part of the half (R182, R186). -/
def Obligations.HandlerIsBlockFilter : Prop :=
  ∀ (s t : State) (c i n : Nat) (h : Half) (cc : ChannelCfg) (out : Addr),
    s.eng = .handler c h i → chanCfg s.cfg c = some cc → cc.policy = .filtered out → i + n ≤ halfH s.cfg →
    (performAll (List.replicate n .engHandler) s = .next t ↔
      ∃ u, filterLoop c n (cc.capBase.toNat + 2 * (halfOff s.cfg h + i)) (out.toNat + 2 * (halfOff s.cfg h + i)) s = .ok u ∧
        t = { u with eng := .handler c h (i + n) })

/-- R190: when SRC[c] fills each half, raises its event and the handler completes before the next event, the output buffer
holds the recurrence over the whole sequence from the PREV_OUT before it, and the two halves' spans are submitted in
order. -/
def Obligations.ContinuityAcrossHalves : Prop :=
  ∀ (s : State) (c : Nat) (cc : ChannelCfg) (out : Addr) (p : Sample) (xs ys : List Sample),
    Inv s → chanCfg s.cfg c = some cc → cc.registered = true → cc.policy = .filtered out →
    s.filter c = liveBank cc.alphaCfg p cc.minCfg cc.maxCfg → s.eng = .idle → (s.arb c).halfLatch = none →
    s.src c = { wptr := 0, due := .none } → xs.length = halfH s.cfg → ys.length = halfH s.cfg →
    ∃ zs t, filterSeq cc.alphaCfg cc.minCfg cc.maxCfg p (xs ++ ys) = some zs ∧
      performAll (fillHalf c xs ++ wholeHandler c (halfH s.cfg) ++ fillHalf c ys ++ wholeHandler c (halfH s.cfg)) s = .next t ∧
      samplesAt t.mem out.toNat (bufN s.cfg) = zs ∧
      t.filter c = liveBank cc.alphaCfg ((p :: zs).getLast (by simp)) cc.minCfg cc.maxCfg ∧
      (t.xpt cc.xport).queue = (s.xpt cc.xport).queue ++
        [{ ptr := out, len := BitVec.ofNat 32 (bufN s.cfg), sent := 0 },
         { ptr := out + BitVec.ofNat 32 (bufN s.cfg), len := BitVec.ofNat 32 (bufN s.cfg), sent := 0 }] ∧
      t.eng = .idle ∧ (t.arb c).halfLatch = none

/-! ## The environment -/

/-- R211: SRC.WRITE writes one sample at the write index, advances and wraps it, and owes an event after the last sample
of each half. -/
def Obligations.SourceWrites : Prop :=
  ∀ (s : State) (c : Nat) (cc : ChannelCfg) (v : Sample), chanCfg s.cfg c = some cc → (s.src c).due = .none →
    cc.capBase.toNat + 2 * (s.src c).wptr + 2 ≤ s.cfg.memBytes →
    ∃ t, perform (.srcWrite c v) s = .next t ∧
      sampleAt t.mem (cc.capBase.toNat + 2 * (s.src c).wptr) = v ∧
      (∀ x, x ≠ cc.capBase.toNat + 2 * (s.src c).wptr → x ≠ cc.capBase.toNat + 2 * (s.src c).wptr + 1 →
        memRead t.mem x = memRead s.mem x) ∧
      t.src c =
        (if (s.src c).wptr + 1 = bufN s.cfg then { wptr := 0, due := .full }
         else if (s.src c).wptr + 1 = bufN s.cfg / 2 then { wptr := (s.src c).wptr + 1, due := .half }
         else { wptr := (s.src c).wptr + 1, due := .none }) ∧
      (∀ d, d ≠ c → t.src d = s.src d) ∧ t.gf = { s.gf with staleSpan := t.gf.staleSpan } ∧
      t = { s with mem := t.mem, gf := t.gf, srcs := t.srcs }

/-- R212: SRC.EVENT delivers the event the source owes, which is accepted in the same step, and then it owes none. -/
def Obligations.SourceRaisesItsEvent : Prop :=
  ∀ (s : State) (c : ChanId), c.toNat < numCh s.cfg → (s.src c.toNat).due ≠ .none →
    ∃ u t, exec (if (s.src c.toNat).due = .half then .evHalf c else .evFull c) s = .next u ∧
      perform (.srcEvent c.toNat) s = .next t ∧
      t.src c.toNat = { wptr := (s.src c.toNat).wptr, due := .none } ∧
      (∀ d, d ≠ c.toNat → t.src d = s.src d) ∧ t = { u with srcs := t.srcs }

/-- A SampleSource that keeps its contract stays in step with its arbiter bank, and no move of contract-keeping agents adds
SEQ or EVRSV (R212, R271). -/
def Obligations.ContractKeepsPhaseInStep : Prop :=
  ∀ (s t : State) (m : Move), Inv s → contractual m = true →
    (∀ c, c < numCh s.cfg → registered s.cfg c = true → phaseInStep s c = true) →
    perform m s = .next t →
    (∀ c, c < numCh t.cfg → registered t.cfg c = true → phaseInStep t c = true) ∧
      t.gf.seq = s.gf.seq ∧ t.gf.evrsv = s.gf.evrsv

/-- R221: XPT.SEND puts the next unsent byte of the oldest submission on the wire, as memory holds it now, and drops the
submission after its last byte. -/
def Obligations.TransportSendsOneByte : Prop :=
  ∀ (s : State) (x : Nat) (q : Submission) (rest : List Submission), (s.xpt x).queue = q :: rest →
    q.ptr.toNat + q.sent < s.cfg.memBytes →
    ∃ t, perform (.xptSend x) s = .next t ∧
      (t.xpt x).wire = (s.xpt x).wire ++ [memRead s.mem (q.ptr.toNat + q.sent)] ∧
      (t.xpt x).queue = (if q.sent + 1 = q.len.toNat then rest
        else { ptr := q.ptr, len := q.len, sent := q.sent + 1 } :: rest) ∧
      (∀ y, y ≠ x → t.xpt y = s.xpt y) ∧ t = { s with xpts := t.xpts }

/-- R222: a MemWrite adds STALE_SPAN exactly when some byte it writes lies in the unsent part of a pending submission; the
write happens anyway. -/
def Obligations.StaleSpanMarksLateWrites : Prop :=
  ∀ (s : State) (a : Nat) (bs : List Byte),
    ((s.storeBytes a bs).gf.staleSpan = true ↔ s.gf.staleSpan = true ∨
      ∃ t ∈ s.xpts, ∃ q ∈ t.queue, ∃ x, a ≤ x ∧ x < a + bs.length ∧
        q.ptr.toNat + q.sent ≤ x ∧ x < q.ptr.toNat + q.len.toNat) ∧
    (∀ (k : Nat) (b : Byte), bs[k]? = some b → memRead (s.storeBytes a bs).mem (a + k) = b) ∧
    (∀ x, x < a ∨ a + bs.length ≤ x → memRead (s.storeBytes a bs).mem x = memRead s.mem x)

/-- The wire law, step by step: while no step adds STALE_SPAN, what a transport has sent and is still to send only grows, at
its end, by the bytes a submitted half holds at its H_SUBMIT (R224, R81 (d)). -/
def Obligations.WireLaw : Prop :=
  ∀ (s t : State) (x : Nat), Inv s → step s = .next t → t.gf.staleSpan = false →
    promised t x = promised s x ∨
    ∃ c h cc, s.eng = .handler c h (halfH s.cfg) ∧ t.eng = .idle ∧ chanCfg s.cfg c = some cc ∧ cc.xport = x ∧
      promised t x = promised s x ++
        spanBytes s.mem
          ((match cc.policy with | .raw => cc.capBase.toNat | .filtered out => out.toNat) + 2 * halfOff s.cfg h)
          (bufN s.cfg)

/-- R274: in a run of contract-keeping agents from reset, whatever memory was drawn to hold, SRC[c] wrote every byte of a half
before the event it raises for it, and every byte of a span was written before its H_SUBMIT: an output half by the handler,
a raw capture half by SRC[c]. The rule's other premises, that the host follows R275 and that GF stays empty, are not needed.
That a raw event word is no move of a contract-keeping agent is the model's choice (log 7). -/
def Obligations.SubmittedBytesWereWritten : Prop :=
  ∀ (cfg : Config) (mem : Memory) (script : List Move) (σ : Nat → State) (μ : Nat → Move),
    cfgWf cfg = true → σ 0 = State.powerOn cfg mem script → IsRun σ μ → (∀ k, contractual (μ k) = true) →
    ∀ (k c : Nat) (cc : ChannelCfg), chanCfg cfg c = some cc →
      (μ k = .srcEvent c → ∀ x,
        (((σ k).src c).due = .half → cc.capBase.toNat ≤ x → x < cc.capBase.toNat + bufN cfg → SourceWrote σ μ k c x) ∧
        (((σ k).src c).due = .full → cc.capBase.toNat + bufN cfg ≤ x → x < cc.capBase.toNat + 2 * bufN cfg →
          SourceWrote σ μ k c x)) ∧
      (∀ h, μ k = .engHandler → (σ k).eng = .handler c h (halfH cfg) → ∀ x,
        (cc.policy = .raw → cc.capBase.toNat + 2 * halfOff cfg h ≤ x →
          x < cc.capBase.toNat + 2 * halfOff cfg h + bufN cfg → SourceWrote σ μ k c x) ∧
        (∀ out, cc.policy = .filtered out → out.toNat + 2 * halfOff cfg h ≤ x →
          x < out.toNat + 2 * halfOff cfg h + bufN cfg → HandlerWrote σ μ k c x))

/-- R230, R231: the host's steps. HOST.CMD appends any word to CMDQ; HOST.TAKE removes the head of RESPQ when there is one;
HOST.LOAD changes nothing. A host store changes no byte of a declared region and no byte of a span of any FBLOCK that CMDQ
holds whole, wherever in CMDQ it stands; in a well-formed configuration it is admitted exactly where it stays in memory and
would touch none of them; where it is admitted it leaves its bytes there, and where it is not it changes nothing. -/
def Obligations.HostStoresOnlyHostMemory : Prop :=
  ∀ (s : State) (a : Nat) (bs : List Byte),
    (∀ w, perform (.hostCmd w) s = .next { s with cmdq := s.cmdq ++ [w] }) ∧
    (∀ w rest, s.respq = w :: rest → perform .hostTake s = .next { s with respq := rest }) ∧
    (s.respq = [] → perform .hostTake s = .next s) ∧
    perform (.hostLoad a bs.length) s = .next s ∧
    ∃ t, perform (.hostStore a bs) s = .next t ∧
      (∀ r ∈ regions s.cfg, ∀ x, r.1 ≤ x → x < r.2 → memRead t.mem x = memRead s.mem x) ∧
      (∀ ch size src dst x, Queued (.ok (.fblock ch size src dst)) s.cmdq → inSpans size src dst x →
        memRead t.mem x = memRead s.mem x) ∧
      (cfgWf s.cfg = true →
        (s.hostMayTouch a bs.length = true ↔ a + bs.length ≤ s.cfg.memBytes ∧
          ∀ x, a ≤ x → x < a + bs.length → (∀ r ∈ regions s.cfg, ¬(r.1 ≤ x ∧ x < r.2)) ∧
            ∀ ch size src dst, Queued (.ok (.fblock ch size src dst)) s.cmdq → ¬inSpans size src dst x)) ∧
      (s.hostMayTouch a bs.length = true →
        ∀ (k : Nat) (b : Byte), bs[k]? = some b → memRead t.mem (a + k) = b) ∧
      (s.hostMayTouch a bs.length = false → t = s) ∧
      t = { s with mem := t.mem, gf := t.gf }

/-- R72: a Sample lies low byte first. -/
def Obligations.SamplesAreLittleEndian : Prop :=
  ∀ (m : Memory) (a : Nat) (v : Sample),
    (memRead (memWriteBytes m a (sampleBytes v)) a).toNat = v.toNat % 256 ∧
    (memRead (memWriteBytes m a (sampleBytes v)) (a + 1)).toNat = v.toNat / 256 ∧
    (∀ x, x ≠ a → x ≠ a + 1 → memRead (memWriteBytes m a (sampleBytes v)) x = memRead m x) ∧
    (sampleAt m a).toNat = (memRead m a).toNat + 256 * (memRead m (a + 1)).toNat

/-! ## The whole machine -/

/-- R270: the reset values, in every configuration and for every draw of memory. -/
def Obligations.ResetValues : Prop :=
  ∀ (cfg : Config) (mem : Memory) (script : List Move) (c x : Nat),
    let s := State.powerOn cfg mem script
    s.eng = .idle ∧ (s.filter c).prevOut = none ∧ (s.filter c).alpha = none ∧ (s.filter c).minClamp = none ∧
      (s.filter c).maxClamp = none ∧ (s.filter c).initDone = false ∧
      (s.arb c).phase = .fillingFirst ∧ (s.arb c).swHalf = none ∧ (s.arb c).halfLatch = none ∧
      s.err = 0 ∧ s.cmdq = [] ∧ s.respq = [] ∧
      (s.gf.overrun = false ∧ s.gf.seq = false ∧ s.gf.evrsv = false ∧ s.gf.staleSpan = false) ∧
      s.mem = mem ∧ (s.src c).wptr = 0 ∧ (s.src c).due = .none ∧ (s.xpt x).queue = [] ∧ (s.xpt x).wire = [] ∧
      s.cfg = cfg

/-- The invariant holds right after reset, in every well-formed configuration and for every draw of memory; there every
half a handler would process is owned by the engine, and every SampleSource is in step with its arbiter bank. -/
def Obligations.InvHoldsAtReset : Prop :=
  ∀ (cfg : Config) (mem : Memory) (script : List Move),
    cfgWf cfg = true → memOk cfg mem = true →
    Inv (State.powerOn cfg mem script) ∧ latchOwned (State.powerOn cfg mem script) ∧
      ∀ c, phaseInStep (State.powerOn cfg mem script) c = true

/-- Every step keeps the invariant: banks hold values exactly after INIT and PREV_OUT stays in bounds (R37, R38), the
arbiter banks are as R46 says, the memory stays canonical, a running handler is that of its latch, ERR bit 0 stays 0,
pending submissions lie in memory. -/
def Obligations.StepKeepsInvariant : Prop :=
  ∀ s t : State, Inv s → step s = .next t → Inv t

/-- From a state that satisfies the invariant the machine never stops: every move of every agent answers a next state. -/
def Obligations.StepAlwaysCompletes : Prop :=
  ∀ s : State, Inv s → ∃ t, step s = .next t

/-- No step clears a bit of ERR or removes a ghost fault, and none changes the configuration (R50, R53, R7). -/
def Obligations.ErrGhostsAndConfigPersist : Prop :=
  ∀ s t : State, step s = .next t →
    (∀ k, s.err.getLsbD k = true → t.err.getLsbD k = true) ∧
    (∀ g, ghostHas s.gf g = true → ghostHas t.gf g = true) ∧ t.cfg = s.cfg

/-- ENG never writes a capture buffer, whoever owns it (R187, R45). -/
def Obligations.EngineNeverWritesCaptureBuffers : Prop :=
  ∀ (s t : State) (m : Move) (cc : ChannelCfg) (x : Nat), Inv s → ofEngine m = true → perform m s = .next t →
    cc ∈ s.cfg.chans → cc.capBase.toNat ≤ x → x < cc.capBase.toNat + 2 * bufN s.cfg →
    memRead t.mem x = memRead s.mem x

/-- After INIT a channel's ALPHA, MIN_CLAMP and MAX_CLAMP are constant and INIT_DONE stays 1 (R34 to R37). -/
def Obligations.InitialisedBankIsConstant : Prop :=
  ∀ (s t : State) (c : Nat), step s = .next t → (s.filter c).initDone = true →
    (t.filter c).initDone = true ∧ (t.filter c).alpha = (s.filter c).alpha ∧
      (t.filter c).minClamp = (s.filter c).minClamp ∧ (t.filter c).maxClamp = (s.filter c).maxClamp

/-- Only event acceptance writes PHASE and SW_HALF, and a move that accepts no event can do no more to HALF_LATCH than
clear it (R41, R42, R43). -/
def Obligations.ArbiterWrittenByEventsOnly : Prop :=
  ∀ (s t : State) (m : Move) (c : Nat), perform m s = .next t → (∀ w, m ≠ .event w) → (∀ d, m ≠ .srcEvent d) →
    (t.arb c).phase = (s.arb c).phase ∧ (t.arb c).swHalf = (s.arb c).swHalf ∧
      ((t.arb c).halfLatch = (s.arb c).halfLatch ∨ (t.arb c).halfLatch = none)

/-- No hardware output depends on GF: two states that differ in GF alone step to states that differ in GF alone, or stop
for the same reason (R53). -/
def Obligations.GhostsInfluenceNothing : Prop :=
  ∀ (s : State) (g : GhostSet),
    match step s, step { s with gf := g } with
    | .next t, .next u => u = { t with gf := u.gf }
    | .fault a, .fault b => a = b
    | .refused a, .refused b => a = b
    | _, _ => False

/-- While no event was lost, every step keeps the half of a pending or running handler owned by the engine (R45, R81). -/
def Obligations.LatchedHalfStaysOwned : Prop :=
  ∀ s t : State, latchOwned s → step s = .next t → latchOwned t

/-- While no event was lost, a SampleSource in step with its arbiter never writes a sample of the half whose handler is
pending or running (R45, R81). -/
def Obligations.SourceLeavesLatchedHalfAlone : Prop :=
  ∀ (s t : State) (c k : Nat) (cc : ChannelCfg) (h : Half) (v : Sample),
    Inv s → latchOwned s → s.gf.overrun = false → chanCfg s.cfg c = some cc → cc.registered = true →
    phaseInStep s c = true → (s.arb c).halfLatch = some h → k < halfH s.cfg →
    perform (.srcWrite c v) s = .next t →
    sampleAt t.mem (cc.capBase.toNat + 2 * (halfOff s.cfg h + k)) =
      sampleAt s.mem (cc.capBase.toNat + 2 * (halfOff s.cfg h + k))

/-! ## The filter step -/

/-- R146: the value of FS lies within the clamp bounds, whatever the coefficient; and the clamp acts with the default
bounds too, as in the rule's example. -/
def Obligations.FilterStaysInBounds : Prop :=
  (∀ (a : Word) (p lo hi x y : Sample), s16 lo ≤ s16 hi → filterValue a p lo hi x = some y →
    s16 lo ≤ s16 y ∧ s16 y ≤ s16 hi) ∧
  (∀ (a : Word) (p x y : Sample), filterValue a p 0x8000 0x7FFF x = some y → -32768 ≤ s16 y ∧ s16 y ≤ 32767) ∧
  filterSum (.ofBits 0x3EC88869) (.ofInt 32767) (.ofInt 32767) = .fin false ((32767 * 512 + 1) * 2 ^ 140) ∧
  clampF32 (.fin false ((32767 * 512 + 1) * 2 ^ 140)) (.ofInt (-32768)) (.ofInt 32767) = .ofInt 32767

/-- R133: with a coefficient in (0, 1] every intermediate value of FS is finite, the sum is at most 65537 in magnitude, and
FS has a value; a -0 arises where the rule's example says, and converts to the integer 0; a subnormal
product is not flushed. -/
def Obligations.FilterIntermediatesFinite : Prop :=
  ∀ (a : Word) (p lo hi x : Sample), alphaOk a = true →
    (∃ n m, (F32.ofBits a).mul (.ofInt (s16 x)) = .fin n m) ∧
    (∃ n m, (F32.ofInt 1).sub (.ofBits a) = .fin n m) ∧
    (∃ n m, ((F32.ofInt 1).sub (.ofBits a)).mul (.ofInt (s16 p)) = .fin n m) ∧
    (∃ n m, filterSum (.ofBits a) (.ofInt (s16 x)) (.ofInt (s16 p)) = .fin n m ∧ m ≤ 65537 * 2 ^ 149) ∧
    (∃ y, filterValue a p lo hi x = some y) ∧
    (s16 p < 0 → ((F32.ofInt 1).sub (.ofBits 0x3F800000)).mul (.ofInt (s16 p)) = .fin true 0) ∧
    (F32.fin true 0).truncz = some 0 ∧
    (F32.ofBits 0x00000001).mul (.ofInt (s16 x)) = .fin (decide (s16 x < 0)) (s16 x).natAbs

/-- R145: with ALPHA 0x3F800000 the filter is the identity on inputs within the bounds, by the steps the rule gives. -/
def Obligations.AlphaOneIsIdentity : Prop :=
  ∀ p lo hi x : Sample, s16 lo ≤ s16 x → s16 x ≤ s16 hi →
    filterValue 0x3F800000 p lo hi x = some x ∧
    (F32.ofBits 0x3F800000).mul (.ofInt (s16 x)) = .ofInt (s16 x) ∧
    (F32.ofInt 1).sub (.ofBits 0x3F800000) = .fin false 0 ∧
    (∃ n, ((F32.ofInt 1).sub (.ofBits 0x3F800000)).mul (.ofInt (s16 p)) = .fin n 0) ∧
    filterSum (.ofBits 0x3F800000) (.ofInt (s16 x)) (.ofInt (s16 p)) = .ofInt (s16 x)

/-- R147: for every finite value, truncating after the clamp is clamping the truncated integer. -/
def Obligations.ClampAndTruncationCommute : Prop :=
  ∀ (n : Bool) (mag : Nat) (lo hi : Sample), s16 lo ≤ s16 hi →
    ∃ i, (F32.fin n mag).truncz = some i ∧
      (clampF32 (.fin n mag) (.ofInt (s16 lo)) (.ofInt (s16 hi))).truncz =
        some (if s16 hi < i then s16 hi else if i < s16 lo then s16 lo else i)

/-- mul32 and add32 are correctly rounded: a finite result is a binary32 value, none is nearer to the exact one, and of two
equally near the result has an even significand (R21, R132). -/
def Obligations.MulAndAddRoundToNearestEven : Prop :=
  (∀ (n k r : Bool) (a b v : Nat), (F32.fin n a).mul (.fin k b) = .fin r v →
    isBinary32 v ∧ ∀ z : Int, isBinary32 z.natAbs →
      |signed r v * 2 ^ 149 - signed n a * signed k b| < |z * 2 ^ 149 - signed n a * signed k b| ∨
      z = signed r v ∨
      (|signed r v * 2 ^ 149 - signed n a * signed k b| = |z * 2 ^ 149 - signed n a * signed k b| ∧ evenSignificand v)) ∧
  (∀ (n k r : Bool) (a b v : Nat), (F32.fin n a).add (.fin k b) = .fin r v →
    isBinary32 v ∧ ∀ z : Int, isBinary32 z.natAbs →
      |signed r v - (signed n a + signed k b)| < |z - (signed n a + signed k b)| ∨
      z = signed r v ∨
      (|signed r v - (signed n a + signed k b)| = |z - (signed n a + signed k b)| ∧ evenSignificand v))

/-- R12: for a cutoff of 5000 Hz and a sample rate of 48000 Hz the default coefficient is 0x3F1ABACC. -/
def Obligations.DefaultAlphaAt5000Hz : Prop :=
  IsDefaultAlpha 5000 48000 0x3F1ABACC

/-! ## Liveness, under the fairness of R285 -/

/-- A whole command at the head of CMDQ is taken, and answered with two response words. -/
def Obligations.CommandsAreAnswered : Prop :=
  ∀ (σ : Nat → State) (μ : Nat → Move), IsRun σ μ → Fair σ μ → Inv (σ 0) →
    ∀ (k : Nat) (d : Except Reject Instr) (rest : List Word), nextCommand (σ k).cmdq = some (d, rest) →
      ∃ j more r0 r1, k ≤ j ∧ μ j = .engCommand ∧ nextCommand (σ j).cmdq = some (d, rest ++ more) ∧
        (σ (j + 1)).cmdq = rest ++ more ∧ (σ (j + 1)).respq = (σ j).respq ++ [r0, r1]

/-- A handler in progress submits and gives ENG back; and every pending handler, started or not, completes or aborts. -/
def Obligations.PendingHandlersComplete : Prop :=
  ∀ (σ : Nat → State) (μ : Nat → Move), IsRun σ μ → Fair σ μ → Inv (σ 0) →
    (∀ (k c i : Nat) (h : Half), (σ k).eng = .handler c h i →
      ∃ j, k ≤ j ∧ μ j = .engHandler ∧ (σ j).eng = .handler c h (halfH (σ j).cfg) ∧
        (σ (j + 1)).eng = .idle ∧ ((σ (j + 1)).arb c).halfLatch = none) ∧
    (∀ k c : Nat, pend ((σ k).arb c) = true → ∃ j, k ≤ j ∧ pend ((σ j).arb c) = false)

/-- Every submitted span is sent in full: the wire grows to the length of all that was promised. -/
def Obligations.SubmittedSpansAreSent : Prop :=
  ∀ (σ : Nat → State) (μ : Nat → Move), IsRun σ μ → Fair σ μ → Inv (σ 0) →
    ∀ k x : Nat, ∃ j, k ≤ j ∧ (promised (σ k) x).length ≤ ((σ j).xpt x).wire.length
end

