-- ==== Sys2Proof/Laws/State.lean ====
section
/-! SUPPORT. One lemma per field per update of State, so that no proof unfolds a record update. -/

namespace Sys2Proof.Machine

variable (s : State)

/-! ### ghostIf -/
@[simp] theorem ghostIf_cfg (b : Bool) (g : Ghost) : (s.ghostIf b g).cfg = s.cfg := by cases b <;> rfl
@[simp] theorem ghostIf_eng (b : Bool) (g : Ghost) : (s.ghostIf b g).eng = s.eng := by cases b <;> rfl
@[simp] theorem ghostIf_filters (b : Bool) (g : Ghost) : (s.ghostIf b g).filters = s.filters := by cases b <;> rfl
@[simp] theorem ghostIf_arbs (b : Bool) (g : Ghost) : (s.ghostIf b g).arbs = s.arbs := by cases b <;> rfl
@[simp] theorem ghostIf_err (b : Bool) (g : Ghost) : (s.ghostIf b g).err = s.err := by cases b <;> rfl
@[simp] theorem ghostIf_cmdq (b : Bool) (g : Ghost) : (s.ghostIf b g).cmdq = s.cmdq := by cases b <;> rfl
@[simp] theorem ghostIf_respq (b : Bool) (g : Ghost) : (s.ghostIf b g).respq = s.respq := by cases b <;> rfl
theorem ghostIf_gf (b : Bool) (g : Ghost) :
    (s.ghostIf b g).gf = if b then ghostAdd s.gf g else s.gf := by cases b <;> rfl
@[simp] theorem ghostIf_mem (b : Bool) (g : Ghost) : (s.ghostIf b g).mem = s.mem := by cases b <;> rfl
@[simp] theorem ghostIf_srcs (b : Bool) (g : Ghost) : (s.ghostIf b g).srcs = s.srcs := by cases b <;> rfl
@[simp] theorem ghostIf_xpts (b : Bool) (g : Ghost) : (s.ghostIf b g).xpts = s.xpts := by cases b <;> rfl
@[simp] theorem ghostIf_script (b : Bool) (g : Ghost) : (s.ghostIf b g).script = s.script := by cases b <;> rfl
@[simp] theorem ghostIf_draws (b : Bool) (g : Ghost) : (s.ghostIf b g).draws = s.draws := by cases b <;> rfl

/-! ### setFilter -/
@[simp] theorem setFilter_cfg (c : Nat) (b : FilterBank) : (s.setFilter c b).cfg = s.cfg := rfl
@[simp] theorem setFilter_eng (c : Nat) (b : FilterBank) : (s.setFilter c b).eng = s.eng := rfl
@[simp] theorem setFilter_filters (c : Nat) (b : FilterBank) : (s.setFilter c b).filters = bankSet .atReset s.filters c b := rfl
@[simp] theorem setFilter_arbs (c : Nat) (b : FilterBank) : (s.setFilter c b).arbs = s.arbs := rfl
@[simp] theorem setFilter_err (c : Nat) (b : FilterBank) : (s.setFilter c b).err = s.err := rfl
@[simp] theorem setFilter_cmdq (c : Nat) (b : FilterBank) : (s.setFilter c b).cmdq = s.cmdq := rfl
@[simp] theorem setFilter_respq (c : Nat) (b : FilterBank) : (s.setFilter c b).respq = s.respq := rfl
@[simp] theorem setFilter_gf (c : Nat) (b : FilterBank) : (s.setFilter c b).gf = s.gf := rfl
@[simp] theorem setFilter_mem (c : Nat) (b : FilterBank) : (s.setFilter c b).mem = s.mem := rfl
@[simp] theorem setFilter_srcs (c : Nat) (b : FilterBank) : (s.setFilter c b).srcs = s.srcs := rfl
@[simp] theorem setFilter_xpts (c : Nat) (b : FilterBank) : (s.setFilter c b).xpts = s.xpts := rfl
@[simp] theorem setFilter_script (c : Nat) (b : FilterBank) : (s.setFilter c b).script = s.script := rfl
@[simp] theorem setFilter_draws (c : Nat) (b : FilterBank) : (s.setFilter c b).draws = s.draws := rfl

/-! ### setArb -/
@[simp] theorem setArb_cfg (c : Nat) (b : ArbBank) : (s.setArb c b).cfg = s.cfg := rfl
@[simp] theorem setArb_eng (c : Nat) (b : ArbBank) : (s.setArb c b).eng = s.eng := rfl
@[simp] theorem setArb_filters (c : Nat) (b : ArbBank) : (s.setArb c b).filters = s.filters := rfl
@[simp] theorem setArb_arbs (c : Nat) (b : ArbBank) : (s.setArb c b).arbs = bankSet .atReset s.arbs c b := rfl
@[simp] theorem setArb_err (c : Nat) (b : ArbBank) : (s.setArb c b).err = s.err := rfl
@[simp] theorem setArb_cmdq (c : Nat) (b : ArbBank) : (s.setArb c b).cmdq = s.cmdq := rfl
@[simp] theorem setArb_respq (c : Nat) (b : ArbBank) : (s.setArb c b).respq = s.respq := rfl
@[simp] theorem setArb_gf (c : Nat) (b : ArbBank) : (s.setArb c b).gf = s.gf := rfl
@[simp] theorem setArb_mem (c : Nat) (b : ArbBank) : (s.setArb c b).mem = s.mem := rfl
@[simp] theorem setArb_srcs (c : Nat) (b : ArbBank) : (s.setArb c b).srcs = s.srcs := rfl
@[simp] theorem setArb_xpts (c : Nat) (b : ArbBank) : (s.setArb c b).xpts = s.xpts := rfl
@[simp] theorem setArb_script (c : Nat) (b : ArbBank) : (s.setArb c b).script = s.script := rfl
@[simp] theorem setArb_draws (c : Nat) (b : ArbBank) : (s.setArb c b).draws = s.draws := rfl

/-! ### setSrc -/
@[simp] theorem setSrc_cfg (c : Nat) (b : Source) : (s.setSrc c b).cfg = s.cfg := rfl
@[simp] theorem setSrc_eng (c : Nat) (b : Source) : (s.setSrc c b).eng = s.eng := rfl
@[simp] theorem setSrc_filters (c : Nat) (b : Source) : (s.setSrc c b).filters = s.filters := rfl
@[simp] theorem setSrc_arbs (c : Nat) (b : Source) : (s.setSrc c b).arbs = s.arbs := rfl
@[simp] theorem setSrc_err (c : Nat) (b : Source) : (s.setSrc c b).err = s.err := rfl
@[simp] theorem setSrc_cmdq (c : Nat) (b : Source) : (s.setSrc c b).cmdq = s.cmdq := rfl
@[simp] theorem setSrc_respq (c : Nat) (b : Source) : (s.setSrc c b).respq = s.respq := rfl
@[simp] theorem setSrc_gf (c : Nat) (b : Source) : (s.setSrc c b).gf = s.gf := rfl
@[simp] theorem setSrc_mem (c : Nat) (b : Source) : (s.setSrc c b).mem = s.mem := rfl
@[simp] theorem setSrc_srcs (c : Nat) (b : Source) : (s.setSrc c b).srcs = bankSet .atReset s.srcs c b := rfl
@[simp] theorem setSrc_xpts (c : Nat) (b : Source) : (s.setSrc c b).xpts = s.xpts := rfl
@[simp] theorem setSrc_script (c : Nat) (b : Source) : (s.setSrc c b).script = s.script := rfl
@[simp] theorem setSrc_draws (c : Nat) (b : Source) : (s.setSrc c b).draws = s.draws := rfl

/-! ### setXpt -/
@[simp] theorem setXpt_cfg (t : Nat) (b : Transport) : (s.setXpt t b).cfg = s.cfg := rfl
@[simp] theorem setXpt_eng (t : Nat) (b : Transport) : (s.setXpt t b).eng = s.eng := rfl
@[simp] theorem setXpt_filters (t : Nat) (b : Transport) : (s.setXpt t b).filters = s.filters := rfl
@[simp] theorem setXpt_arbs (t : Nat) (b : Transport) : (s.setXpt t b).arbs = s.arbs := rfl
@[simp] theorem setXpt_err (t : Nat) (b : Transport) : (s.setXpt t b).err = s.err := rfl
@[simp] theorem setXpt_cmdq (t : Nat) (b : Transport) : (s.setXpt t b).cmdq = s.cmdq := rfl
@[simp] theorem setXpt_respq (t : Nat) (b : Transport) : (s.setXpt t b).respq = s.respq := rfl
@[simp] theorem setXpt_gf (t : Nat) (b : Transport) : (s.setXpt t b).gf = s.gf := rfl
@[simp] theorem setXpt_mem (t : Nat) (b : Transport) : (s.setXpt t b).mem = s.mem := rfl
@[simp] theorem setXpt_srcs (t : Nat) (b : Transport) : (s.setXpt t b).srcs = s.srcs := rfl
@[simp] theorem setXpt_xpts (t : Nat) (b : Transport) : (s.setXpt t b).xpts = bankSet .atReset s.xpts t b := rfl
@[simp] theorem setXpt_script (t : Nat) (b : Transport) : (s.setXpt t b).script = s.script := rfl
@[simp] theorem setXpt_draws (t : Nat) (b : Transport) : (s.setXpt t b).draws = s.draws := rfl

/-! ### setEng -/
@[simp] theorem setEng_cfg (e : Eng) : (s.setEng e).cfg = s.cfg := rfl
@[simp] theorem setEng_eng (e : Eng) : (s.setEng e).eng = e := rfl
@[simp] theorem setEng_filters (e : Eng) : (s.setEng e).filters = s.filters := rfl
@[simp] theorem setEng_arbs (e : Eng) : (s.setEng e).arbs = s.arbs := rfl
@[simp] theorem setEng_err (e : Eng) : (s.setEng e).err = s.err := rfl
@[simp] theorem setEng_cmdq (e : Eng) : (s.setEng e).cmdq = s.cmdq := rfl
@[simp] theorem setEng_respq (e : Eng) : (s.setEng e).respq = s.respq := rfl
@[simp] theorem setEng_gf (e : Eng) : (s.setEng e).gf = s.gf := rfl
@[simp] theorem setEng_mem (e : Eng) : (s.setEng e).mem = s.mem := rfl
@[simp] theorem setEng_srcs (e : Eng) : (s.setEng e).srcs = s.srcs := rfl
@[simp] theorem setEng_xpts (e : Eng) : (s.setEng e).xpts = s.xpts := rfl
@[simp] theorem setEng_script (e : Eng) : (s.setEng e).script = s.script := rfl
@[simp] theorem setEng_draws (e : Eng) : (s.setEng e).draws = s.draws := rfl

/-! ### noteStatus -/
@[simp] theorem noteStatus_cfg (st : Status) : (s.noteStatus st).cfg = s.cfg := rfl
@[simp] theorem noteStatus_eng (st : Status) : (s.noteStatus st).eng = s.eng := rfl
@[simp] theorem noteStatus_filters (st : Status) : (s.noteStatus st).filters = s.filters := rfl
@[simp] theorem noteStatus_arbs (st : Status) : (s.noteStatus st).arbs = s.arbs := rfl
@[simp] theorem noteStatus_err (st : Status) : (s.noteStatus st).err = errAfter st s.err := rfl
@[simp] theorem noteStatus_cmdq (st : Status) : (s.noteStatus st).cmdq = s.cmdq := rfl
@[simp] theorem noteStatus_respq (st : Status) : (s.noteStatus st).respq = s.respq := rfl
@[simp] theorem noteStatus_gf (st : Status) : (s.noteStatus st).gf = s.gf := rfl
@[simp] theorem noteStatus_mem (st : Status) : (s.noteStatus st).mem = s.mem := rfl
@[simp] theorem noteStatus_srcs (st : Status) : (s.noteStatus st).srcs = s.srcs := rfl
@[simp] theorem noteStatus_xpts (st : Status) : (s.noteStatus st).xpts = s.xpts := rfl
@[simp] theorem noteStatus_script (st : Status) : (s.noteStatus st).script = s.script := rfl
@[simp] theorem noteStatus_draws (st : Status) : (s.noteStatus st).draws = s.draws := rfl

/-! ### respond -/
@[simp] theorem respond_cfg (st : Status) (d : Word) : (s.respond st d).cfg = s.cfg := rfl
@[simp] theorem respond_eng (st : Status) (d : Word) : (s.respond st d).eng = s.eng := rfl
@[simp] theorem respond_filters (st : Status) (d : Word) : (s.respond st d).filters = s.filters := rfl
@[simp] theorem respond_arbs (st : Status) (d : Word) : (s.respond st d).arbs = s.arbs := rfl
@[simp] theorem respond_err (st : Status) (d : Word) : (s.respond st d).err = s.err := rfl
@[simp] theorem respond_cmdq (st : Status) (d : Word) : (s.respond st d).cmdq = s.cmdq := rfl
@[simp] theorem respond_respq (st : Status) (d : Word) : (s.respond st d).respq = s.respq ++ [statusWord st, d] := rfl
@[simp] theorem respond_gf (st : Status) (d : Word) : (s.respond st d).gf = s.gf := rfl
@[simp] theorem respond_mem (st : Status) (d : Word) : (s.respond st d).mem = s.mem := rfl
@[simp] theorem respond_srcs (st : Status) (d : Word) : (s.respond st d).srcs = s.srcs := rfl
@[simp] theorem respond_xpts (st : Status) (d : Word) : (s.respond st d).xpts = s.xpts := rfl
@[simp] theorem respond_script (st : Status) (d : Word) : (s.respond st d).script = s.script := rfl
@[simp] theorem respond_draws (st : Status) (d : Word) : (s.respond st d).draws = s.draws := rfl

/-! ### raise -/
@[simp] theorem raise_cfg (st : Status) : (s.raise st).cfg = s.cfg := rfl
@[simp] theorem raise_eng (st : Status) : (s.raise st).eng = s.eng := rfl
@[simp] theorem raise_filters (st : Status) : (s.raise st).filters = s.filters := rfl
@[simp] theorem raise_arbs (st : Status) : (s.raise st).arbs = s.arbs := rfl
@[simp] theorem raise_err (st : Status) : (s.raise st).err = errAfter st s.err := rfl
@[simp] theorem raise_cmdq (st : Status) : (s.raise st).cmdq = s.cmdq := rfl
@[simp] theorem raise_respq (st : Status) : (s.raise st).respq = s.respq ++ [statusWord st, 0] := rfl
@[simp] theorem raise_gf (st : Status) : (s.raise st).gf = s.gf := rfl
@[simp] theorem raise_mem (st : Status) : (s.raise st).mem = s.mem := rfl
@[simp] theorem raise_srcs (st : Status) : (s.raise st).srcs = s.srcs := rfl
@[simp] theorem raise_xpts (st : Status) : (s.raise st).xpts = s.xpts := rfl
@[simp] theorem raise_script (st : Status) : (s.raise st).script = s.script := rfl
@[simp] theorem raise_draws (st : Status) : (s.raise st).draws = s.draws := rfl

/-! ### storeBytes -/
@[simp] theorem storeBytes_cfg (a : Nat) (bs : List Byte) : (s.storeBytes a bs).cfg = s.cfg := by
  simp [State.storeBytes]
@[simp] theorem storeBytes_eng (a : Nat) (bs : List Byte) : (s.storeBytes a bs).eng = s.eng := by
  simp [State.storeBytes]
@[simp] theorem storeBytes_filters (a : Nat) (bs : List Byte) : (s.storeBytes a bs).filters = s.filters := by
  simp [State.storeBytes]
@[simp] theorem storeBytes_arbs (a : Nat) (bs : List Byte) : (s.storeBytes a bs).arbs = s.arbs := by
  simp [State.storeBytes]
@[simp] theorem storeBytes_err (a : Nat) (bs : List Byte) : (s.storeBytes a bs).err = s.err := by
  simp [State.storeBytes]
@[simp] theorem storeBytes_cmdq (a : Nat) (bs : List Byte) : (s.storeBytes a bs).cmdq = s.cmdq := by
  simp [State.storeBytes]
@[simp] theorem storeBytes_respq (a : Nat) (bs : List Byte) : (s.storeBytes a bs).respq = s.respq := by
  simp [State.storeBytes]
@[simp] theorem storeBytes_mem (a : Nat) (bs : List Byte) : (s.storeBytes a bs).mem = memWriteBytes s.mem a bs := rfl
@[simp] theorem storeBytes_srcs (a : Nat) (bs : List Byte) : (s.storeBytes a bs).srcs = s.srcs := by
  simp [State.storeBytes]
@[simp] theorem storeBytes_xpts (a : Nat) (bs : List Byte) : (s.storeBytes a bs).xpts = s.xpts := by
  simp [State.storeBytes]
@[simp] theorem storeBytes_script (a : Nat) (bs : List Byte) : (s.storeBytes a bs).script = s.script := by
  simp [State.storeBytes]
@[simp] theorem storeBytes_draws (a : Nat) (bs : List Byte) : (s.storeBytes a bs).draws = s.draws := by
  simp [State.storeBytes]

/-! ### submit -/
@[simp] theorem submit_cfg (t : Nat) (p : Addr) (n : BitVec 32) : (s.submit t p n).cfg = s.cfg := rfl
@[simp] theorem submit_eng (t : Nat) (p : Addr) (n : BitVec 32) : (s.submit t p n).eng = s.eng := rfl
@[simp] theorem submit_filters (t : Nat) (p : Addr) (n : BitVec 32) : (s.submit t p n).filters = s.filters := rfl
@[simp] theorem submit_arbs (t : Nat) (p : Addr) (n : BitVec 32) : (s.submit t p n).arbs = s.arbs := rfl
@[simp] theorem submit_err (t : Nat) (p : Addr) (n : BitVec 32) : (s.submit t p n).err = s.err := rfl
@[simp] theorem submit_cmdq (t : Nat) (p : Addr) (n : BitVec 32) : (s.submit t p n).cmdq = s.cmdq := rfl
@[simp] theorem submit_respq (t : Nat) (p : Addr) (n : BitVec 32) : (s.submit t p n).respq = s.respq := rfl
@[simp] theorem submit_gf (t : Nat) (p : Addr) (n : BitVec 32) : (s.submit t p n).gf = s.gf := rfl
@[simp] theorem submit_mem (t : Nat) (p : Addr) (n : BitVec 32) : (s.submit t p n).mem = s.mem := rfl
@[simp] theorem submit_srcs (t : Nat) (p : Addr) (n : BitVec 32) : (s.submit t p n).srcs = s.srcs := rfl
@[simp] theorem submit_script (t : Nat) (p : Addr) (n : BitVec 32) : (s.submit t p n).script = s.script := rfl
@[simp] theorem submit_draws (t : Nat) (p : Addr) (n : BitVec 32) : (s.submit t p n).draws = s.draws := rfl

/-! ### hostCmd -/
@[simp] theorem hostCmd_cfg (w : Word) : (s.hostCmd w).cfg = s.cfg := rfl
@[simp] theorem hostCmd_eng (w : Word) : (s.hostCmd w).eng = s.eng := rfl
@[simp] theorem hostCmd_filters (w : Word) : (s.hostCmd w).filters = s.filters := rfl
@[simp] theorem hostCmd_arbs (w : Word) : (s.hostCmd w).arbs = s.arbs := rfl
@[simp] theorem hostCmd_err (w : Word) : (s.hostCmd w).err = s.err := rfl
@[simp] theorem hostCmd_cmdq (w : Word) : (s.hostCmd w).cmdq = s.cmdq ++ [w] := rfl
@[simp] theorem hostCmd_respq (w : Word) : (s.hostCmd w).respq = s.respq := rfl
@[simp] theorem hostCmd_gf (w : Word) : (s.hostCmd w).gf = s.gf := rfl
@[simp] theorem hostCmd_mem (w : Word) : (s.hostCmd w).mem = s.mem := rfl
@[simp] theorem hostCmd_srcs (w : Word) : (s.hostCmd w).srcs = s.srcs := rfl
@[simp] theorem hostCmd_xpts (w : Word) : (s.hostCmd w).xpts = s.xpts := rfl
@[simp] theorem hostCmd_script (w : Word) : (s.hostCmd w).script = s.script := rfl
@[simp] theorem hostCmd_draws (w : Word) : (s.hostCmd w).draws = s.draws := rfl

/-! ### hostTake -/
@[simp] theorem hostTake_cfg : s.hostTake.cfg = s.cfg := rfl
@[simp] theorem hostTake_eng : s.hostTake.eng = s.eng := rfl
@[simp] theorem hostTake_filters : s.hostTake.filters = s.filters := rfl
@[simp] theorem hostTake_arbs : s.hostTake.arbs = s.arbs := rfl
@[simp] theorem hostTake_err : s.hostTake.err = s.err := rfl
@[simp] theorem hostTake_cmdq : s.hostTake.cmdq = s.cmdq := rfl
@[simp] theorem hostTake_respq : s.hostTake.respq = s.respq.tail := rfl
@[simp] theorem hostTake_gf : s.hostTake.gf = s.gf := rfl
@[simp] theorem hostTake_mem : s.hostTake.mem = s.mem := rfl
@[simp] theorem hostTake_srcs : s.hostTake.srcs = s.srcs := rfl
@[simp] theorem hostTake_xpts : s.hostTake.xpts = s.xpts := rfl
@[simp] theorem hostTake_script : s.hostTake.script = s.script := rfl
@[simp] theorem hostTake_draws : s.hostTake.draws = s.draws := rfl

/-! ### clearDue -/
@[simp] theorem clearDue_cfg (c : Nat) : (s.clearDue c).cfg = s.cfg := rfl
@[simp] theorem clearDue_eng (c : Nat) : (s.clearDue c).eng = s.eng := rfl
@[simp] theorem clearDue_filters (c : Nat) : (s.clearDue c).filters = s.filters := rfl
@[simp] theorem clearDue_arbs (c : Nat) : (s.clearDue c).arbs = s.arbs := rfl
@[simp] theorem clearDue_err (c : Nat) : (s.clearDue c).err = s.err := rfl
@[simp] theorem clearDue_cmdq (c : Nat) : (s.clearDue c).cmdq = s.cmdq := rfl
@[simp] theorem clearDue_respq (c : Nat) : (s.clearDue c).respq = s.respq := rfl
@[simp] theorem clearDue_gf (c : Nat) : (s.clearDue c).gf = s.gf := rfl
@[simp] theorem clearDue_mem (c : Nat) : (s.clearDue c).mem = s.mem := rfl
@[simp] theorem clearDue_xpts (c : Nat) : (s.clearDue c).xpts = s.xpts := rfl
@[simp] theorem clearDue_script (c : Nat) : (s.clearDue c).script = s.script := rfl
@[simp] theorem clearDue_draws (c : Nat) : (s.clearDue c).draws = s.draws := rfl

/-- MemWrite adds STALE_SPAN exactly when the check of R222 fires, and no other ghost. -/
theorem storeBytes_gf (a : Nat) (bs : List Byte) :
    (s.storeBytes a bs).gf = if stale s.xpts a bs.length then ghostAdd s.gf .staleSpan else s.gf := by
  simp [State.storeBytes, ghostIf_gf]

/-- A step's outcome is that of its move, in a well-formed configuration (R13, R22). -/
theorem step_eq_perform (h : cfgWf s.cfg = true) : step s = perform s.takeMove.1 s.takeMove.2 := by
  simp [step, stepMove, h]

/-- Taking a move changes nothing but the script and the draws. -/
theorem takeMove_cases :
    (∃ m rest, s.script = m :: rest ∧ s.takeMove = (m, { s with script := rest })) ∨
      (s.script = [] ∧ s.takeMove = (Config.freeMove s.draws, { s with draws := s.draws + 1 })) := by
  unfold State.takeMove
  split
  · next m rest h => exact .inl ⟨m, rest, h, rfl⟩
  · next h => exact .inr ⟨h, rfl⟩

end Sys2Proof.Machine
end

