-- ==== Sys2Proof/Laws/Bank.lean ====
section
/-! SUPPORT. Reading a bank after a write to it. -/

namespace Sys2Proof.Machine

variable {α : Type} (d : α)

@[simp] theorem bankGet_nil (c : Nat) : bankGet d [] c = d := rfl
@[simp] theorem bankGet_cons_zero (a : α) (l : List α) : bankGet d (a :: l) 0 = a := rfl
@[simp] theorem bankGet_cons_succ (a : α) (l : List α) (c : Nat) : bankGet d (a :: l) (c + 1) = bankGet d l c := by
  simp [bankGet]

@[simp] theorem bankGet_bankSet_same (l : List α) (c : Nat) (v : α) : bankGet d (bankSet d l c v) c = v := by
  induction l generalizing c with
  | nil => induction c with
    | zero => rfl
    | succ c ih => simpa [bankSet] using ih
  | cons a l ih => cases c with
    | zero => rfl
    | succ c => simpa [bankSet] using ih c

theorem bankGet_bankSet_other (l : List α) {c e : Nat} (v : α) (h : e ≠ c) :
    bankGet d (bankSet d l c v) e = bankGet d l e := by
  induction l generalizing c e with
  | nil =>
    induction c generalizing e with
    | zero => cases e with
      | zero => exact absurd rfl h
      | succ e => simp [bankSet]
    | succ c ih => cases e with
      | zero => simp [bankSet]
      | succ e => simpa [bankSet] using ih (e := e) (by omega)
  | cons a l ih =>
    cases c with
    | zero => cases e with
      | zero => exact absurd rfl h
      | succ e => simp [bankSet]
    | succ c => cases e with
      | zero => simp [bankSet]
      | succ e => simpa [bankSet] using ih (c := c) (e := e) (by omega)

theorem bankGet_bankSet (l : List α) (c e : Nat) (v : α) :
    bankGet d (bankSet d l c v) e = if e = c then v else bankGet d l e := by
  split
  · next h => subst h; simp
  · next h => exact bankGet_bankSet_other d l v h

theorem bankSet_length (l : List α) {c : Nat} (v : α) (h : c < l.length) : (bankSet d l c v).length = l.length := by
  induction l generalizing c with
  | nil => simp at h
  | cons a l ih => cases c with
    | zero => rfl
    | succ c => simpa [bankSet] using ih (by simpa using h)

/-- A set entry, or one that was there: what a written bank can hold below its length. -/
theorem mem_bankSet {l : List α} {c : Nat} {v x : α} (hc : c < l.length) (h : x ∈ bankSet d l c v) : x = v ∨ x ∈ l := by
  induction l generalizing c with
  | nil => simp at hc
  | cons a l ih => cases c with
    | zero => simp only [bankSet, List.mem_cons] at h ⊢; tauto
    | succ c =>
      simp only [bankSet, List.mem_cons] at h ⊢
      rcases h with h | h
      · exact .inr (.inl h)
      · rcases ih (by simpa using hc) h with h | h
        · exact .inl h
        · exact .inr (.inr h)

theorem bankSet_comm (l : List α) {c e : Nat} (v w : α) (h : c ≠ e) :
    bankSet d (bankSet d l c v) e w = bankSet d (bankSet d l e w) c v := by
  induction l generalizing c e with
  | nil =>
    induction c generalizing e with
    | zero => cases e with
      | zero => exact absurd rfl h
      | succ e => rfl
    | succ c ih => cases e with
      | zero => rfl
      | succ e => simpa [bankSet] using ih (e := e) (by omega)
  | cons a l ih =>
    cases c with
    | zero => cases e with
      | zero => exact absurd rfl h
      | succ e => rfl
    | succ c => cases e with
      | zero => rfl
      | succ e => simpa [bankSet] using ih (c := c) (e := e) (by omega)

theorem bankGet_replicate (n c : Nat) : bankGet d (List.replicate n d) c = d := by
  induction n generalizing c with
  | zero => rfl
  | succ n ih => cases c with
    | zero => rfl
    | succ c => simpa [List.replicate_succ] using ih c

/-- A bank's entry is in the list, or it is the reset one. -/
theorem bankGet_mem (l : List α) (c : Nat) : bankGet d l c ∈ l ∨ bankGet d l c = d := by
  induction l generalizing c with
  | nil => exact .inr rfl
  | cons a l ih => cases c with
    | zero => exact .inl (by simp)
    | succ c => rcases ih c with h | h
                · exact .inl (by simp [h])
                · exact .inr (by simpa using h)

/-! ### The banks of a state -/

variable (s : State)

@[simp] theorem filter_setFilter (c e : Nat) (b : FilterBank) :
    (s.setFilter c b).filter e = if e = c then b else s.filter e := bankGet_bankSet _ _ _ _ _
@[simp] theorem arb_setArb (c e : Nat) (b : ArbBank) :
    (s.setArb c b).arb e = if e = c then b else s.arb e := bankGet_bankSet _ _ _ _ _
@[simp] theorem src_setSrc (c e : Nat) (b : Source) :
    (s.setSrc c b).src e = if e = c then b else s.src e := bankGet_bankSet _ _ _ _ _
@[simp] theorem xpt_setXpt (t e : Nat) (b : Transport) :
    (s.setXpt t b).xpt e = if e = t then b else s.xpt e := bankGet_bankSet _ _ _ _ _

/-- Equal banks read alike: an update of another field leaves every entry. -/
theorem filter_congr {s t : State} (h : t.filters = s.filters) (c : Nat) : t.filter c = s.filter c := by
  simp [State.filter, h]
theorem arb_congr {s t : State} (h : t.arbs = s.arbs) (c : Nat) : t.arb c = s.arb c := by simp [State.arb, h]
theorem src_congr {s t : State} (h : t.srcs = s.srcs) (c : Nat) : t.src c = s.src c := by simp [State.src, h]
theorem xpt_congr {s t : State} (h : t.xpts = s.xpts) (c : Nat) : t.xpt c = s.xpt c := by simp [State.xpt, h]

/-- A submission is queued behind those of its transport, and every other transport is as before (R220). -/
theorem xpt_submit (t e : Nat) (p : Addr) (n : BitVec 32) :
    (s.submit t p n).xpt e =
      if e = t then { s.xpt t with queue := (s.xpt t).queue ++ [{ ptr := p, len := n, sent := 0 }] } else s.xpt e := by
  simp [State.submit]

end Sys2Proof.Machine
end

