-- ==== Sys2Proof/Laws/Memory.lean ====
section
/-! SUPPORT. The sample memory: read after write, and the canonical form every operation keeps. -/

namespace Sys2Proof.Machine

theorem memRead_memErase (m : Memory) (x y : Nat) :
    memRead (memErase m x) y = if y = x then unlistedByte else memRead m y := by
  induction m with
  | nil => simp [memErase, memRead]
  | cons p m ih =>
    obtain ⟨a, b⟩ := p
    by_cases h : a = x
    · subst h
      by_cases hy : y = a
      · subst hy; simpa [memErase] using ih
      · have : a ≠ y := fun e => hy e.symm
        simp [memErase, memRead, ih, hy, this]
    · by_cases hy : a = y
      · subst hy; simp [memErase, memRead, h]
      · simp [memErase, memRead, h, hy, ih]

theorem memRead_memInsert {m : Memory} {x : Nat} (v : Byte) (y : Nat) (hx : ∀ p ∈ m, p.1 ≠ x) :
    memRead (memInsert m x v) y = if y = x then v else memRead m y := by
  induction m with
  | nil =>
    by_cases hy : x = y
    · simp [memInsert, memRead, hy]
    · have : y ≠ x := fun e => hy e.symm
      simp [memInsert, memRead, hy, this]
  | cons p m ih =>
    obtain ⟨a, b⟩ := p
    have hax : a ≠ x := hx (a, b) (by simp)
    have ih := ih fun p hp => hx p (by simp [hp])
    by_cases hlt : x < a
    · by_cases hy : x = y
      · subst hy; simp [memInsert, memRead, hlt]
      · have : y ≠ x := fun e => hy e.symm
        simp [memInsert, memRead, hlt, hy, this]
    · by_cases hy : a = y
      · subst hy; simp [memInsert, memRead, hlt, hax]
      · simp [memInsert, memRead, hlt, hy, ih]

theorem memErase_ne (m : Memory) (x : Nat) : ∀ p ∈ memErase m x, p.1 ≠ x := by
  induction m with
  | nil => simp [memErase]
  | cons q m ih =>
    obtain ⟨a, b⟩ := q
    by_cases h : a = x
    · simpa [memErase, h] using ih
    · intro p hp
      simp only [memErase, h, if_false, List.mem_cons] at hp
      rcases hp with rfl | hp
      · exact h
      · exact ih p hp

/-- A byte reads as last written, and every other byte as before (R80). -/
theorem memRead_memWrite (m : Memory) (x : Nat) (v : Byte) (y : Nat) :
    memRead (memWrite m x v) y = if y = x then v else memRead m y := by
  unfold memWrite
  split
  · next h => subst h; exact memRead_memErase m x y
  · rw [memRead_memInsert v y (memErase_ne m x), memRead_memErase]
    split <;> rfl

/-- The bytes of a wide write read back, and every other byte reads as before (R72, R87). -/
theorem memRead_memWriteBytes (m : Memory) (a : Nat) (bs : List Byte) (y : Nat) :
    memRead (memWriteBytes m a bs) y =
      if a ≤ y then (bs[y - a]?).getD (memRead m y) else memRead m y := by
  induction bs generalizing m a with
  | nil => simp [memWriteBytes]
  | cons b bs ih =>
    rw [memWriteBytes, ih, memRead_memWrite]
    rcases Nat.lt_trichotomy y a with h | h | h
    · have h1 : ¬ a + 1 ≤ y := by omega
      have h2 : ¬ a ≤ y := by omega
      have h3 : y ≠ a := by omega
      simp [h1, h2, h3]
    · subst h; simp
    · have h1 : a + 1 ≤ y := by omega
      have h2 : a ≤ y := by omega
      have h3 : y ≠ a := by omega
      have h4 : y - a = (y - (a + 1)) + 1 := by omega
      simp [h1, h2, h3, h4]

theorem memRead_memWriteBytes_outside (m : Memory) {a : Nat} {bs : List Byte} {y : Nat}
    (h : y < a ∨ a + bs.length ≤ y) : memRead (memWriteBytes m a bs) y = memRead m y := by
  rw [memRead_memWriteBytes]
  split
  · rw [List.getElem?_eq_none (by omega)]; rfl
  · rfl

/-! ### A Sample in memory (R72) -/

@[simp] theorem sampleBytes_length (x : Sample) : (sampleBytes x).length = 2 := rfl

theorem sampleOfBytes_sampleBytes (x : Sample) :
    sampleOfBytes (x.extractLsb' 0 8) (x.extractLsb' 8 8) = x := by
  unfold sampleOfBytes
  ext i hi
  rw [BitVec.getElem_append]
  by_cases h : i < 8
  · simp only [h, dif_pos, BitVec.getElem_extractLsb', Nat.zero_add]
    exact BitVec.getLsbD_eq_getElem hi
  · have h8 : 8 + (i - 8) = i := by omega
    simp only [h, dif_neg, not_false_eq_true, BitVec.getElem_extractLsb', h8]
    exact BitVec.getLsbD_eq_getElem hi

/-- The Sample written at an address reads back from it. -/
theorem sampleAt_write_same (m : Memory) (a : Nat) (x : Sample) :
    sampleAt (memWriteBytes m a (sampleBytes x)) a = x := by
  have h : a + 1 - a = 1 := by omega
  simp [sampleAt, memRead_memWriteBytes, sampleBytes, h, sampleOfBytes_sampleBytes]

/-- A Sample elsewhere reads as before. -/
theorem sampleAt_write_other (m : Memory) {a b : Nat} (x : Sample) (h : b + 2 ≤ a ∨ a + 2 ≤ b) :
    sampleAt (memWriteBytes m a (sampleBytes x)) b = sampleAt m b := by
  unfold sampleAt
  rw [memRead_memWriteBytes_outside m (by simp; omega), memRead_memWriteBytes_outside m (by simp; omega)]

/-! ### The canonical form -/

/-- The canonical form, read as a fact about every entry. -/
theorem memory_wf_cons (a : Nat) (b : Byte) (m : Memory) :
    Memory.wf ((a, b) :: m) = true ↔ b ≠ unlistedByte ∧ (∀ p ∈ m, a < p.1) ∧ Memory.wf m = true := by
  induction m generalizing a b with
  | nil => simp [Memory.wf]
  | cons q m ih =>
    obtain ⟨c, e⟩ := q
    have hq := ih c e
    simp only [Memory.wf, Bool.and_eq_true, decide_eq_true_eq, List.mem_cons, forall_eq_or_imp]
    constructor
    · rintro ⟨⟨h1, h2⟩, h3⟩
      refine ⟨h1, ⟨h2, fun p hp => ?_⟩, h3⟩
      have := (hq.1 h3).2.1 p hp
      omega
    · rintro ⟨h1, ⟨h2, _⟩, h3⟩
      exact ⟨⟨h1, h2⟩, h3⟩

theorem memErase_subset (m : Memory) (x : Nat) : ∀ p ∈ memErase m x, p ∈ m := by
  induction m with
  | nil => simp [memErase]
  | cons q m ih =>
    obtain ⟨a, b⟩ := q
    intro p hp
    by_cases h : a = x
    · simp only [memErase, h, if_true] at hp
      exact List.mem_cons_of_mem _ (ih p hp)
    · simp only [memErase, h, if_false, List.mem_cons] at hp ⊢
      rcases hp with rfl | hp
      · exact .inl rfl
      · exact .inr (ih p hp)

theorem memErase_wf {m : Memory} (x : Nat) (h : Memory.wf m = true) : Memory.wf (memErase m x) = true := by
  induction m with
  | nil => rfl
  | cons q m ih =>
    obtain ⟨a, b⟩ := q
    obtain ⟨h1, h2, h3⟩ := (memory_wf_cons a b m).1 h
    by_cases hx : a = x
    · simpa [memErase, hx] using ih h3
    · simp only [memErase, hx, if_false]
      exact (memory_wf_cons _ _ _).2 ⟨h1, fun p hp => h2 p (memErase_subset m x p hp), ih h3⟩

theorem mem_memInsert {m : Memory} {x : Nat} {v : Byte} {p : Host.Cell} (h : p ∈ memInsert m x v) :
    p = (x, v) ∨ p ∈ m := by
  induction m with
  | nil => simpa [memInsert] using h
  | cons q m ih =>
    obtain ⟨a, b⟩ := q
    by_cases hlt : x < a
    · simpa [memInsert, hlt] using h
    · simp only [memInsert, hlt, if_false, List.mem_cons] at h ⊢
      rcases h with rfl | h
      · exact .inr (.inl rfl)
      · rcases ih h with h | h
        · exact .inl h
        · exact .inr (.inr h)

theorem memInsert_wf {m : Memory} {x : Nat} {v : Byte} (h : Memory.wf m = true) (hx : ∀ p ∈ m, p.1 ≠ x)
    (hv : v ≠ unlistedByte) : Memory.wf (memInsert m x v) = true := by
  induction m with
  | nil => simp [memInsert, Memory.wf, hv]
  | cons q m ih =>
    obtain ⟨a, b⟩ := q
    obtain ⟨h1, h2, h3⟩ := (memory_wf_cons a b m).1 h
    by_cases hlt : x < a
    · simp only [memInsert, hlt, if_true]
      refine (memory_wf_cons _ _ _).2 ⟨hv, fun p hp => ?_, h⟩
      rcases List.mem_cons.1 hp with rfl | hp
      · exact hlt
      · exact Nat.lt_trans hlt (h2 p hp)
    · simp only [memInsert, hlt, if_false]
      have hax : a ≠ x := hx (a, b) (by simp)
      refine (memory_wf_cons _ _ _).2 ⟨h1, fun p hp => ?_, ih h3 fun p hp => hx p (by simp [hp])⟩
      rcases mem_memInsert hp with rfl | hp
      · show a < x
        omega
      · exact h2 p hp

/-- Every write keeps the canonical form. -/
theorem memWrite_wf {m : Memory} (x : Nat) (v : Byte) (h : Memory.wf m = true) : Memory.wf (memWrite m x v) = true := by
  unfold memWrite
  split
  · exact memErase_wf x h
  · next hv => exact memInsert_wf (memErase_wf x h) (memErase_ne m x) hv

theorem memWriteBytes_wf {m : Memory} (a : Nat) (bs : List Byte) (h : Memory.wf m = true) :
    Memory.wf (memWriteBytes m a bs) = true := by
  induction bs generalizing m a with
  | nil => exact h
  | cons b bs ih => exact ih (a + 1) (memWrite_wf a b h)

/-- A written memory lists an address it listed before or one of the written ones. -/
theorem mem_memWrite {m : Memory} {x : Nat} {v : Byte} {p : Host.Cell} (h : p ∈ memWrite m x v) : p.1 = x ∨ p ∈ m := by
  unfold memWrite at h
  split at h
  · exact .inr (memErase_subset m x p h)
  · rcases mem_memInsert h with rfl | h
    · exact .inl rfl
    · exact .inr (memErase_subset m x p h)

theorem mem_memWriteBytes {m : Memory} {a : Nat} {bs : List Byte} {p : Host.Cell} (h : p ∈ memWriteBytes m a bs) :
    (a ≤ p.1 ∧ p.1 < a + bs.length) ∨ p ∈ m := by
  induction bs generalizing m a with
  | nil => exact .inr h
  | cons b bs ih =>
    rcases ih h with h | h
    · left; simp only [List.length_cons]; omega
    · rcases mem_memWrite h with h | h
      · left; simp only [List.length_cons]; omega
      · exact .inr h

/-- Every write inside memory keeps what `Inv` asks of it. -/
theorem memWriteBytes_memOk {cfg : Config} {m : Memory} {a : Nat} {bs : List Byte} (h : memOk cfg m = true)
    (hin : a + bs.length ≤ cfg.memBytes) : memOk cfg (memWriteBytes m a bs) = true := by
  simp only [memOk, Bool.and_eq_true, List.all_eq_true, decide_eq_true_eq] at h ⊢
  refine ⟨memWriteBytes_wf a bs h.1, fun p hp => ?_⟩
  rcases mem_memWriteBytes hp with h' | h'
  · omega
  · exact h.2 p h'

/-- The memory of `State.reset` is canonical. -/
theorem reset_memory_wf : Memory.wf State.reset.mem = true := rfl

end Sys2Proof.Machine
end

