-- ==== Sys2Proof/Laws/Float.lean ====
section
/-! SUPPORT. The binary32 primitives: what rounding can do to a bound, what the comparisons and truncation say of finite
values. -/

namespace Sys2Proof.Machine

/-! ### Rounding -/

/-- Rounding to an integer does not cross an integer bound from below. -/
theorem roundEven_le {m q k : Nat} (h : m ≤ k * 2 ^ q) : roundEven m q ≤ k := by
  have hp : 0 < 2 ^ q := Nat.two_pow_pos q
  have hd := Nat.div_add_mod m (2 ^ q)
  rw [Nat.mul_comm] at hd
  by_cases hlt : m / 2 ^ q + 1 ≤ k
  · have : m / 2 ^ q % 2 ≤ 1 := by omega
    unfold roundEven
    split <;> [omega; (split <;> omega)]
  · have hk : m / 2 ^ q ≤ k := Nat.div_le_of_le_mul (by rwa [Nat.mul_comm])
    have hk' : m / 2 ^ q = k := by omega
    have hr : m % 2 ^ q = 0 := by
      rw [hk'] at hd
      omega
    unfold roundEven
    rw [if_pos (by rw [hr]; omega)]
    omega

/-- Rounding to an integer does not cross an integer bound from above. -/
theorem le_roundEven {m q k : Nat} (h : k * 2 ^ q ≤ m) : k ≤ roundEven m q := by
  have hk : k ≤ m / 2 ^ q := (Nat.le_div_iff_mul_le (Nat.two_pow_pos q)).2 h
  unfold roundEven
  split <;> [omega; (split <;> omega)]

/-- A magnitude with no bits to drop is kept as it is. -/
theorem roundEven_exact (k q : Nat) : roundEven (k * 2 ^ q) q = k :=
  Nat.le_antisymm (roundEven_le (Nat.le_refl _)) (le_roundEven (Nat.le_refl _))

theorem dropBits_le {m u e : Nat} (h : m ≤ 2 ^ (u + e)) : dropBits m u ≤ u + e := by
  unfold dropBits
  refine Nat.max_le.2 ⟨by omega, ?_⟩
  rcases Nat.eq_zero_or_pos m with h0 | h0
  · simp [h0]
  · have : m.log2 ≤ u + e := by
      have h1 : 2 ^ m.log2 ≤ 2 ^ (u + e) := Nat.le_trans (Nat.log2_self_le (by omega)) h
      exact (Nat.pow_le_pow_iff_right (by omega)).1 h1
    omega

theorem le_dropBits (m u : Nat) : u ≤ dropBits m u := Nat.le_max_left _ _

/-- A power-of-two bound on the exact value bounds the rounded one, which is then finite (R133). -/
theorem round_le_pow {neg : Bool} {m u e : Nat} (h : m ≤ 2 ^ (u + e)) (he : e < 277) :
    ∃ v, F32.round neg m u = .fin neg v ∧ v ≤ 2 ^ e := by
  have hd := dropBits_le h
  have hu := le_dropBits m u
  have h1 : roundEven m (dropBits m u) ≤ 2 ^ (u + e - dropBits m u) := by
    apply roundEven_le
    rw [← Nat.pow_add, Nat.sub_add_cancel hd]
    exact h
  have h2 : roundEven m (dropBits m u) * 2 ^ (dropBits m u - u) ≤ 2 ^ e := by
    calc _ ≤ 2 ^ (u + e - dropBits m u) * 2 ^ (dropBits m u - u) := Nat.mul_le_mul_right _ h1
      _ = 2 ^ e := by rw [← Nat.pow_add]; congr 1; omega
  have h3 : (2 : Nat) ^ e < 2 ^ 277 := (Nat.pow_lt_pow_iff_right (by decide)).2 he
  exact ⟨_, by rw [F32.round, if_pos (Nat.lt_of_le_of_lt h2 h3)], h2⟩

/-- Every rounding answers a finite value or an infinity of the sign it was given. -/
theorem round_cases (neg : Bool) (m u : Nat) :
    (∃ v, F32.round neg m u = .fin neg v) ∨ F32.round neg m u = .inf neg := by
  unfold F32.round
  split
  · exact .inl ⟨_, rfl⟩
  · exact .inr rfl

/-! ### Comparison and truncation of finite values -/

@[simp] theorem lt_fin (n k : Bool) (a b : Nat) :
    (F32.fin n a).lt (.fin k b) = decide (signed n a < signed k b) := rfl

@[simp] theorem gt_fin (n k : Bool) (a b : Nat) :
    (F32.fin n a).gt (.fin k b) = decide (signed k b < signed n a) := rfl

/-- The integer of `f32(i)`, in units of 2^-149 (R21). -/
theorem signed_ofInt (i : Int) : signed (decide (i < 0)) (i.natAbs * 2 ^ 149) = i * 2 ^ 149 := by
  unfold signed
  by_cases h : i < 0
  · simp only [h, decide_true, if_true]
    push_cast
    rw [abs_of_neg h]; ring
  · simp only [h, decide_false, Bool.false_eq_true, if_false]
    push_cast
    rw [abs_of_nonneg (by omega)]

/-- Truncation toward zero of a finite value is the integer part of its exact value (R21, R135). -/
theorem truncz_fin (n : Bool) (a : Nat) : (F32.fin n a).truncz = some (Int.tdiv (signed n a) (2 ^ 149)) := by
  unfold F32.truncz signed
  cases n
  · simp
  · simp [Int.neg_tdiv]

theorem truncz_ofInt (i : Int) : (F32.ofInt i).truncz = some i := by
  rw [F32.ofInt, truncz_fin, signed_ofInt, Int.mul_tdiv_cancel _ (by norm_num)]

/-- Truncation keeps an integer lower bound. -/
theorem le_tdiv_of_mul_le {a : Int} {k : Int} (h : k * 2 ^ 149 ≤ a) : k ≤ Int.tdiv a (2 ^ 149) := by
  rcases le_or_gt 0 a with ha | ha
  · rw [Int.tdiv_eq_ediv_of_nonneg ha]
    exact (Int.le_ediv_iff_mul_le (by norm_num)).2 h
  · rcases le_or_gt k 0 with hk | hk
    · obtain ⟨b, rfl⟩ : ∃ b, a = -b := ⟨-a, by ring⟩
      obtain ⟨j, rfl⟩ : ∃ j, k = -j := ⟨-k, by ring⟩
      rw [Int.neg_tdiv, Int.tdiv_eq_ediv_of_nonneg (by omega)]
      have hb : b ≤ j * 2 ^ 149 := by linarith
      have : b / 2 ^ 149 ≤ j := by
        have := Int.ediv_le_ediv (c := 2 ^ 149) (by norm_num) hb
        rwa [Int.mul_ediv_cancel _ (by norm_num)] at this
      linarith
    · exfalso
      have : 0 < k * 2 ^ 149 := by positivity
      linarith

/-- Truncation keeps an integer upper bound. -/
theorem tdiv_le_of_le_mul {a : Int} {k : Int} (h : a ≤ k * 2 ^ 149) : Int.tdiv a (2 ^ 149) ≤ k := by
  have := le_tdiv_of_mul_le (a := -a) (k := -k) (by linarith)
  rw [Int.neg_tdiv] at this
  linarith

/-! ### Samples as integers -/

theorem s16_bounds (x : Sample) : -32768 ≤ s16 x ∧ s16 x ≤ 32767 := by
  have h1 := BitVec.toInt_lt (x := x)
  have h2 := BitVec.le_toInt (x := x)
  unfold s16
  norm_num at h1 h2
  omega

theorem s16_bits16 {i : Int} (h1 : -32768 ≤ i) (h2 : i ≤ 32767) : s16 (bits16 i) = i := by
  unfold s16 bits16
  rw [BitVec.toInt_ofInt]
  rw [Int.bmod_eq_of_le] <;> norm_num <;> omega

/-- A Sample's magnitude is at most 2^15, in units of 2^-149 at most 2^164 (R131). -/
theorem natAbs_s16_le (x : Sample) : (s16 x).natAbs * 2 ^ 149 ≤ 2 ^ 164 := by
  have h := s16_bounds x
  have : (s16 x).natAbs ≤ 2 ^ 15 := by omega
  calc (s16 x).natAbs * 2 ^ 149 ≤ 2 ^ 15 * 2 ^ 149 := Nat.mul_le_mul_right _ this
    _ = 2 ^ 164 := by rw [← Nat.pow_add]

/-- What WF4 says of a coefficient: a positive finite value of at most 1. -/
theorem alphaOk_fin {w : Word} (h : alphaOk w = true) :
    ∃ mag, F32.ofBits w = .fin false mag ∧ 0 < mag ∧ mag ≤ 2 ^ 149 := by
  unfold alphaOk at h
  split at h
  · simp at h
  · simp at h
  · next neg mag heq =>
    have h0 := signed_ofInt 0
    have h1 := signed_ofInt 1
    simp only [F32.ofInt, gt_fin, h0, h1, Bool.and_eq_true, decide_eq_true_eq, Bool.not_eq_true', decide_eq_false_iff_not,
      not_lt] at h
    cases neg
    · refine ⟨mag, heq, ?_, ?_⟩
      · have := h.1; simp only [signed, Bool.false_eq_true, if_false] at this; omega
      · have := h.2; simp only [signed, Bool.false_eq_true, if_false, one_mul] at this; exact_mod_cast this
    · have := h.1
      simp only [signed, if_true] at this
      omega

/-- The value of a pattern, by its fields as numbers (R15, R21). -/
theorem ofBits_fields (w : Word) :
    F32.ofBits w =
      if w.toNat / 2 ^ 23 % 256 = 255 then
        (if w.toNat % 2 ^ 23 = 0 then .inf (decide (2 ^ 31 ≤ w.toNat)) else .nan)
      else if w.toNat / 2 ^ 23 % 256 = 0 then .fin (decide (2 ^ 31 ≤ w.toNat)) (w.toNat % 2 ^ 23)
      else .fin (decide (2 ^ 31 ≤ w.toNat)) ((2 ^ 23 + w.toNat % 2 ^ 23) * 2 ^ (w.toNat / 2 ^ 23 % 256 - 1)) := by
  have h1 : (w.extractLsb' 31 1 == 1#1) = decide (2 ^ 31 ≤ w.toNat) := by
    have := w.isLt
    rw [Bool.eq_iff_iff]
    simp only [beq_iff_eq, decide_eq_true_eq, ← BitVec.toNat_inj, BitVec.extractLsb'_toNat, Nat.shiftRight_eq_div_pow]
    simp
    omega
  unfold F32.ofBits
  simp only [h1, BitVec.extractLsb'_toNat, Nat.shiftRight_eq_div_pow]
  norm_num

theorem gt_zero_not_gt_one {neg : Bool} {mag : Nat} :
    (((F32.fin neg mag).gt (.ofInt 0) && !(F32.fin neg mag).gt (.ofInt 1)) = true) ↔
      neg = false ∧ 0 < mag ∧ mag ≤ 2 ^ 149 := by
  simp only [F32.ofInt, gt_fin, signed_ofInt 0, signed_ofInt 1, Bool.and_eq_true, decide_eq_true_eq,
    Bool.not_eq_true', decide_eq_false_iff_not, not_lt, zero_mul, one_mul]
  cases neg
  · simp only [signed, Bool.false_eq_true, if_false, true_and]
    exact and_congr (by omega) (by norm_cast)
  · simp only [signed, if_true, Bool.true_eq_false, false_and, iff_false]
    omega

/-- A normal magnitude is at most 1 when its exponent is below that of 1, or is that of 1 with no fraction. -/
theorem normal_le_one {e f : Nat} (he : 1 ≤ e) (hf : f < 2 ^ 23) :
    (2 ^ 23 + f) * 2 ^ (e - 1) ≤ 2 ^ 149 ↔ e ≤ 126 ∨ (e = 127 ∧ f = 0) := by
  constructor
  · intro h
    by_contra hc
    have h1 : 2 ^ 23 * 2 ^ 126 < (2 ^ 23 + f) * 2 ^ (e - 1) := by
      rcases Nat.lt_or_ge 127 e with h2 | h2
      · calc (2 : Nat) ^ 23 * 2 ^ 126 < 2 ^ 23 * 2 ^ (e - 1) :=
              Nat.mul_lt_mul_of_pos_left (Nat.pow_lt_pow_right (by omega) (by omega)) (by omega)
          _ ≤ _ := Nat.mul_le_mul_right _ (by omega)
      · obtain rfl : e = 127 := by omega
        exact Nat.mul_lt_mul_of_pos_right (by omega) (by positivity)
    rw [← Nat.pow_add] at h1
    omega
  · rintro (h | ⟨rfl, rfl⟩)
    · calc (2 ^ 23 + f) * 2 ^ (e - 1) ≤ 2 ^ 24 * 2 ^ 125 :=
            Nat.mul_le_mul (by omega) (Nat.pow_le_pow_right (by omega) (by omega))
        _ = 2 ^ 149 := by rw [← Nat.pow_add]
    · rw [Nat.add_zero, ← Nat.pow_add]

/-- The patterns WF4 admits are those from the smallest subnormal to 1.0. -/
theorem alphaOk_iff {w : Word} : alphaOk w = true ↔ 0 < w.toNat ∧ w.toNat ≤ 0x3F800000 := by
  have hw := w.isLt
  have hf : w.toNat % 2 ^ 23 < 2 ^ 23 := Nat.mod_lt _ (by omega)
  unfold alphaOk
  rw [ofBits_fields]
  split
  · next h =>
    split at h
    · split at h <;> simp_all; omega
    · split at h <;> simp at h
  · next h =>
    split at h
    · split at h <;> simp_all; omega
    · split at h <;> simp at h
  · next neg mag h =>
    rw [gt_zero_not_gt_one]
    split at h
    · split at h <;> cases h
    · split at h
      · cases h
        have : (2 : Nat) ^ 23 ≤ 2 ^ 149 := Nat.pow_le_pow_right (by omega) (by omega)
        simp only [decide_eq_false_iff_not]
        omega
      · cases h
        have hp : 0 < (2 ^ 23 + w.toNat % 2 ^ 23) * 2 ^ (w.toNat / 2 ^ 23 % 256 - 1) := by positivity
        rw [normal_le_one (by omega) hf]
        simp only [decide_eq_false_iff_not]
        omega

end Sys2Proof.Machine
end

