-- ==== Sys2Proof/Laws/Assembler.lean ====
section
/-! SUPPORT. When an operand of the assembler has a field, and which (R115, R116). -/

namespace Sys2Proof.Machine

theorem asmUnsigned_eq_none {w : Nat} {hi : Int} {n : AsmNum} :
    asmUnsigned w hi n = none ↔ asmInt n < 0 ∨ hi < asmInt n := by
  unfold asmUnsigned
  split <;> simp <;> omega

theorem asmUnsigned_eq_some {w : Nat} {hi : Int} {n : AsmNum} {b : BitVec w} (h : (b.toNat : Int) = asmInt n)
    (hb : (b.toNat : Int) ≤ hi) : asmUnsigned w hi n = some b := by
  unfold asmUnsigned
  rw [if_pos (by omega), ← h]
  simp

theorem asmSample_dec_eq_none {i : Int} : asmSample (.dec i) = none ↔ i < -32768 ∨ 32767 < i := by
  simp only [asmSample]
  split <;> simp <;> omega

theorem asmSample_hex_eq_none {n : Nat} : asmSample (.hex n) = none ↔ 0xFFFF < n := by
  simp only [asmSample]
  split <;> simp <;> omega

theorem asmSample_dec (v : Sample) : asmSample (.dec (s16 v)) = some v := by
  have := s16_bounds v
  simp only [asmSample]
  rw [if_pos (by omega)]
  simp [s16]

theorem asmSample_hex (v : Sample) : asmSample (.hex v.toNat) = some v := by
  have := v.isLt
  simp only [asmSample]
  rw [if_pos (by omega)]
  simp

end Sys2Proof.Machine
end

