-- ==== Sys2Proof/Laws/Filter.lean ====
section
/-! SUPPORT. What the filter operations can do, said once: FS on a bank, one element of a block, a whole block. -/

namespace Sys2Proof.Machine

/-! ### FS on a bank (R130, R137) -/

/-- A bank's FS answers exactly when its four registers hold values and the filter value exists. -/
theorem fs_eq_some_iff {b : FilterBank} {x y : Sample} :
    b.fs x = some y ↔ ∃ a p lo hi, b.alpha = some a ∧ b.prevOut = some p ∧ b.minClamp = some lo ∧ b.maxClamp = some hi ∧
      filterValue a p lo hi x = some y := by
  unfold FilterBank.fs
  split
  · next a p lo hi h1 h2 h3 h4 => simp [h1, h2, h3, h4]
  · next h =>
    constructor
    · intro h'; cases h'
    · rintro ⟨a, p, lo, hi, h1, h2, h3, h4, -⟩
      exact absurd h4 (h a p lo hi h1 h2 h3)

/-- FS writes PREV_OUT of its channel with the value it answers, and nothing else. -/
theorem filterSample_ok_iff {s t : State} {c : Nat} {x y : Sample} :
    s.filterSample c x = .ok (y, t) ↔
      (s.filter c).fs x = some y ∧ t = s.setFilter c { s.filter c with prevOut := some y } := by
  unfold State.filterSample
  split
  · next v h =>
    rw [h]
    constructor
    · intro h'
      cases h'
      exact ⟨rfl, rfl⟩
    · rintro ⟨h1, h2⟩
      cases h1
      rw [h2]
  · next h => simp [h]

/-! ### Loads and stores (R19) -/

theorem load16_ok_iff {s : State} {a : Nat} {x : Sample} :
    s.load16 a = .ok x ↔ a + 2 ≤ s.cfg.memBytes ∧ x = sampleAt s.mem a := by
  unfold State.load16
  split
  · next h => simp only [Except.ok.injEq, h, true_and]; exact eq_comm
  · next h => simp [h]

theorem store16_ok_iff {s t : State} {a : Nat} {x : Sample} :
    s.store16 a x = .ok t ↔ a + 2 ≤ s.cfg.memBytes ∧ t = s.storeBytes a (sampleBytes x) := by
  unfold State.store16
  split
  · next h => simp only [Except.ok.injEq, h, true_and]; exact eq_comm
  · next h => simp [h]

/-! ### One element (R142, R182) -/

/-- The state after one element of a block: the value written to PREV_OUT and at `dst`. -/
def afterMove (s : State) (c dst : Nat) (y : Sample) : State :=
  (s.setFilter c { s.filter c with prevOut := some y }).storeBytes dst (sampleBytes y)

/-- One element answers exactly when both accesses are in memory and FS answers. -/
theorem filterMove_ok_iff {s t : State} {c src dst : Nat} :
    s.filterMove c src dst = .ok t ↔
      src + 2 ≤ s.cfg.memBytes ∧ dst + 2 ≤ s.cfg.memBytes ∧
        ∃ y, (s.filter c).fs (sampleAt s.mem src) = some y ∧ t = afterMove s c dst y := by
  unfold State.filterMove
  cases hx : s.load16 src with
  | error f =>
    have : ¬ src + 2 ≤ s.cfg.memBytes := fun h => by
      rw [(load16_ok_iff (x := sampleAt s.mem src)).2 ⟨h, rfl⟩] at hx; cases hx
    simp [this]
  | ok x =>
    obtain ⟨h1, rfl⟩ := load16_ok_iff.1 hx
    cases hy : s.filterSample c (sampleAt s.mem src) with
    | error f =>
      have : ∀ y, (s.filter c).fs (sampleAt s.mem src) ≠ some y := fun y h => by
        rw [filterSample_ok_iff.2 ⟨h, rfl⟩] at hy; cases hy
      simp [hy, this]
    | ok p =>
      obtain ⟨y, s'⟩ := p
      obtain ⟨h2, rfl⟩ := filterSample_ok_iff.1 hy
      simp only [hy, store16_ok_iff, setFilter_cfg, h1, h2, true_and, Option.some.injEq, exists_eq_left', afterMove]

/-- What one element leaves unchanged, whatever its outcome's value. -/
structure SameBesidesBlock (s t : State) (c : Nat) : Prop where
  cfg : t.cfg = s.cfg
  eng : t.eng = s.eng
  arbs : t.arbs = s.arbs
  err : t.err = s.err
  cmdq : t.cmdq = s.cmdq
  respq : t.respq = s.respq
  srcs : t.srcs = s.srcs
  xpts : t.xpts = s.xpts
  script : t.script = s.script
  draws : t.draws = s.draws
  filters : ∀ d, d ≠ c → t.filter d = s.filter d
  overrun : t.gf.overrun = s.gf.overrun
  seq : t.gf.seq = s.gf.seq
  evrsv : t.gf.evrsv = s.gf.evrsv
  stale : s.gf.staleSpan = true → t.gf.staleSpan = true
  alpha : (t.filter c).alpha = (s.filter c).alpha
  minClamp : (t.filter c).minClamp = (s.filter c).minClamp
  maxClamp : (t.filter c).maxClamp = (s.filter c).maxClamp
  initDone : (t.filter c).initDone = (s.filter c).initDone

theorem SameBesidesBlock.refl (s : State) (c : Nat) : SameBesidesBlock s s c := by
  constructor <;> simp

theorem SameBesidesBlock.trans {s t u : State} {c : Nat} (h : SameBesidesBlock s t c) (k : SameBesidesBlock t u c) :
    SameBesidesBlock s u c where
  cfg := k.cfg.trans h.cfg
  eng := k.eng.trans h.eng
  arbs := k.arbs.trans h.arbs
  err := k.err.trans h.err
  cmdq := k.cmdq.trans h.cmdq
  respq := k.respq.trans h.respq
  srcs := k.srcs.trans h.srcs
  xpts := k.xpts.trans h.xpts
  script := k.script.trans h.script
  draws := k.draws.trans h.draws
  filters d hd := (k.filters d hd).trans (h.filters d hd)
  overrun := k.overrun.trans h.overrun
  seq := k.seq.trans h.seq
  evrsv := k.evrsv.trans h.evrsv
  stale hs := k.stale (h.stale hs)
  alpha := k.alpha.trans h.alpha
  minClamp := k.minClamp.trans h.minClamp
  maxClamp := k.maxClamp.trans h.maxClamp
  initDone := k.initDone.trans h.initDone

/-- The bank of the block's channel after one element: only PREV_OUT is new. -/
theorem afterMove_filter (s : State) (c dst d : Nat) (y : Sample) :
    (afterMove s c dst y).filter d = if d = c then { s.filter c with prevOut := some y } else s.filter d := by
  have : (afterMove s c dst y).filter d = (s.setFilter c { s.filter c with prevOut := some y }).filter d :=
    filter_congr (by simp [afterMove]) d
  rw [this, filter_setFilter]

@[simp] theorem afterMove_mem (s : State) (c dst : Nat) (y : Sample) :
    (afterMove s c dst y).mem = memWriteBytes s.mem dst (sampleBytes y) := by
  simp [afterMove]

@[simp] theorem afterMove_filters (s : State) (c dst : Nat) (y : Sample) :
    (afterMove s c dst y).filters = bankSet .atReset s.filters c { s.filter c with prevOut := some y } := by
  simp [afterMove]

/-- MemWrite's check adds STALE_SPAN exactly when the written bytes meet an unsent part (R222). -/
theorem afterMove_gf (s : State) (c dst : Nat) (y : Sample) :
    (afterMove s c dst y).gf = if stale s.xpts dst 2 then ghostAdd s.gf .staleSpan else s.gf := by
  rw [afterMove, storeBytes_gf]; rfl

theorem afterMove_same (s : State) (c dst : Nat) (y : Sample) : SameBesidesBlock s (afterMove s c dst y) c := by
  constructor
  case filters => intro d hd; simp [afterMove_filter, hd]
  case stale => rw [afterMove_gf]; intro h; split <;> simp [ghostAdd, h]
  case overrun => rw [afterMove_gf]; split <;> rfl
  case seq => rw [afterMove_gf]; split <;> rfl
  case evrsv => rw [afterMove_gf]; split <;> rfl
  all_goals simp [afterMove, State.filter]

/-! ### A block (R142) -/

/-- Induction over a block: what holds at its start and every element keeps holds at its end. -/
theorem filterLoop_induct {c : Nat} {P : State → Prop} {n src dst : Nat} {s t : State}
    (hstep : ∀ k u v, k < n → P u → u.filterMove c (src + 2 * k) (dst + 2 * k) = .ok v → P v)
    (h0 : P s) (h : filterLoop c n src dst s = .ok t) : P t := by
  induction n generalizing src dst s with
  | zero => cases h; exact h0
  | succ n ih =>
    unfold filterLoop at h
    split at h
    · cases h
    · next s' hm =>
      refine ih (src := src + 2) (dst := dst + 2) (fun k u v hk hu hv => ?_) ?_ h
      · refine hstep (k + 1) u v (by omega) hu ?_
        rwa [show src + 2 * (k + 1) = src + 2 + 2 * k by omega, show dst + 2 * (k + 1) = dst + 2 + 2 * k by omega]
      · exact hstep 0 s s' (by omega) h0 (by simpa using hm)

/-- A block leaves all but its channel's PREV_OUT, memory and STALE_SPAN unchanged. -/
theorem filterLoop_same {c n src dst : Nat} {s t : State} (h : filterLoop c n src dst s = .ok t) :
    SameBesidesBlock s t c := by
  refine filterLoop_induct (P := fun u => SameBesidesBlock s u c) (fun k u v _ hu hv => ?_) (.refl s c) h
  obtain ⟨-, -, y, -, rfl⟩ := filterMove_ok_iff.1 hv
  exact hu.trans (afterMove_same u c _ y)

/-- A block writes only the bytes of its destination span. -/
theorem filterLoop_mem_outside {c n src dst : Nat} {s t : State} (h : filterLoop c n src dst s = .ok t) {x : Nat}
    (hx : x < dst ∨ dst + 2 * n ≤ x) : memRead t.mem x = memRead s.mem x := by
  refine filterLoop_induct (P := fun u => memRead u.mem x = memRead s.mem x) (fun k u v hk hu hv => ?_) rfl h
  obtain ⟨-, -, y, -, rfl⟩ := filterMove_ok_iff.1 hv
  rw [afterMove_mem, memRead_memWriteBytes_outside _ (by simp; omega), hu]

/-- Banks keep their number of entries. -/
theorem filterLoop_length {c n src dst : Nat} {s t : State} (h : filterLoop c n src dst s = .ok t)
    (hc : c < s.filters.length) : t.filters.length = s.filters.length := by
  refine filterLoop_induct (P := fun u => u.filters.length = s.filters.length) (fun k u v _ hu hv => ?_) rfl h
  obtain ⟨-, -, y, -, rfl⟩ := filterMove_ok_iff.1 hv
  rw [afterMove_filters, bankSet_length _ _ _ (by omega), hu]

end Sys2Proof.Machine
end

