-- ==== Sys2Proof/Laws/Steps.lean ====
section
/-! SUPPORT. What each instruction and each agent's step can do: one inversion lemma per operation ("if it answers a next
state, then one of these cases holds"). -/

namespace Sys2Proof.Machine

/-! ### Commands (R140 to R143) -/

/-- INIT loads the configuration into a bank, or answers NOCHAN or REINIT (R140). -/
theorem execInit_cases (ch : ChanId) (s : State) :
    (chanCfg s.cfg (chanNum ch) = none ∧ execInit ch s = .next (s.raise .nochan)) ∨
    (∃ cc, chanCfg s.cfg (chanNum ch) = some cc ∧ (s.filter (chanNum ch)).initDone = true ∧
      execInit ch s = .next (s.raise .reinit)) ∨
    (∃ cc, chanCfg s.cfg (chanNum ch) = some cc ∧ (s.filter (chanNum ch)).initDone = false ∧
      execInit ch s = .next ((s.setFilter (chanNum ch)
        { prevOut := some 0, alpha := some cc.alphaCfg, minClamp := some cc.minCfg, maxClamp := some cc.maxCfg,
          initDone := true }).respond .ok 0)) := by
  unfold execInit
  split
  · next h => exact .inl ⟨h, rfl⟩
  · next cc h =>
    split
    · next hi => exact .inr (.inl ⟨cc, h, hi, rfl⟩)
    · next hi => exact .inr (.inr ⟨cc, h, by simpa using hi, rfl⟩)

/-- FSAMPLE applies FS once and answers its value, or answers NOCHAN or UNINIT (R141). -/
theorem execFsample_cases {ch : ChanId} {x : Sample} {s t : State} (h : execFsample ch x s = .next t) :
    (chanCfg s.cfg (chanNum ch) = none ∧ t = s.raise .nochan) ∨
    (∃ cc, chanCfg s.cfg (chanNum ch) = some cc ∧ (s.filter (chanNum ch)).initDone = false ∧ t = s.raise .uninit) ∨
    (∃ cc y, chanCfg s.cfg (chanNum ch) = some cc ∧ (s.filter (chanNum ch)).initDone = true ∧
      (s.filter (chanNum ch)).fs x = some y ∧
      t = (s.setFilter (chanNum ch) { s.filter (chanNum ch) with prevOut := some y }).respond .ok (sext32 y)) := by
  unfold execFsample at h
  split at h
  · next hc => cases h; exact .inl ⟨hc, rfl⟩
  · next cc hc =>
    split at h
    · next hi =>
      split at h
      · cases h
      · next y s' hf =>
        cases h
        obtain ⟨h1, rfl⟩ := filterSample_ok_iff.1 hf
        exact .inr (.inr ⟨cc, y, hc, hi, h1, rfl⟩)
    · next hi => cases h; exact .inr (.inl ⟨cc, hc, by simpa using hi, rfl⟩)

/-- FBLOCK's checks all pass exactly when the bank is initialised and both spans are aligned, in memory and in host memory
(R142). -/
theorem fblockStatus_ok_iff {cfg : Config} {f : FilterBank} {size src dst : Nat} :
    fblockStatus cfg f size src dst = .ok ↔
      f.initDone = true ∧ src % 2 = 0 ∧ dst % 2 = 0 ∧ src + 2 * size ≤ cfg.memBytes ∧ dst + 2 * size ≤ cfg.memBytes ∧
        meets cfg src (src + 2 * size) = false ∧ meets cfg dst (dst + 2 * size) = false := by
  unfold fblockStatus
  split
  · next h => simp [h]
  · next h =>
    split
    · next h2 =>
      simp only [reduceCtorEq, false_iff]
      omega
    · next h2 =>
      split
      · next h3 =>
        simp only [reduceCtorEq, false_iff]
        omega
      · next h3 =>
        split
        · next h4 =>
          simp only [Bool.or_eq_true] at h4
          simp only [reduceCtorEq, false_iff]
          rintro ⟨-, -, -, -, -, h5, h6⟩
          simp [h5, h6] at h4
        · next h4 =>
          simp only [Bool.or_eq_true, not_or, Bool.not_eq_true] at h4
          simp only [ne_eq, not_or, not_not] at h2
          simp only [true_iff]
          exact ⟨by simpa using h, h2.1, h2.2, by omega, by omega, h4.1, h4.2⟩

/-- FBLOCK runs the block, or answers NOCHAN or the status of its first failing check (R142). -/
theorem execFblock_cases {ch : ChanId} {size : BitVec 16} {src dst : Addr} {s t : State}
    (h : execFblock ch size src dst s = .next t) :
    (chanCfg s.cfg (chanNum ch) = none ∧ t = s.raise .nochan) ∨
    (∃ st, st ≠ .ok ∧ fblockStatus s.cfg (s.filter (chanNum ch)) (sizeNum size) src.toNat dst.toNat = st ∧ t = s.raise st) ∨
    (∃ cc u, chanCfg s.cfg (chanNum ch) = some cc ∧
      fblockStatus s.cfg (s.filter (chanNum ch)) (sizeNum size) src.toNat dst.toNat = .ok ∧
      filterLoop (chanNum ch) (sizeNum size) src.toNat dst.toNat s = .ok u ∧ t = u.respond .ok 0) := by
  unfold execFblock at h
  split at h
  · next hc => cases h; exact .inl ⟨hc, rfl⟩
  · next cc hc =>
    split at h
    · next hst =>
      split at h
      · cases h
      · next u hu => cases h; exact .inr (.inr ⟨cc, u, hc, hst, hu, rfl⟩)
    · next hst => cases h; exact .inr (.inl ⟨_, fun e => hst e, rfl, rfl⟩)

/-- RDREG answers a word or a status, and changes nothing but RESPQ and ERR (R143). -/
theorem execRdreg_cases {ch : ChanId} {sel : BitVec 4} {s t : State} (h : execRdreg ch sel s = .next t) :
    (∃ st, st ≠ .ok ∧ t = s.raise st) ∨ ∃ d, t = s.respond .ok d := by
  unfold execRdreg at h
  split at h
  · cases h; exact .inl ⟨_, by simp, rfl⟩
  · split at h
    · cases h; exact .inl ⟨_, by simp, rfl⟩
    · split at h
      · cases h; exact .inr ⟨_, rfl⟩
      · cases h; exact .inl ⟨_, by simp, rfl⟩
      · split at h
        · split at h
          · cases h; exact .inr ⟨_, rfl⟩
          · cases h
        · cases h; exact .inl ⟨_, by simp, rfl⟩

/-! ### Events (R178) -/

/-- An event changes nothing, or the arbiter bank of its registered channel and the ghosts SEQ and OVERRUN (R172 to
R177). -/
theorem accept_cases (s : State) (id : ChanId) (h : Half) (ph : Phase) :
    (registered s.cfg (chanNum id) = false ∧ s.accept id h ph = s) ∨
    (registered s.cfg (chanNum id) = true ∧
      s.accept id h ph =
        ((s.ghostIf (decide ((s.arb (chanNum id)).phase = ph)) .seq).ghostIf (pend (s.arb (chanNum id))) .overrun).setArb
          (chanNum id) ((s.arb (chanNum id)).accept h ph)) := by
  unfold State.accept
  split
  · next hr => exact .inr ⟨hr, rfl⟩
  · next hr => exact .inl ⟨by simpa using hr, rfl⟩

/-- A registered number is a channel's. -/
theorem registered_chanCfg {cfg : Config} {c : Nat} (h : registered cfg c = true) :
    ∃ cc, chanCfg cfg c = some cc ∧ cc.registered = true := by
  unfold registered at h
  split at h
  · next cc hc => exact ⟨cc, hc, h⟩
  · cases h

/-- A channel number is below NUM_CH exactly when it has a record (R10). -/
theorem chanCfg_lt {cfg : Config} {c : Nat} {cc : ChannelCfg} (h : chanCfg cfg c = some cc) : c < numCh cfg := by
  simpa [chanCfg, numCh] using (List.getElem?_eq_some_iff.1 h).1

theorem chanCfg_mem {cfg : Config} {c : Nat} {cc : ChannelCfg} (h : chanCfg cfg c = some cc) : cc ∈ cfg.chans :=
  List.mem_of_getElem? h

/-! ### Handler steps (R180 to R185) -/

/-- H_START is not enabled, starts the handler, or aborts it (R180, R185). -/
theorem hStart_cases (s : State) (c : Nat) :
    s.hStart c = s ∨
    (∃ cc h, s.eng = .idle ∧ chanCfg s.cfg c = some cc ∧ (s.arb c).halfLatch = some h ∧ cc.policy = .raw ∧
      s.hStart c = s.setEng (.handler c h (halfH s.cfg))) ∨
    (∃ cc h out, s.eng = .idle ∧ chanCfg s.cfg c = some cc ∧ (s.arb c).halfLatch = some h ∧
      cc.policy = .filtered out ∧ (s.filter c).initDone = true ∧ s.hStart c = s.setEng (.handler c h 0)) ∨
    (∃ cc h out, s.eng = .idle ∧ chanCfg s.cfg c = some cc ∧ (s.arb c).halfLatch = some h ∧
      cc.policy = .filtered out ∧ (s.filter c).initDone = false ∧ s.hStart c = s.hAbort c) := by
  unfold State.hStart
  split
  · next he =>
    split
    · next cc h hc hl =>
      split
      · next hp => exact .inr (.inl ⟨cc, h, he, hc, hl, hp, rfl⟩)
      · next out hp =>
        split
        · next hi => exact .inr (.inr (.inl ⟨cc, h, out, he, hc, hl, hp, hi, rfl⟩))
        · next hi => exact .inr (.inr (.inr ⟨cc, h, out, he, hc, hl, hp, by simpa using hi, rfl⟩))
    · exact .inl rfl
  · exact .inl rfl

/-- The handler's next step is not enabled, submits, or filters one sample (R182, R184). -/
theorem hNext_cases {s t : State} (h : s.hNext = .ok t) :
    t = s ∨
    (∃ c hf cc, s.eng = .handler c hf (halfH s.cfg) ∧ chanCfg s.cfg c = some cc ∧ t = s.hSubmit c cc hf) ∨
    (∃ c hf i cc out u, s.eng = .handler c hf i ∧ chanCfg s.cfg c = some cc ∧ cc.policy = .filtered out ∧
      i < halfH s.cfg ∧
      s.filterMove c (sampleAddr cc.capBase (halfOff s.cfg hf + i)) (sampleAddr out (halfOff s.cfg hf + i)) = .ok u ∧
      t = u.setEng (.handler c hf (i + 1))) := by
  unfold State.hNext at h
  split at h
  · cases h; exact .inl rfl
  · next c hf i he =>
    split at h
    · cases h; exact .inl rfl
    · next cc hc =>
      split at h
      · next hi => cases h; exact .inr (.inl ⟨c, hf, cc, by rw [he, hi], hc, rfl⟩)
      · split at h
        · cases h; exact .inl rfl
        · next out hp =>
          split at h
          · next hlt =>
            unfold State.hSample at h
            split at h
            · cases h
            · next u hu => cases h; exact .inr (.inr ⟨c, hf, i, cc, out, u, he, hc, hp, hlt, hu, rfl⟩)
          · cases h; exact .inl rfl

/-! ### Environment steps (R211 to R231) -/

/-- SRC.WRITE is not enabled, or writes the next sample of its capture buffer (R211). -/
theorem srcWrite_cases {s t : State} {c : Nat} {v : Sample} (h : s.srcWrite c v = .ok t) :
    t = s ∨
    (∃ cc, chanCfg s.cfg c = some cc ∧ (s.src c).due = .none ∧
      sampleAddr cc.capBase (s.src c).wptr + 2 ≤ s.cfg.memBytes ∧
      t = (s.storeBytes (sampleAddr cc.capBase (s.src c).wptr) (sampleBytes v)).setSrc c
        ((s.src c).afterWrite s.cfg)) := by
  unfold State.srcWrite at h
  split at h
  · cases h; exact .inl rfl
  · next cc hc =>
    split at h
    · next hd =>
      split at h
      · cases h
      · next s' hs =>
        cases h
        obtain ⟨h1, rfl⟩ := store16_ok_iff.1 hs
        exact .inr ⟨cc, hc, hd, h1, rfl⟩
    · cases h; exact .inl rfl

/-- XPT.SEND is not enabled, or moves one byte of memory to the wire (R221). -/
theorem xptSend_cases {s t : State} {x : Nat} (h : s.xptSend x = .ok t) :
    t = s ∨
    (∃ q rest, (s.xpt x).queue = q :: rest ∧ q.ptr.toNat + q.sent < s.cfg.memBytes ∧
      t = s.setXpt x { queue := queueAfterSend q rest,
                       wire := (s.xpt x).wire ++ [memRead s.mem (q.ptr.toNat + q.sent)] }) := by
  unfold State.xptSend at h
  split at h
  · cases h; exact .inl rfl
  · next q rest hq =>
    unfold State.load8 at h
    split at h
    · cases h
    · next b hb =>
      split at hb
      · next hlt => cases hb; cases h; exact .inr ⟨q, rest, hq, hlt, rfl⟩
      · cases hb

/-- HOST.STORE changes nothing, or writes bytes it may touch (R231). -/
theorem hostStore_cases (s : State) (a : Nat) (bs : List Byte) :
    s.hostStore a bs = s ∨ (s.hostMayTouch a bs.length = true ∧ s.hostStore a bs = s.storeBytes a bs) := by
  unfold State.hostStore
  split
  · next h => exact .inr ⟨h, rfl⟩
  · exact .inl rfl

/-- ENG's command step waits, runs the command it has removed, or answers ILLEGAL (R138). -/
theorem engCommand_cases (s : State) :
    s.engCommand = .next s ∨
    (∃ i rest, s.eng = .idle ∧ nextCommand s.cmdq = some (.ok i, rest) ∧ s.engCommand = exec i { s with cmdq := rest }) ∨
    (∃ e rest, s.eng = .idle ∧ nextCommand s.cmdq = some (.error e, rest) ∧
      s.engCommand = .next (State.raise { s with cmdq := rest } .illegal)) := by
  unfold State.engCommand
  split
  · next he =>
    split
    · exact .inl rfl
    · next i rest h => exact .inr (.inl ⟨i, rest, he, h, rfl⟩)
    · next e rest h => exact .inr (.inr ⟨e, rest, he, h, rfl⟩)
  · exact .inl rfl

/-- ARB marks a reserved word, or accepts the event it encodes (R178). -/
theorem acceptWord_cases (s : State) (w : Word) :
    (∃ id, decodeEvent w = .ok (.evHalf id) ∧ s.acceptWord w = .next (s.accept id .first .fillingSecond)) ∨
    (∃ id, decodeEvent w = .ok (.evFull id) ∧ s.acceptWord w = .next (s.accept id .second .fillingFirst)) ∨
    (∃ e, decodeEvent w = .error e ∧ s.acceptWord w = .next (s.ghostIf true .evrsv)) := by
  unfold State.acceptWord
  cases h : decodeEvent w with
  | error e => exact .inr (.inr ⟨e, rfl, rfl⟩)
  | ok i =>
    unfold decodeEvent at h
    split at h
    · cases h
    · split at h
      · cases h; exact .inl ⟨_, rfl, rfl⟩
      · split at h
        · cases h; exact .inr (.inl ⟨_, rfl, rfl⟩)
        · cases h

/-- The event port's decoder reads back what `eventWord` lays down (R112). -/
theorem decodeEvent_half (id : ChanId) : decodeEvent (eventWord 0b01 id) = .ok (.evHalf id) := by
  revert id; decide

theorem decodeEvent_full (id : ChanId) : decodeEvent (eventWord 0b10 id) = .ok (.evFull id) := by
  revert id; decide

/-- SRC.EVENT is not enabled, or delivers the event it owes and owes none after (R212). -/
theorem srcEvent_cases (s : State) (c : Nat) :
    s.srcEvent c = .next s ∨
    (∃ cc, chanCfg s.cfg c = some cc ∧ (s.src c).due = .half ∧
      s.srcEvent c = .next ((s.accept (BitVec.ofNat 8 c) .first .fillingSecond).clearDue c)) ∨
    (∃ cc, chanCfg s.cfg c = some cc ∧ (s.src c).due = .full ∧
      s.srcEvent c = .next ((s.accept (BitVec.ofNat 8 c) .second .fillingFirst).clearDue c)) := by
  unfold State.srcEvent
  split
  · exact .inl rfl
  · next cc hc =>
    cases hd : (s.src c).due with
    | none => exact .inl rfl
    | half =>
      refine .inr (.inl ⟨cc, hc, rfl, ?_⟩)
      simp only [dueWord, State.acceptWord, decodeEvent_half]
      rfl
    | full =>
      refine .inr (.inr ⟨cc, hc, rfl, ?_⟩)
      simp only [dueWord, State.acceptWord, decodeEvent_full]
      rfl

end Sys2Proof.Machine
end

