-- ==== Sys2Proof/Laws/Layout.lean ====
section
/-! SUPPORT. What the checks over address ranges, coefficients and command queues say, in plain terms; and that no move is
refused. -/

namespace Sys2Proof.Machine

/-! ### Ranges -/

/-- Two ranges overlap when some address is in both. -/
theorem overlaps_iff {lo hi lo' hi' : Nat} :
    overlaps lo hi lo' hi' = true ↔ ∃ x, lo ≤ x ∧ x < hi ∧ lo' ≤ x ∧ x < hi' := by
  simp only [overlaps, decide_eq_true_eq]
  constructor
  · intro h; exact ⟨max lo lo', by omega, by omega, by omega, by omega⟩
  · rintro ⟨x, _, _, _, _⟩; omega

/-- The regions of a channel are those of its buffers (WF7). -/
theorem mem_chanRegions {cfg : Config} {cc : ChannelCfg} {r : Nat × Nat} :
    r ∈ chanRegions cfg cc ↔ ∃ b, isBuffer cc b ∧ r = bufRegion cfg b := by
  unfold chanRegions isBuffer
  cases cc.policy with
  | raw => simp
  | filtered out => simp only [List.mem_cons, List.not_mem_nil, or_false, Policy.filtered.injEq, or_and_right, exists_or,
      exists_eq_left, eq_comm (a := out)]

theorem mem_regions {cfg : Config} {r : Nat × Nat} :
    r ∈ regions cfg ↔ ∃ cc ∈ cfg.chans, ∃ b, isBuffer cc b ∧ r = bufRegion cfg b := by
  simp only [regions, List.mem_flatMap, mem_chanRegions]

/-- Where buffers are not empty, `meets` says that the range has a byte in a declared region (R142). -/
theorem meets_iff {cfg : Config} (h : 0 < bufN cfg) {lo hi : Nat} :
    meets cfg lo hi = true ↔ ∃ r ∈ regions cfg, ∃ x, lo ≤ x ∧ x < hi ∧ r.1 ≤ x ∧ x < r.2 := by
  simp only [meets, Bool.and_eq_true, decide_eq_true_eq, List.any_eq_true]
  constructor
  · rintro ⟨h1, r, hr, h2, h3⟩
    obtain ⟨cc, -, b, -, e⟩ := mem_regions.1 hr
    have h4 : r.1 < r.2 := by rw [e]; simp only [bufRegion]; omega
    exact ⟨r, hr, max lo r.1, by omega, by omega, by omega, by omega⟩
  · rintro ⟨r, hr, x, _, _, _, _⟩
    exact ⟨by omega, r, hr, by omega, by omega⟩

theorem disjointAll_iff {l : List (Nat × Nat)} :
    disjointAll l = true ↔ l.Pairwise fun r q => overlaps r.1 r.2 q.1 q.2 = false := by
  induction l with
  | nil => simp [disjointAll]
  | cons r rs ih => simp [disjointAll, List.pairwise_cons, ih]

/-! ### Commands in a queue -/

theorem queued_iff {d : Except Reject Instr} {q : List Word} :
    Queued d q ↔ ∃ d' rest, nextCommand q = some (d', rest) ∧ (d = d' ∨ Queued d rest) := by
  constructor
  · rintro (h | ⟨h, k⟩)
    · exact ⟨_, _, h, .inl rfl⟩
    · exact ⟨_, _, h, .inr k⟩
  · rintro ⟨d', rest, h, rfl | k⟩
    · exact .head h
    · exact .later h k

/-- A command of one word has no span. -/
theorem commandSpans_short {w w1 w2 : Word} (h : commandLength w ≠ 3) : commandSpans (decodeCommand w w1 w2) = [] := by
  have ho : headerOpc w ≠ 0x3#4 := by
    intro e
    exact h (by simp [commandLength, e])
  unfold decodeCommand
  repeat' split
  all_goals rfl

theorem nextCommand_cons (w : Word) (tl : List Word) :
    nextCommand (w :: tl) = if commandLength w = 3 then
        (match tl with | w1 :: w2 :: rest => some (decodeCommand w w1 w2, rest) | _ => none)
      else some (decodeCommand w 0 0, tl) := rfl

/-- No FBLOCK is whole in fewer than three words, so none of their commands has a span. -/
theorem queued_few {d : Except Reject Instr} {q : List Word} (h : Queued d q) (hq : q.length < 3) :
    commandSpans d = [] := by
  induction h with
  | @head q rest h =>
    cases q with
    | nil => simp [nextCommand] at h
    | cons w tl =>
      rw [nextCommand_cons] at h
      split at h
      · split at h
        · simp at hq; omega
        · simp at h
      · next hw => simp at h; rw [← h.1]; exact commandSpans_short hw
  | @later q rest d' h _ ih =>
    apply ih
    cases q with
    | nil => simp [nextCommand] at h
    | cons w tl =>
      rw [nextCommand_cons] at h
      split at h
      · split at h
        · simp at hq; omega
        · simp at h
      · simp at h; rw [← h.2]; simp at hq; omega

/-- The spans barred to the host are those of the FBLOCKs the queue holds whole (R231, log 15). -/
theorem mem_issuedSpans {q : List Word} {r : Nat × Nat} :
    r ∈ issuedSpans q ↔ ∃ d, Queued d q ∧ r ∈ commandSpans d := by
  have few : ∀ q : List Word, q.length < 3 → (r ∈ ([] : List (Nat × Nat)) ↔ ∃ d, Queued d q ∧ r ∈ commandSpans d) := by
    intro q hq
    simp only [List.not_mem_nil, false_iff, not_exists, not_and]
    intro d hd
    simp [queued_few hd hq]
  fun_induction issuedSpans q with
  | case1 => exact few _ (by simp)
  | case2 => exact few _ (by simp)
  | case3 => exact few _ (by simp)
  | case4 w w1 w2 rest hw ih =>
    rw [List.mem_append, propext ih]
    constructor
    · rintro (h | ⟨d, hd, h⟩)
      · exact ⟨_, .head (by rw [nextCommand_cons, if_pos hw]), h⟩
      · exact ⟨d, .later (by rw [nextCommand_cons, if_pos hw]) hd, h⟩
    · rintro ⟨d, hd, h⟩
      obtain ⟨d', rest', hn, hd⟩ := queued_iff.1 hd
      rw [nextCommand_cons, if_pos hw] at hn
      cases hn
      exact hd.imp (by rintro rfl; exact h) (fun hd => ⟨d, hd, h⟩)
  | case5 w w1 w2 rest hw ih =>
    rw [propext ih]
    constructor
    · rintro ⟨d, hd, h⟩
      exact ⟨d, .later (by rw [nextCommand_cons, if_neg hw]) hd, h⟩
    · rintro ⟨d, hd, h⟩
      obtain ⟨d', rest', hn, hd⟩ := queued_iff.1 hd
      rw [nextCommand_cons, if_neg hw] at hn
      cases hn
      rcases hd with rfl | hd
      · rw [commandSpans_short hw] at h; simp at h
      · exact ⟨d, hd, h⟩

/-- Those of one decoded command: an FBLOCK's two spans (R142). -/
theorem mem_commandSpans {d : Except Reject Instr} {r : Nat × Nat} :
    r ∈ commandSpans d ↔ ∃ ch size src dst, d = .ok (.fblock ch size src dst) ∧
      (r = (src.toNat, src.toNat + 2 * size.toNat) ∨ r = (dst.toNat, dst.toNat + 2 * size.toNat)) := by
  rcases d with e | i
  · simp [commandSpans]
  · cases i <;> simp [commandSpans]

/-! ### Refusals -/

theorem exec_not_refused (i : Instr) (s : State) (r : Refusal) : exec i s ≠ .refused r := by
  cases i <;> simp only [exec, execInit, execFsample, execFblock, execRdreg, execEvHalf, execEvFull] <;>
    repeat' split
  all_goals simp

theorem finish_not_refused (x : Except Fault State) (r : Refusal) : finish x ≠ .refused r := by
  cases x <;> simp [finish]

/-- No move is refused: `step` alone refuses, and only a configuration (R13, log 9). -/
theorem perform_not_refused (m : Move) (s : State) (r : Refusal) : perform m s ≠ .refused r := by
  have word : ∀ w, s.acceptWord w ≠ .refused r := by
    intro w
    unfold State.acceptWord
    split
    · exact exec_not_refused _ _ _
    · simp
  cases m with
  | engCommand =>
    simp only [perform, State.engCommand]
    split
    · split
      · simp
      · exact exec_not_refused _ _ _
      · simp
    · simp
  | event w => exact word w
  | srcEvent c =>
    simp only [perform, State.srcEvent]
    split
    · simp
    · split
      · simp
      · next w _ =>
        have := word w
        cases h : s.acceptWord w <;> simp_all [andThen]
  | engHandler => exact finish_not_refused _ _
  | srcWrite c v => exact finish_not_refused _ _
  | xptSend t => exact finish_not_refused _ _
  | engStart c => simp [perform]
  | hostCmd w => simp [perform]
  | hostTake => simp [perform]
  | hostStore a bs => simp [perform]
  | hostLoad a n => simp [perform]

/-- The step refuses exactly the configurations that are not well formed (R13). -/
theorem step_refused_iff {s : State} : step s = .refused .illFormedConfig ↔ cfgWf s.cfg = false := by
  unfold step stepMove
  split
  · next h => simp [h, perform_not_refused]
  · next h => simpa using h

end Sys2Proof.Machine
end

