-- ==== Sys2Proof/Laws/PerInstr.lean ====
section
/-! SUPPORT. One statement per instruction, by family: the OPC its first word carries and the number of its words. -/

namespace Sys2Proof.Laws.Header

/-- The OPC of an instruction's first word (R106); an event word has 0 there, which no command has (R112). -/
def opcode : Instr → BitVec 4
  | .init _ => 1
  | .fsample _ _ => 2
  | .fblock _ _ _ _ => 3
  | .rdreg _ _ => 4
  | .evHalf _ => 0
  | .evFull _ => 0

/-- The first word carries the instruction's OPC, and the words are as many as that OPC says (R100). -/
def Statement (i : Instr) : Prop :=
  ∃ w rest, encode i = w :: rest ∧ headerOpc w = opcode i ∧ rest.length + 1 = commandLength w

/-- Bits above the low part of a concatenation are those of its high part. -/
theorem getLsbD_high {a b : Nat} (x : BitVec a) (y : BitVec b) {k : Nat} (h : b ≤ k) :
    (x ++ y).getLsbD k = x.getLsbD (k - b) := by
  rw [BitVec.getLsbD_append, if_neg (by omega)]

theorem opc_headerWord (opc : BitVec 4) (ch : ChanId) (imm : BitVec 16) : headerOpc (headerWord opc ch imm) = opc := by
  apply BitVec.eq_of_getLsbD_eq
  intro k hk
  have h : (headerWord opc ch imm).getLsbD (28 + k) = opc.getLsbD k :=
    (getLsbD_high _ imm (by omega)).trans ((getLsbD_high _ 0#4 (by omega)).trans
      ((getLsbD_high opc ch (by omega)).trans (by congr 1; omega)))
  simp [headerOpc, hk, h]

theorem opc_eventWord (kind : BitVec 2) (id : ChanId) : headerOpc (eventWord kind id) = 0 := by
  apply BitVec.eq_of_getLsbD_eq
  intro k hk
  have h : (eventWord kind id).getLsbD (28 + k) = false :=
    (getLsbD_high _ id (by omega)).trans ((getLsbD_high 0#22 kind (by omega)).trans (by simp))
  simp [headerOpc, h]

theorem init (ch : ChanId) : Statement (.init ch) :=
  ⟨_, _, rfl, opc_headerWord .., by simp [commandLength, opc_headerWord]⟩

theorem fsample (ch : ChanId) (x : Sample) : Statement (.fsample ch x) :=
  ⟨_, _, rfl, opc_headerWord .., by simp [commandLength, opc_headerWord]⟩

theorem fblock (ch : ChanId) (size : BitVec 16) (src dst : Addr) : Statement (.fblock ch size src dst) :=
  ⟨_, _, rfl, opc_headerWord .., by simp [commandLength, opc_headerWord]⟩

theorem rdreg (ch : ChanId) (sel : BitVec 4) : Statement (.rdreg ch sel) :=
  ⟨_, _, rfl, opc_headerWord .., by simp [commandLength, opc_headerWord]⟩

theorem evHalf (id : ChanId) : Statement (.evHalf id) :=
  ⟨_, _, rfl, opc_eventWord .., by simp [commandLength, opc_eventWord]⟩

theorem evFull (id : ChanId) : Statement (.evFull id) :=
  ⟨_, _, rfl, opc_eventWord .., by simp [commandLength, opc_eventWord]⟩

end Sys2Proof.Laws.Header
end

