-- ==== Sys2Proof/Tests/Slice0.lean ====
section
/-! SUPPORT. Tests against the vectors of 95_test_vectors.md (named V, W, S, A, HV, M, P there), the smoke tests of the
well-formedness checks, and for each statement with hypotheses a concrete case that meets all of them. -/

namespace Sys2Proof.Tests

open Sys2Proof.Machine

/-! ### Helpers -/

/-- The outcome is a next state on which `p` holds. -/
def gives (o : Host.Outcome State Fault Refusal) (p : State → Bool) : Bool :=
  match o with
  | .next t => p t
  | .fault _ => false
  | .refused _ => false

theorem next_of_gives {o : Host.Outcome State Fault Refusal} {p : State → Bool} (h : gives o p = true) :
    ∃ t, o = .next t ∧ p t = true := by
  cases o with
  | next t => exact ⟨t, rfl, h⟩
  | fault _ => cases h
  | refused _ => cases h

/-- `Inv`, as a check. -/
def invCheck (s : State) : Bool :=
  cfgWf s.cfg && sized s && memOk s.cfg s.mem && (List.range (numCh s.cfg)).all (chanOk s) && engOk s &&
    !s.err.getLsbD 0 && s.xpts.all fun t => t.queue.all (submissionOk s.cfg)

theorem inv_of_check {s : State} (h : invCheck s = true) : Inv s := by
  simp only [invCheck, Bool.and_eq_true, Bool.not_eq_true', List.all_eq_true, List.mem_range] at h
  obtain ⟨⟨⟨⟨⟨⟨h1, h2⟩, h3⟩, h4⟩, h5⟩, h6⟩, h7⟩ := h
  exact ⟨h1, h2, h3, h4, h5, h6, h7⟩

/-- Configuration K after INIT 0, with PREV_OUT[0] = `p`. -/
def live (p : Sample) : State := State.reset.setFilter 0 (liveBank 0x3F000000 p 0x8000 0x7FFF)

/-- A state with the samples `xs` in memory from `a`. -/
def withSamples (s : State) (a : Nat) (xs : List Sample) : State :=
  { s with mem := memWriteBytes s.mem a (xs.flatMap sampleBytes) }

/-- A state with channel `c`'s arbiter bank set. -/
def arbiter (s : State) (c : Nat) (p : Phase) (sw latch : Option Half) : State :=
  s.setArb c { phase := p, swHalf := sw, halfLatch := latch }

/-- The arbiter bank of channel 0 and FLAGS(0), as the tables of section 5 give them. -/
def arbIs (t : State) (p : Phase) (sw latch : Option Half) (flags : Word) : Bool :=
  decide (t.arb 0 = { phase := p, swHalf := sw, halfLatch := latch }) &&
    gives (exec (.rdreg 0 4) t) fun u => decide (u.respq = t.respq ++ [0, flags])

/-- Sample literals. -/
def samples (is : List Int) : List Sample := is.map bits16

/-! ### Well-formedness -/

/-- R57, R104: selector 5 is the last legal one. -/
theorem test_wf_refuses_reserved_selector :
    (Instr.rdreg 0 6).wf = false ∧ (Instr.rdreg 0 15).wf = false ∧ (Instr.rdreg 0 5).wf = true := by decide

/-- A configuration K with channel 0's record changed. -/
def withChan (f : ChannelCfg → ChannelCfg) : Config :=
  { Config.k with chans := Config.k.chans.modifyHead f }

/-- K is well formed (95, section 0), and one broken parameter fails its own check of R13. -/
theorem test_cfg_checks_refuse :
    cfgWf Config.k = true ∧
    wf1 { Config.k with bufLength := .direct 7 } = false ∧
    wf2 { Config.k with bufLength := .computed 44100 1 1 } = false ∧
    wf3 { Config.k with chans := [] } = false ∧
    wf4 (withChan fun c => { c with alphaCfg := 0x80000000 }) = false ∧
    wf5 (withChan fun c => { c with minCfg := 1, maxCfg := 0 }) = false ∧
    wf6 (withChan fun c => { c with capBase := 0x1001 }) = false ∧
    wf7 (withChan fun c => { c with capBase := 0x120E }) = false ∧
    wf8 (withChan fun c => { c with xport := 2 }) = false ∧
    rangesOk { Config.k with memBytes := 0x2001 } = false := by decide

/-! ### Decoding: words written out bit by bit (R102 to R105, R112) -/

theorem test_decode_init : decodeCommand 0b0001_00000011_0000_0000000000000000 0 0 = .ok (.init 3) := rfl
theorem test_decode_fsample : decodeCommand 0b0010_00000000_0000_1000000000000000 0 0 = .ok (.fsample 0 0x8000) := rfl
theorem test_decode_fblock :
    decodeCommand 0b0011_11111111_0000_1111111111111111 0xFFFFFFFE 0 = .ok (.fblock 255 65535 0xFFFFFFFE 0) := rfl
theorem test_decode_rdreg : decodeCommand 0b0100_11111111_0000_000000000000_0101 0 0 = .ok (.rdreg 255 5) := rfl
theorem test_decode_evHalf : decodeEvent 0b0000000000000000000000_01_00000000 = .ok (.evHalf 0) := rfl
theorem test_decode_evFull : decodeEvent 0b0000000000000000000000_10_11111111 = .ok (.evFull 255) := rfl

/-- Vectors W12 to W21. -/
theorem test_decode_rejects_commands :
    decodeCommand 0x00000000 0 0 = .error .reservedOpcode ∧ decodeCommand 0x50000000 0 0 = .error .reservedOpcode ∧
    decodeCommand 0xF0000000 0 0 = .error .reservedOpcode ∧ decodeCommand 0x10010000 0 0 = .error .reservedBits ∧
    decodeCommand 0x10000001 0 0 = .error .initImmediate ∧ decodeCommand 0x2001FFFF 0 0 = .error .reservedBits ∧
    decodeCommand 0x30010004 0x100 0x200 = .error .reservedBits ∧
    decodeCommand 0x40000006 0 0 = .error .reservedSelector ∧ decodeCommand 0x4000000F 0 0 = .error .reservedSelector ∧
    decodeCommand 0x40000010 0 0 = .error .selectorBits := ⟨rfl, rfl, rfl, rfl, rfl, rfl, rfl, rfl, rfl, rfl⟩

/-- Vectors W25 to W28. -/
theorem test_decode_rejects_events :
    decodeEvent 0x00000000 = .error .eventReservedKind ∧ decodeEvent 0x00000300 = .error .eventReservedKind ∧
    decodeEvent 0x00000500 = .error .eventReservedBits ∧ decodeEvent 0x80000100 = .error .eventReservedBits :=
  ⟨rfl, rfl, rfl, rfl⟩

/-- The table's rows through the decoder the host calls; the operand words of FBLOCK are zeros above `nbits`. -/
theorem test_decode_table_rows :
    decodeTableWord 32 0x10000000 = some (.init 0) ∧ decodeTableWord 32 0x20000000 = some (.fsample 0 0) ∧
    decodeTableWord 32 0x30000000 = some (.fblock 0 0 0 0) ∧
    decodeTableWord 96 (0x30000004 + 0x100 * 2 ^ 32 + 0x200 * 2 ^ 64) = some (.fblock 0 4 0x100 0x200) ∧
    decodeTableWord 32 0x40000000 = some (.rdreg 0 0) ∧ decodeTableWord 32 0x100 = some (.evHalf 0) ∧
    decodeTableWord 32 0x200 = some (.evFull 0) := by decide

/-- The assembler's examples of section 3.1, from text. -/
theorem test_assemble_text :
    assembleText "FSAMPLE 0, -1 ; W5".toList = some [0x2000FFFF] ∧
    assembleText "FBLOCK 0, 4, 0x100, 0x200".toList = some [0x30000004, 0x100, 0x200] ∧
    assembleText "RDREG 0, FLAGS".toList = some [0x40000004] ∧
    assembleText "RDREG 0, 6".toList = none := by decide

/-! ### The step runs each row as the first instruction after reset -/

theorem test_step_runs_commands :
    gives (step (State.reset.withFetchWord 32 0x10000000)) (fun t => (t.filter 0).initDone && decide (t.respq = [0, 0])) ∧
    gives (step (State.reset.withFetchWord 32 0x20000000)) (fun t => decide (t.respq = [3, 0] ∧ t.err = 0x08)) ∧
    gives (step (State.reset.withFetchWord 96 0x30000000)) (fun t => decide (t.respq = [3, 0] ∧ t.cmdq = [])) ∧
    gives (step (State.reset.withFetchWord 32 0x40000000)) (fun t => decide (t.respq = [3, 0] ∧ t.err = 0x08)) := by
  decide

theorem test_step_runs_events :
    gives (step (State.reset.withFetchWord 32 0x100)) (fun t => arbIs t .fillingSecond (some .first) (some .first) 0x1B6) ∧
    gives (step (State.reset.withFetchWord 32 0x200)) (fun t => arbIs t .fillingFirst (some .second) (some .second) 0x1D8) := by
  decide

/-! ### The filter step (section 2) -/

/-- Vectors V3 (212.5), V10 (a -0 term), V13 (upper clamp), V16 (lower clamp), V18 (toward zero), V26, V28 (a subnormal
coefficient), V29. -/
theorem test_filter_vectors :
    filterValue 0x3F000000 125 0x8000 0x7FFF 300 = some 212 ∧
    filterValue 0x3F800000 (bits16 (-5)) 0x8000 0x7FFF 0x7FFF = some 0x7FFF ∧
    filterValue 0x3EC88869 0x7FFF 0x8000 0x7FFF 0x7FFF = some 0x7FFF ∧
    filterValue 0x3F000000 0 10 20 0 = some 10 ∧
    filterValue 0x3F000000 (bits16 (-125)) 0x8000 0x7FFF (bits16 (-300)) = some (bits16 (-212)) ∧
    filterValue 0x3DCCCCCD 0x7FFF 0x8000 0x7FFF 0x8000 = some 26213 ∧
    filterValue 0x00000001 100 0x8000 0x7FFF 0x7FFF = some 100 ∧
    filterValue 0x3F7FFFFF 0x8000 0x8000 0x7FFF 0x7FFF = some 32766 := by decide +kernel

/-- The rounded intermediates of V13 and of V28: t1 + t2 = 32767.001953125, and 1 - alpha rounds to 1. -/
theorem test_filter_intermediates :
    filterSum (.ofBits 0x3EC88869) (.ofInt 32767) (.ofInt 32767) = .fin false ((32767 * 512 + 1) * 2 ^ 140) ∧
    (F32.ofInt 1).sub (.ofBits 0x00000001) = .ofInt 1 := by decide +kernel

/-! ### One or two vectors for each instruction -/

/-- The example of R140. -/
theorem test_init_loads_bank :
    gives (exec (.init 0) State.reset)
      (fun t => decide (t.filter 0 = liveBank 0x3F000000 0 0x8000 0x7FFF ∧ t.respq = [0, 0] ∧ t.err = 0)) := by
  decide

/-- S14: REINIT leaves PREV_OUT. -/
theorem test_init_twice :
    gives (exec (.init 0) (live 306))
      (fun t => decide (t.filter 0 = (live 306).filter 0 ∧ t.respq = [4, 0] ∧ t.err = 0x10)) := by decide

/-- The third command of R141's example. -/
theorem test_fsample_truncates :
    gives (exec (.fsample 0 300) (live 125))
      (fun t => decide (t.respq = [0, 0xD4] ∧ (t.filter 0).prevOut = some 212)) := by decide +kernel

/-- P1: `FSAMPLE 3, -7` answers a sign-extended value. -/
theorem test_fsample_sign_extends :
    gives (exec (.fsample 3 0xFFF9) (State.reset.setFilter 3 (liveBank 0x3F800000 100 (bits16 (-100)) 100)))
      (fun t => decide (t.respq = [0, 0xFFFFFFF9])) := by decide +kernel

/-- P2's second FBLOCK: in place, from PREV_OUT 306. -/
theorem test_fblock_in_place :
    gives (exec (.fblock 0 4 0x200 0x200) (withSamples (live 306) 0x200 (samples [50, 125, 212, 306])))
      (fun t => decide (samplesAt t.mem 0x200 4 = samples [178, 151, 181, 243] ∧
        (t.filter 0).prevOut = some 243 ∧ t.respq = [0, 0])) := by decide +kernel

/-- S25: a span that meets a declared region by two bytes. -/
theorem test_fblock_ownership :
    gives (exec (.fblock 0 4 0x100 0xFFA) (live 0)) (fun t => decide (t.respq = [7, 0] ∧ t.err = 0x80)) := by
  decide

/-- P1: MIN_CLAMP, sign-extended. -/
theorem test_rdreg_min :
    gives (exec (.rdreg 0 2) (live 306)) (fun t => decide (t.respq = [0, 0xFFFF8000])) := by decide

/-- S6: selector 5 still checks the channel. -/
theorem test_rdreg_checks_channel :
    gives (exec (.rdreg 255 5) State.reset) (fun t => decide (t.respq = [2, 0] ∧ t.err = 0x04)) := by decide

/-- A4: both ghosts in one step. -/
theorem test_evHalf_repeated :
    gives (exec (.evHalf 0) (arbiter State.reset 0 .fillingSecond (some .first) (some .first)))
      (fun t => arbIs t .fillingSecond (some .first) (some .first) 0x1B6 && t.gf.seq && t.gf.overrun) := by decide

/-- A7: an unregistered channel. -/
theorem test_evHalf_unregistered :
    gives (exec (.evHalf 2) State.reset) (fun t => decide (t = State.reset)) := by decide

/-- A3: the latch keeps the half of the handler that has not completed. -/
theorem test_evFull_overrun :
    gives (exec (.evFull 0) (arbiter State.reset 0 .fillingSecond (some .first) (some .first)))
      (fun t => arbIs t .fillingFirst (some .second) (some .first) 0x1B8 && !t.gf.seq && t.gf.overrun) := by decide

/-- A2: the first event after reset must be EV.HALF. -/
theorem test_evFull_first :
    gives (exec (.evFull 0) State.reset)
      (fun t => arbIs t .fillingFirst (some .second) (some .second) 0x1D8 && t.gf.seq && !t.gf.overrun) := by decide

/-! ### Handler, environment, memory -/

/-- K after INIT 0 with the samples of HV1 in the first half and their handler pending. -/
def halfReady : State :=
  arbiter (withSamples (live 0) 0x1000 (samples [100, 200, 300, 400])) 0 .fillingSecond (some .first) (some .first)

/-- HV1. -/
theorem test_handler_filters_and_submits :
    gives (performAll (wholeHandler 0 4) halfReady) (fun t =>
      decide (samplesAt t.mem 0x1100 4 = samples [50, 125, 212, 306] ∧
        (t.xpt 0).queue = [{ ptr := 0x1100, len := 8, sent := 0 }] ∧ t.eng = .idle) &&
      arbIs t .fillingSecond (some .first) none 0x187) := by decide +kernel

/-- HV3. -/
theorem test_handler_aborts :
    gives (perform (.engStart 0) (arbiter State.reset 0 .fillingSecond (some .first) (some .first)))
      (fun t => decide (t.err = 0x08 ∧ t.eng = .idle ∧ t.respq = []) && arbIs t .fillingSecond (some .first) none 0x186) := by
  decide

/-- M1, M3: a Sample's bytes. -/
theorem test_bytes_of_samples :
    sampleBytes (bits16 (-2)) = [0xFE, 0xFF] ∧ sampleBytes 0x8000 = [0x00, 0x80] ∧ sampleBytes 0x7FFF = [0xFF, 0x7F] := by
  decide

/-- R222: a write into the unsent part of a submission, and one into its sent part. -/
theorem test_stale_span :
    stale [{ queue := [{ ptr := 0x1100, len := 8, sent := 3 }], wire := [] }] 0x1102 2 = true ∧
    stale [{ queue := [{ ptr := 0x1100, len := 8, sent := 4 }], wire := [] }] 0x1102 2 = false ∧
    stale [{ queue := [{ ptr := 0x1100, len := 8, sent := 3 }], wire := [] }] 0x1108 2 = false := by decide

/-- INIT 0, a whole FBLOCK, and one whose last word is not there. -/
def queuedFblock : List Word := [0x10000000, 0x30000004, 0x100, 0x200, 0x30000004, 0x300]

/-! ### Witnesses: for each statement with hypotheses, a case that meets all of them -/

/-- A state in which ENG's command step is next, over these command words. -/
def atCommand (ws : List Word) : State := { State.reset with cmdq := ws, script := [.engCommand] }

/-- K after INIT 0, with ENG at sample `i` of half `h` of channel 0, whose handler the latch names. -/
def running (h : Half) (i : Nat) : State :=
  { arbiter (withSamples (live 0) 0x1000 (samples [100, 200, 300, 400])) 0
      (match h with | .first => .fillingSecond | .second => .fillingFirst) (some h) (some h) with
    eng := .handler 0 h i
    srcs := [{ wptr := (match h with | .first => 4 | .second => 0), due := .none }, .atReset, .atReset, .atReset] }

/-- K with a submission of 8 bytes to transport 0, 7 of them sent. -/
def sending : State := State.reset.setXpt 0 { queue := [{ ptr := 0x1100, len := 8, sent := 7 }], wire := [] }

/-- K with SRC[0] owing an event. -/
def owing (w : Nat) (d : Due) : State := State.reset.setSrc 0 { wptr := w, due := d }

theorem witness_CommandRoundTrip :
    (Instr.rdreg 255 5).wf = true ∧ (Instr.rdreg 255 5).port = .command ∧
    (Instr.fblock 255 65535 0xFFFFFFFF 0xFFFFFFFF).wf = true ∧
    (Instr.fblock 255 65535 0xFFFFFFFF 0xFFFFFFFF).port = .command := by decide

theorem witness_EventRoundTrip :
    (Instr.evFull 255).port = .event ∧ decodeEvent 0x000001FF = .ok (.evHalf 255) := ⟨rfl, rfl⟩

theorem witness_DecodedCommandReencodes :
    decodeCommand 0x4FF00005 7 8 = .ok (.rdreg 255 5) ∧
    decodeCommand 0x3FF0FFFF 0xFFFFFFFE 0 = .ok (.fblock 255 65535 0xFFFFFFFE 0) := ⟨rfl, rfl⟩

theorem witness_CommandLengths :
    ((0x3FFFFFFF : Word).toNat / 2 ^ 28 = 3 ∧ [(0 : Word)].length < 2) ∧
    ((0x30000000 : Word).toNat / 2 ^ 28 = 3 ∧ 2 ≤ [(0 : Word), 0].length) ∧
    (0x40000000 : Word).toNat / 2 ^ 28 ≠ 3 := by decide

/-- The ends of each operand's range, inside and outside. -/
theorem witness_AssemblerMatchesEncoder :
    assemble (.init (.dec 255)) = some [0x1FF00000] ∧ assemble (.init (.dec 256)) = none ∧
    assemble (.fsample (.dec 0) (.dec (-32768))) = some [0x20008000] ∧
    assemble (.fsample (.dec 0) (.dec (-32769))) = none ∧ assemble (.fsample (.dec 0) (.dec 32768)) = none ∧
    assemble (.fsample (.dec 0) (.hex 0xFFFF)) = some [0x2000FFFF] ∧ assemble (.fsample (.dec 0) (.hex 0x10000)) = none ∧
    assemble (.fblock (.dec 0) (.dec 65535) (.hex 0xFFFFFFFF) (.dec 0)) = some [0x3000FFFF, 0xFFFFFFFF, 0] ∧
    assemble (.fblock (.dec 0) (.dec 65536) (.dec 0) (.dec 0)) = none ∧
    assemble (.fblock (.dec 0) (.dec 0) (.hex 0x100000000) (.dec 0)) = none ∧
    assemble (.rdreg (.dec 0) (.dec 5)) = some [0x40000005] ∧ assemble (.rdreg (.dec 0) (.dec 6)) = none ∧
    assemble (.rdreg (.dec 0) (.dec (-1))) = none ∧
    assemble (.evHalf (.dec 255)) = some [0x1FF] ∧ assemble (.evFull (.dec 256)) = none := by decide

theorem witness_StepRunsDecodedCommand :
    cfgWf (atCommand [0x10300000, 5]).cfg = true ∧ (atCommand [0x10300000, 5]).eng = .idle ∧
    (atCommand [0x10300000, 5]).script = [.engCommand] ∧
    nextCommand (atCommand [0x10300000, 5]).cmdq = some (.ok (.init 3), [5]) :=
  ⟨by decide, rfl, rfl, rfl⟩

theorem witness_StepAnswersIllegal :
    cfgWf (atCommand [0x30010004, 1, 2, 5]).cfg = true ∧ (atCommand [0x30010004, 1, 2, 5]).eng = .idle ∧
    (atCommand [0x30010004, 1, 2, 5]).script = [.engCommand] ∧
    nextCommand (atCommand [0x30010004, 1, 2, 5]).cmdq = some (.error .reservedBits, [5]) :=
  ⟨by decide, rfl, rfl, rfl⟩

theorem witness_StepAcceptsEventWord :
    cfgWf State.reset.cfg = true ∧
    (State.reset.withFetchWord 32 0x100).script = [.event 0x100] ∧ decodeEvent 0x100 = .ok (.evHalf 0) ∧
    ({ State.reset with script := [.event 0x300] } : State).script = [.event 0x300] ∧
    decodeEvent 0x300 = .error .eventReservedKind :=
  ⟨by decide, rfl, rfl, rfl, rfl⟩

theorem witness_CommandWaits :
    cfgWf (atCommand [0x30000004, 1]).cfg = true ∧ nextCommand (atCommand [0x30000004, 1]).cmdq = none ∧
    ({ running .first 4 with script := [.engCommand] } : State).eng ≠ .idle ∧
    cfgWf (running .first 4).cfg = true := by
  refine ⟨by decide, rfl, by decide, by decide⟩

/-- A state in a configuration. -/
def inCfg (cfg : Config) : State := { State.reset with cfg := cfg, script := [.hostTake] }

/-- The step refuses. -/
def refuses (cfg : Config) : Bool :=
  match step (inCfg cfg) with
  | .next _ => false
  | .fault _ => false
  | .refused r => decide (r = .illFormedConfig)

/-- One configuration for each check of IllFormedConfigRefused, at the value where it begins to fail, in the order of that
statement. -/
theorem witness_IllFormedConfigRefused :
    refuses Config.k = false ∧
    refuses { Config.k with bufLength := .direct 7 } ∧ refuses { Config.k with bufLength := .direct 0 } ∧
    refuses { Config.k with bufLength := .computed 2500 2 2 } ∧ refuses { Config.k with bufLength := .computed 0 8 1 } ∧
    refuses { Config.k with bufLength := .computed 8000 0 1 } ∧ refuses { Config.k with bufLength := .computed 8000 1 0 } ∧
    refuses { Config.k with bufLength := .computed 2000 2 2 } = false ∧
    refuses { Config.k with chans := [] } ∧ refuses { Config.k with numXpt := 0 } ∧
    refuses (withChan fun c => { c with alphaCfg := 0 }) ∧ refuses (withChan fun c => { c with alphaCfg := 0x3F800001 }) ∧
    refuses (withChan fun c => { c with minCfg := 1, maxCfg := 0 }) ∧
    refuses (withChan fun c => { c with capBase := 1 }) ∧ refuses (withChan fun c => { c with capBase := 0x1FF2 }) ∧
    refuses (withChan fun c => { c with policy := .filtered 0x1101 }) ∧
    refuses (withChan fun c => { c with policy := .filtered 0x1FF2 }) ∧
    refuses (withChan fun c => { c with policy := .filtered 0x100E }) ∧
    refuses (withChan fun c => { c with policy := .filtered 0x150E }) ∧
    refuses (withChan fun c => { c with xport := 2 }) ∧
    refuses { Config.k with memBytes := 0x2001 } ∧ refuses { Config.k with memBytes := 0 } ∧
    refuses { Config.k with memBytes := 2 ^ 32 + 2 } ∧
    refuses { Config.k with cutoffHz := some (.rational (-1)) } ∧
    refuses { Config.k with cutoffHz := some (.rational 0) } = false ∧
    refuses { Config.k with cutoffHz := some (.named 0) } = false := by decide +kernel

/-- R8: a cutoff may be any real number of at least 0, an irrational one too. -/
theorem test_cutoff_any_real (f : NNReal) : CutoffIs (fun _ => f) (.named 0) f := rfl

theorem witness_InitLoadsBank :
    chanCfg State.reset.cfg (3 : ChanId).toNat = Config.k.chans[3]? ∧ (chanCfg State.reset.cfg 3).isSome = true ∧
    (State.reset.filter (3 : ChanId).toNat).initDone = false := by decide

theorem witness_SecondInitAnswersReinit :
    (0 : ChanId).toNat < numCh (live 5).cfg ∧ ((live 5).filter (0 : ChanId).toNat).initDone = true := by decide

/-- Channel 4 is the first that K lacks, 255 the last there is a number for. -/
theorem witness_MissingChannelAnswersNochan :
    (Instr.rdreg 4 5).wf = true ∧ numCh State.reset.cfg ≤ (4 : ChanId).toNat ∧
    (Instr.init 255).wf = true ∧ numCh State.reset.cfg ≤ (255 : ChanId).toNat ∧
    (Instr.fsample 4 0).wf = true ∧ (Instr.fblock 4 0 0 0).wf = true := by decide

theorem witness_UninitialisedUseAnswersUninit :
    (3 : ChanId).toNat < numCh State.reset.cfg ∧ (State.reset.filter (3 : ChanId).toNat).initDone = false ∧
    (3 : BitVec 4).toNat ≤ 3 ∧ (0 : BitVec 4).toNat ≤ 3 := by decide

theorem witness_FsampleFilters :
    (0 : ChanId).toNat < numCh (live 125).cfg ∧
    (live 125).filter (0 : ChanId).toNat = liveBank 0x3F000000 125 0x8000 0x7FFF ∧
    alphaOk 0x3F000000 = true ∧ s16 0x8000 ≤ s16 0x7FFF := by decide

/-- S17, S18 and S25: a case of each check. -/
theorem witness_FblockCheckOrder :
    (0 : ChanId).toNat < numCh (live 0).cfg ∧ ((live 0).filter (0 : ChanId).toNat).initDone = true ∧
    (0x1001 : Addr).toNat % 2 = 1 ∧
    ((0x1FFE : Addr).toNat % 2 = 0 ∧ (0x200 : Addr).toNat % 2 = 0 ∧
      (live 0).cfg.memBytes < (0x1FFE : Addr).toNat + 2 * (2 : BitVec 16).toNat) ∧
    ((0x100 : Addr).toNat % 2 = 0 ∧ (0xFFA : Addr).toNat % 2 = 0 ∧
      (0x100 : Addr).toNat + 2 * (4 : BitVec 16).toNat ≤ (live 0).cfg.memBytes ∧
      (0xFFA : Addr).toNat + 2 * (4 : BitVec 16).toNat ≤ (live 0).cfg.memBytes ∧
      (0x1000, 0x1010) ∈ regions (live 0).cfg ∧ (0xFFA : Addr).toNat ≤ 0x1001 ∧
      0x1001 < (0xFFA : Addr).toNat + 2 * (4 : BitVec 16).toNat) := by decide

/-- The three placements of the spans, each at the distance where they just do not overlap. -/
theorem witness_FblockIsRecurrence :
    (0 : ChanId).toNat < numCh (live 0).cfg ∧
    (live 0).filter (0 : ChanId).toNat = liveBank 0x3F000000 0 0x8000 0x7FFF ∧
    alphaOk 0x3F000000 = true ∧ s16 0x8000 ≤ s16 0x7FFF ∧
    fblockStatus (live 0).cfg ((live 0).filter (0 : ChanId).toNat) 4 0x200 0x200 = .ok ∧
    fblockStatus (live 0).cfg ((live 0).filter (0 : ChanId).toNat) 4 0x100 0x108 = .ok ∧
    fblockStatus (live 0).cfg ((live 0).filter (0 : ChanId).toNat) 4 0x108 0x100 = .ok ∧
    (0x100 : Addr).toNat + 2 * (4 : BitVec 16).toNat ≤ (0x108 : Addr).toNat := by decide

/-- S26: the destination span ends where a declared region starts. The address ranges of the last hypothesis are checked
end to end. -/
theorem witness_FblockCompletes :
    cfgWf (live 0).cfg = true ∧ (0 : ChanId).toNat < numCh (live 0).cfg ∧
    (live 0).filter (0 : ChanId).toNat = liveBank 0x3F000000 0 0x8000 0x7FFF ∧
    alphaOk 0x3F000000 = true ∧ s16 0x8000 ≤ s16 0x7FFF ∧
    (0x100 : Addr).toNat % 2 = 0 ∧ (0xFF8 : Addr).toNat % 2 = 0 ∧
    (0x100 : Addr).toNat + 2 * (4 : BitVec 16).toNat ≤ (live 0).cfg.memBytes ∧
    (0xFF8 : Addr).toNat + 2 * (4 : BitVec 16).toNat ≤ (live 0).cfg.memBytes ∧
    ∀ r ∈ regions (live 0).cfg, ∀ x, r.1 ≤ x → x < r.2 →
      ¬((0x100 : Addr).toNat ≤ x ∧ x < (0x100 : Addr).toNat + 2 * (4 : BitVec 16).toNat) ∧
      ¬((0xFF8 : Addr).toNat ≤ x ∧ x < (0xFF8 : Addr).toNat + 2 * (4 : BitVec 16).toNat) := by
  refine ⟨by decide, by decide, by decide, by decide, by decide, by decide,
    by decide, by decide, by decide, ?_⟩
  have h : ∀ r ∈ regions (live 0).cfg, 0x1000 ≤ r.1 := by decide
  intro r hr x hx _
  have h1 := h r hr
  have e1 : (0x100 : Addr).toNat + 2 * (4 : BitVec 16).toNat = 0x108 := rfl
  have e2 : (0xFF8 : Addr).toNat + 2 * (4 : BitVec 16).toNat = 0x1000 := rfl
  omega

theorem witness_RdregReadsRegisters :
    (chanCfg (live 306).cfg (0 : ChanId).toNat).isSome = true ∧
    (live 306).filter (0 : ChanId).toNat = liveBank 0x3F000000 306 0x8000 0x7FFF ∧
    5 < (6 : BitVec 4).toNat ∧ 5 < (15 : BitVec 4).toNat := by decide

theorem witness_EvHalfTransition : registered State.reset.cfg (3 : ChanId).toNat = true := by decide

theorem witness_EvFullTransition : registered State.reset.cfg (1 : ChanId).toNat = true := by decide

/-- Channel 4 is no channel; channel 2 is not registered. -/
theorem witness_UnrecognisedIdentityIsNoop :
    numCh State.reset.cfg ≤ (4 : ChanId).toNat ∧
    ∃ cc, chanCfg State.reset.cfg (2 : ChanId).toNat = some cc ∧ cc.registered = false := ⟨by decide, _, rfl, rfl⟩

theorem witness_EventsOfTwoChannelsCommute :
    (0 : ChanId) ≠ 3 ∧ ∃ t u, exec (.evHalf 0) State.reset = .next t ∧ exec (.evFull 3) t = .next u :=
  ⟨by decide, _, _, rfl, rfl⟩

/-- A pending handler of a raw channel, of an initialised filtered one, and of a filtered one not initialised. -/
theorem witness_HandlerStarts :
    ((arbiter State.reset 1 .fillingSecond (some .first) (some .first)).eng = .idle ∧
      ((arbiter State.reset 1 .fillingSecond (some .first) (some .first)).arb 1).halfLatch = some .first ∧
      ∃ cc, chanCfg State.reset.cfg 1 = some cc ∧ cc.policy = .raw) ∧
    (halfReady.eng = .idle ∧ (halfReady.arb 0).halfLatch = some .first ∧ (halfReady.filter 0).initDone = true ∧
      ∃ cc, chanCfg halfReady.cfg 0 = some cc ∧ cc.policy ≠ .raw) ∧
    ((arbiter State.reset 0 .fillingFirst (some .second) (some .second)).eng = .idle ∧
      ((arbiter State.reset 0 .fillingFirst (some .second) (some .second)).arb 0).halfLatch = some .second ∧
      ((arbiter State.reset 0 .fillingFirst (some .second) (some .second)).filter 0).initDone = false ∧
      ∃ cc, chanCfg State.reset.cfg 0 = some cc ∧ cc.policy ≠ .raw) := by
  refine ⟨⟨rfl, by decide, _, rfl, rfl⟩, ⟨by decide, by decide, by decide, _, rfl, ?_⟩,
    ⟨rfl, by decide, by decide, _, rfl, ?_⟩⟩ <;> decide

/-- The last sample of the second half. -/
theorem witness_HandlerFiltersOneSample :
    (running .second 3).eng = .handler 0 .second 3 ∧
    (∃ cc, chanCfg (running .second 3).cfg 0 = some cc ∧ cc.policy = .filtered 0x1100 ∧
      cc.capBase.toNat + 2 * (halfOff (running .second 3).cfg .second + 3) + 2 ≤ (running .second 3).cfg.memBytes) ∧
    3 < halfH (running .second 3).cfg ∧
    (running .second 3).filter 0 = liveBank 0x3F000000 0 0x8000 0x7FFF ∧ alphaOk 0x3F000000 = true ∧
    s16 0x8000 ≤ s16 0x7FFF ∧
    (0x1100 : Addr).toNat + 2 * (halfOff (running .second 3).cfg .second + 3) + 2 ≤ (running .second 3).cfg.memBytes :=
  ⟨rfl, ⟨_, rfl, rfl, by decide⟩, by decide, by decide, by decide, by decide, by decide⟩

theorem witness_HandlerSubmits :
    (running .first 4).eng = .handler 0 .first (halfH (running .first 4).cfg) ∧
    ∃ cc, chanCfg (running .first 4).cfg 0 = some cc := ⟨rfl, _, rfl⟩

/-- The hypotheses, and both sides of the equivalence, for the whole half. -/
theorem witness_HandlerIsBlockFilter :
    (running .first 0).eng = .handler 0 .first 0 ∧
    (∃ cc, chanCfg (running .first 0).cfg 0 = some cc ∧ cc.policy = .filtered 0x1100) ∧
    0 + 4 ≤ halfH (running .first 0).cfg ∧
    ∃ t, performAll (List.replicate 4 .engHandler) (running .first 0) = .next t ∧ decide (t.eng = .handler 0 .first 4) = true :=
  ⟨rfl, ⟨_, rfl, rfl⟩, by decide, next_of_gives (p := fun t => decide (t.eng = .handler 0 .first 4)) (by decide +kernel)⟩

/-- T6: the end-to-end scenario. -/
theorem witness_ContinuityAcrossHalves :
    Inv (live 0) ∧
    (∃ cc, chanCfg (live 0).cfg 0 = some cc ∧ cc.registered = true ∧ cc.policy = .filtered 0x1100 ∧
      (live 0).filter 0 = liveBank cc.alphaCfg 0 cc.minCfg cc.maxCfg) ∧
    (live 0).eng = .idle ∧ ((live 0).arb 0).halfLatch = none ∧ (live 0).src 0 = { wptr := 0, due := .none } ∧
    (samples [100, 200, 300, 400]).length = halfH (live 0).cfg ∧
    (samples [500, 600, 700, 800]).length = halfH (live 0).cfg :=
  ⟨inv_of_check (by decide), ⟨_, rfl, rfl, rfl, by decide⟩, rfl, by decide, by decide,
    by decide, by decide⟩

/-- The last write of a half, and the last of the buffer. -/
theorem witness_SourceWrites :
    (∃ cc, chanCfg (owing 3 .none).cfg 0 = some cc ∧
      cc.capBase.toNat + 2 * ((owing 3 .none).src 0).wptr + 2 ≤ (owing 3 .none).cfg.memBytes) ∧
    ((owing 3 .none).src 0).due = .none ∧
    (∃ cc, chanCfg (owing 7 .none).cfg 0 = some cc ∧
      cc.capBase.toNat + 2 * ((owing 7 .none).src 0).wptr + 2 ≤ (owing 7 .none).cfg.memBytes) ∧
    ((owing 7 .none).src 0).due = .none :=
  ⟨⟨_, rfl, by decide⟩, by decide, ⟨_, rfl, by decide⟩, by decide⟩

theorem witness_SourceRaisesItsEvent :
    (0 : ChanId).toNat < numCh (owing 4 .half).cfg ∧ ((owing 4 .half).src (0 : ChanId).toNat).due = .half ∧
    ((owing 0 .full).src (0 : ChanId).toNat).due = .full := by decide

theorem witness_ContractKeepsPhaseInStep :
    Inv State.reset ∧ contractual (.srcWrite 0 5) = true ∧
    (∀ c, c < numCh State.reset.cfg → registered State.reset.cfg c = true → phaseInStep State.reset c = true) ∧
    ∃ t, perform (.srcWrite 0 5) State.reset = .next t ∧ decide ((t.src 0).wptr = 1) = true :=
  ⟨inv_of_check (by decide), rfl, by decide,
    next_of_gives (p := fun t => decide ((t.src 0).wptr = 1)) (by decide)⟩

/-- The last byte of a submission. -/
theorem witness_TransportSendsOneByte :
    (sending.xpt 0).queue = [{ ptr := 0x1100, len := 8, sent := 7 }] ∧
    (0x1100 : Addr).toNat + 7 < sending.cfg.memBytes := by decide

/-- H_SUBMIT: the case in which the promise grows. -/
theorem witness_WireLaw :
    Inv (running .first 4) ∧
    ∃ t, step { running .first 4 with script := [.engHandler] } = .next t ∧
      (!t.gf.staleSpan && decide (promised t 0 ≠ promised (running .first 4) 0)) = true :=
  ⟨inv_of_check (by decide),
    next_of_gives (p := fun t => !t.gf.staleSpan && decide (promised t 0 ≠ promised (running .first 4) 0))
      (by decide)⟩

/-- The queues of HOST.TAKE; and an FBLOCK behind another command, with an incomplete one behind it: a store beside its span
and beside a declared region is admitted, one into either is not, and the incomplete FBLOCK bars nothing. -/
theorem witness_HostStoresOnlyHostMemory :
    ({ State.reset with respq := [7] } : State).respq = [7] ∧ State.reset.respq = [] ∧
    cfgWf (atCommand queuedFblock).cfg = true ∧ Queued (.ok (.fblock 0 4 0x100 0x200)) (atCommand queuedFblock).cmdq ∧
    inSpans 4 0x100 0x200 0x207 ∧
    (atCommand queuedFblock).hostMayTouch 0x108 2 = true ∧ (atCommand queuedFblock).hostMayTouch 0x107 2 = false ∧
    (atCommand queuedFblock).hostMayTouch 0xFFE 2 = true ∧ (atCommand queuedFblock).hostMayTouch 0xFFF 2 = false ∧
    (atCommand queuedFblock).hostMayTouch 0x300 2 = true :=
  ⟨rfl, rfl, by decide, .later (d' := .ok (.init 0)) rfl (.head rfl), .inr (by decide), by decide, by decide, by decide,
    by decide, by decide⟩

/-- Memory drawn to hold a byte at the last address there is. -/
theorem witness_InvHoldsAtReset : cfgWf Config.k = true ∧ memOk Config.k [(0, 1), (0x1FFF, 0xFF)] = true := by
  decide

/-- H_SAMPLE, as a step. -/
theorem witness_StepKeepsInvariant :
    Inv { running .first 0 with script := [.engHandler] } ∧
    ∃ t, step { running .first 0 with script := [.engHandler] } = .next t ∧ decide ((t.filter 0).prevOut = some 50) = true :=
  ⟨inv_of_check (by decide),
    next_of_gives (p := fun t => decide ((t.filter 0).prevOut = some 50)) (by decide +kernel)⟩

theorem witness_StepAlwaysCompletes : Inv State.reset := inv_of_check (by decide)

/-- A step from a state with ERR and GF not empty. -/
theorem witness_ErrGhostsAndConfigPersist :
    ∃ t, step { atCommand [0x10000000] with
        err := 0x08, gf := { overrun := true, seq := false, evrsv := false, staleSpan := false } } = .next t ∧
      (t.gf.overrun && decide (t.err = 0x08 ∧ t.respq = [0, 0])) = true :=
  next_of_gives (p := fun t => t.gf.overrun && decide (t.err = 0x08 ∧ t.respq = [0, 0])) (by decide)

/-- A handler's write, beside channel 0's capture buffer. -/
theorem witness_EngineNeverWritesCaptureBuffers :
    Inv (running .first 0) ∧ ofEngine .engHandler = true ∧
    (∃ t, perform .engHandler (running .first 0) = .next t ∧ decide (sampleAt t.mem 0x1100 = 50) = true) ∧
    ∃ cc ∈ (running .first 0).cfg.chans, cc.capBase.toNat ≤ 0x100F ∧ 0x100F < cc.capBase.toNat + 2 * bufN (running .first 0).cfg :=
  ⟨inv_of_check (by decide), rfl,
    next_of_gives (p := fun t => decide (sampleAt t.mem 0x1100 = 50)) (by decide +kernel), by decide⟩

theorem witness_InitialisedBankIsConstant :
    ((live 125).filter 0).initDone = true ∧
    ∃ t, step { live 125 with cmdq := [0x2000012C], script := [.engCommand] } = .next t ∧
      decide ((t.filter 0).prevOut = some 212) = true :=
  ⟨by decide, next_of_gives (p := fun t => decide ((t.filter 0).prevOut = some 212)) (by decide +kernel)⟩

/-- H_SUBMIT, which clears the latch. -/
theorem witness_ArbiterWrittenByEventsOnly :
    (∃ t, perform .engHandler (running .first 4) = .next t ∧ decide ((t.arb 0).halfLatch = none) = true) ∧
    (∀ w, Move.engHandler ≠ .event w) ∧ ∀ d, Move.engHandler ≠ .srcEvent d :=
  ⟨next_of_gives (p := fun t => decide ((t.arb 0).halfLatch = none)) (by decide), by simp, by simp⟩

/-- The state in which channel 0's handler of the first half is running, and an event that pends another channel. -/
theorem witness_LatchedHalfStaysOwned :
    latchOwned { running .first 2 with script := [.event 0x101] } ∧ (running .first 2).gf.overrun = false ∧
    ∃ t, step { running .first 2 with script := [.event 0x101] } = .next t ∧
      (!t.gf.overrun && decide ((t.arb 1).halfLatch = some .first)) = true :=
  ⟨fun _ => by decide, by decide,
    next_of_gives (p := fun t => !t.gf.overrun && decide ((t.arb 1).halfLatch = some .first)) (by decide)⟩

/-- A SampleSource that writes while the first half's handler runs. -/
theorem witness_SourceLeavesLatchedHalfAlone :
    Inv (running .first 2) ∧ latchOwned (running .first 2) ∧ (running .first 2).gf.overrun = false ∧
    (∃ cc, chanCfg (running .first 2).cfg 0 = some cc ∧ cc.registered = true) ∧
    phaseInStep (running .first 2) 0 = true ∧ ((running .first 2).arb 0).halfLatch = some .first ∧
    3 < halfH (running .first 2).cfg ∧
    ∃ t, perform (.srcWrite 0 7) (running .first 2) = .next t ∧ decide (sampleAt t.mem 0x1008 = 7) = true :=
  ⟨inv_of_check (by decide), fun _ => by decide, by decide, ⟨_, rfl, rfl⟩, by decide,
    by decide, by decide, next_of_gives (p := fun t => decide (sampleAt t.mem 0x1008 = 7)) (by decide)⟩

/-- V15: the value reaches a bound. -/
theorem witness_FilterStaysInBounds :
    s16 (bits16 (-100)) ≤ s16 100 ∧ filterValue 0x3F000000 0 (bits16 (-100)) 100 1000 = some 100 ∧
    filterValue 0x3EC88869 0x7FFF 0x8000 0x7FFF 0x7FFF = some 0x7FFF := by decide +kernel

/-- The ends of (0, 1]. -/
theorem witness_FilterIntermediatesFinite :
    alphaOk 0x00000001 = true ∧ alphaOk 0x3F800000 = true ∧ s16 (bits16 (-5)) < 0 := by decide

theorem witness_AlphaOneIsIdentity : s16 0x8000 ≤ s16 0x8000 ∧ s16 0x8000 ≤ s16 0x7FFF := by decide

theorem witness_ClampAndTruncationCommute : s16 10 ≤ s16 20 := by decide

/-- A product and a sum that are rounded. -/
theorem witness_MulAndAddRoundToNearestEven :
    (F32.fin false ((2 ^ 23 + 1) * 2 ^ 126)).mul (.fin true ((2 ^ 23 + 1) * 2 ^ 126)) =
      .fin true ((2 ^ 23 + 2) * 2 ^ 126) ∧
    (F32.fin false (2 ^ 24 - 1)).add (.fin false 2) = .fin false (2 ^ 24) := by decide +kernel

/-! ### A fair run, for the statements about liveness -/

/-- One raw channel, N = 2, in a memory of 4 bytes. -/
def loneCfg : Config :=
  { bufLength := .direct 2, cutoffHz := none, memBytes := 4, numXpt := 1
    chans := [{ registered := true, policy := .raw, capBase := 0, xport := 0,
                alphaCfg := 0x3F800000, minCfg := 0x8000, maxCfg := 0x7FFF }] }

/-- A state of that machine. -/
def loneState (eng : Eng) (latch : Option Half) (queue : List Submission) (wire : List Byte) (cmdq respq : List Word) :
    State :=
  { State.powerOn loneCfg [] [] with
    eng := eng
    arbs := [{ phase := .fillingSecond, swHalf := some .first, halfLatch := latch }]
    srcs := [{ wptr := 1, due := .none }]
    xpts := [{ queue := queue, wire := wire }]
    cmdq := cmdq
    respq := respq }

/-- The handler submits, the transport sends two bytes, `RDREG 0, ERR` is answered, the host takes the two response words,
and nothing is left to do. -/
def loneRun : Nat → State
  | 0 => loneState (.handler 0 .first 1) (some .first) [] [] [0x40000005] []
  | 1 => loneState .idle none [{ ptr := 0, len := 2, sent := 0 }] [] [0x40000005] []
  | 2 => loneState .idle none [{ ptr := 0, len := 2, sent := 1 }] [0] [0x40000005] []
  | 3 => loneState .idle none [] [0, 0] [0x40000005] []
  | 4 => loneState .idle none [] [0, 0] [] [0, 0]
  | 5 => loneState .idle none [] [0, 0] [] [0]
  | _ + 6 => loneState .idle none [] [0, 0] [] []

def loneMove : Nat → Move
  | 0 => .engHandler
  | 1 => .xptSend 0
  | 2 => .xptSend 0
  | 3 => .engCommand
  | _ + 4 => .hostTake

theorem lone_isRun : IsRun loneRun loneMove
  | 0 => rfl
  | 1 => rfl
  | 2 => rfl
  | 3 => rfl
  | 4 => rfl
  | 5 => rfl
  | _ + 6 => rfl

/-- From state 6 on the run stays where it is. -/
theorem lone_done {k : Nat} (h : 6 ≤ k) : loneRun k = loneState .idle none [] [0, 0] [] [] := by
  obtain ⟨j, rfl⟩ := Nat.exists_eq_add_of_le' h
  rfl

/-- A move disabled where the run ends is treated strongly fairly, since it is not enabled infinitely often. -/
theorem lone_strong {m : Move} (h : moveEnabled m (loneState .idle none [] [0, 0] [] []) = false) :
    StronglyFair loneRun loneMove m := by
  intro hi
  obtain ⟨j, hj, he⟩ := hi 6
  rw [lone_done hj, h] at he
  cases he

theorem lone_weak {m : Move} (h : moveEnabled m (loneState .idle none [] [0, 0] [] []) = false) :
    WeaklyFair loneRun loneMove m := by
  rintro ⟨k, hk⟩
  have he := hk (k + 6) (by omega)
  rw [lone_done (by omega), h] at he
  cases he

theorem lone_fair : Fair loneRun loneMove where
  command := lone_strong rfl
  start c := lone_strong (by cases c <;> rfl)
  handler := lone_strong rfl
  send t := lone_weak (by cases t <;> rfl)
  take := lone_weak rfl

/-- The hypotheses of CommandsAreAnswered, PendingHandlersComplete and SubmittedSpansAreSent: a fair run from a state of the
invariant with a command in CMDQ, a handler in progress, which is pending, and a span that is sent two steps later. -/
theorem witness_fair_run :
    IsRun loneRun loneMove ∧ Fair loneRun loneMove ∧ Inv (loneRun 0) ∧ (loneRun 0).eng = .handler 0 .first 1 ∧
    pend ((loneRun 0).arb 0) = true ∧ nextCommand (loneRun 0).cmdq = some (.ok (.rdreg 0 5), []) ∧
    (promised (loneRun 1) 0).length = 2 :=
  ⟨lone_isRun, lone_fair, inv_of_check (by decide), rfl, rfl, rfl, rfl⟩

/-! ### A contract-keeping run from reset, for R274 -/

/-- A raw channel 0 and a filtered channel 1, N = 2. -/
def pairCfg : Config :=
  { bufLength := .direct 2, cutoffHz := none, memBytes := 12, numXpt := 1
    chans := [
      { registered := true, policy := .raw, capBase := 0, xport := 0,
        alphaCfg := 0x3F800000, minCfg := 0x8000, maxCfg := 0x7FFF },
      { registered := true, policy := .filtered 8, capBase := 4, xport := 0,
        alphaCfg := 0x3F800000, minCfg := 0x8000, maxCfg := 0x7FFF }] }

/-- INIT 1; a whole buffer of each channel, its two events and their handlers; then nothing. -/
def pairMoves : List Move :=
  [.hostCmd 0x10100000, .engCommand] ++
    (fillHalf 0 [5] ++ wholeHandler 0 0 ++ fillHalf 0 [6] ++ wholeHandler 0 0) ++
    (fillHalf 1 [7] ++ wholeHandler 1 1 ++ fillHalf 1 [8] ++ wholeHandler 1 1)

def pairMove (k : Nat) : Move := pairMoves.getD k .hostTake

/-- After the 20 listed moves only HOST.TAKE is left. -/
theorem pair_idle {k : Nat} (h : 20 ≤ k) : pairMove k = .hostTake :=
  List.getD_eq_default _ _ (by rw [show pairMoves.length = 20 from rfl]; exact h)

/-- The state after `k` of these moves, from reset with a draw of memory. -/
def pairRun : Nat → State
  | 0 => State.powerOn pairCfg [(0, 0xAA), (8, 0xBB)] []
  | k + 1 =>
    match perform (pairMove k) (pairRun k) with
    | .next t => t
    | .fault _ => pairRun k
    | .refused _ => pairRun k

theorem pair_isRun : IsRun pairRun pairMove := by
  intro k
  have h : gives (perform (pairMove k) (pairRun k)) (fun _ => true) = true := by
    by_cases hk : k < 20
    · revert k; decide +kernel
    · rw [pair_idle (by omega)]; rfl
  obtain ⟨t, ht, -⟩ := next_of_gives h
  rw [pairRun, ht]

theorem pair_contractual (k : Nat) : contractual (pairMove k) = true := by
  by_cases hk : k < 20
  · revert k; decide
  · rw [pair_idle (by omega)]; rfl

/-- The hypotheses of SubmittedBytesWereWritten, with a step of each of its clauses: the two events of a channel, and an
H_SUBMIT of the second half of a raw and of a filtered one. -/
theorem witness_SubmittedBytesWereWritten :
    cfgWf pairCfg = true ∧ pairRun 0 = State.powerOn pairCfg [(0, 0xAA), (8, 0xBB)] [] ∧ IsRun pairRun pairMove ∧
    (∀ k, contractual (pairMove k) = true) ∧
    (pairMove 3 = .srcEvent 0 ∧ ((pairRun 3).src 0).due = .half) ∧
    (pairMove 7 = .srcEvent 0 ∧ ((pairRun 7).src 0).due = .full) ∧
    (pairMove 9 = .engHandler ∧ (pairRun 9).eng = .handler 0 .second (halfH pairCfg)) ∧
    (pairMove 19 = .engHandler ∧ (pairRun 19).eng = .handler 1 .second (halfH pairCfg)) ∧
    ((pairRun 20).xpt 0).queue.length = 4 :=
  ⟨by decide +kernel, rfl, pair_isRun, pair_contractual, by decide +kernel, by decide +kernel, by decide +kernel,
    by decide +kernel, by decide +kernel⟩

end Sys2Proof.Tests
end

section
/-! PROOFS. Rounding to binary32 is correct (R21, R132), and the default coefficient at 5000 Hz (R12). -/

namespace Sys2Proof.Machine

/-! ### The grid of binary32 values -/

/-- A binary32 magnitude is a whole multiple of `2^d`, or is so small that its 24 bits reach below `2^d`. -/
theorem isBinary32_grid {a : Nat} (h : isBinary32 a) (d : Nat) : 2 ^ d ∣ a ∨ (0 < d ∧ a < 2 ^ (d + 23)) := by
  obtain ⟨f, e, rfl, hf, -⟩ := h
  rcases Nat.lt_or_ge e d with he | he
  · refine .inr ⟨by omega, ?_⟩
    calc f * 2 ^ e < 2 ^ 24 * 2 ^ e := Nat.mul_lt_mul_of_pos_right hf (Nat.two_pow_pos e)
      _ = 2 ^ (e + 24) := by rw [← Nat.pow_add, Nat.add_comm]
      _ ≤ 2 ^ (d + 23) := Nat.pow_le_pow_right (by omega) (by omega)
  · exact .inl (Dvd.dvd.mul_left (Nat.pow_dvd_pow 2 he) f)

theorem isBinary32_zero : isBinary32 0 := ⟨0, 0, rfl, by decide, by decide⟩

theorem pow_dropBits_split (m u : Nat) : 2 ^ (dropBits m u - u) * 2 ^ u = 2 ^ dropBits m u := by
  rw [← Nat.pow_add, Nat.sub_add_cancel (le_dropBits m u)]

/-- What is not dropped is 24 bits. -/
theorem lt_pow_dropBits (m u : Nat) : m < 2 ^ (dropBits m u + 24) := by
  have h : m.log2 - 23 ≤ dropBits m u := Nat.le_max_right _ _
  exact Nat.lt_of_lt_of_le Nat.lt_log2_self (Nat.pow_le_pow_right (by omega) (by omega))

/-- Bits above the lowest binary32 place are dropped only from a magnitude of more than 24 bits. -/
theorem pow_dropBits_le {m u : Nat} (h : u < dropBits m u) : 2 ^ (dropBits m u + 23) ≤ m := by
  have hd : dropBits m u + 23 = m.log2 := by unfold dropBits at h ⊢; omega
  rw [hd]
  refine Nat.log2_self_le ?_
  rintro rfl
  simp at hd

/-- No binary32 value lies strictly between the two neighbours of `m` on the grid that rounding uses. -/
theorem isBinary32_gap {a : Nat} (h : isBinary32 a) (m u : Nat) :
    a * 2 ^ u ≤ m / 2 ^ dropBits m u * 2 ^ dropBits m u ∨
    (m / 2 ^ dropBits m u + 1) * 2 ^ dropBits m u ≤ a * 2 ^ u := by
  have hs := pow_dropBits_split m u
  rcases isBinary32_grid h (dropBits m u - u) with ⟨k, rfl⟩ | ⟨hd, ha⟩
  · rw [Nat.mul_right_comm, hs, Nat.mul_comm _ k]
    rcases Nat.lt_or_ge (m / 2 ^ dropBits m u) k with hk | hk
    · exact .inr (Nat.mul_le_mul_right _ hk)
    · exact .inl (Nat.mul_le_mul_right _ hk)
  · refine .inl ?_
    have hq : 2 ^ 23 ≤ m / 2 ^ dropBits m u := by
      rw [Nat.le_div_iff_mul_le (Nat.two_pow_pos _), ← Nat.pow_add, Nat.add_comm]
      exact pow_dropBits_le (by omega)
    calc a * 2 ^ u ≤ 2 ^ (dropBits m u - u + 23) * 2 ^ u := Nat.mul_le_mul_right _ ha.le
      _ = 2 ^ 23 * 2 ^ dropBits m u := by rw [← hs]; ring
      _ ≤ _ := Nat.mul_le_mul_right _ hq

/-- The same gap for a value of either sign. -/
theorem int_gap {z : Int} (h : isBinary32 z.natAbs) (m u : Nat) :
    z * 2 ^ u ≤ (m / 2 ^ dropBits m u * 2 ^ dropBits m u : Nat) ∨
    ((m / 2 ^ dropBits m u + 1) * 2 ^ dropBits m u : Nat) ≤ z * 2 ^ u := by
  rcases Int.le_total 0 z with hz | hz
  · obtain ⟨a, rfl⟩ := Int.eq_ofNat_of_zero_le hz
    exact_mod_cast isBinary32_gap h m u
  · exact .inl (Int.le_trans (mul_nonpos_of_nonpos_of_nonneg hz (by positivity)) (Int.natCast_nonneg _))

/-! ### One rounding is correct (R21) -/

/-- An integer that is not strictly between the two multiples of `2^q` around `m` is no nearer to `m` than the rounded
one, and as near only if it is the same or the rounded quotient is even. -/
theorem roundEven_nearest {m q : Nat} {z : Int}
    (h : z ≤ (m / 2 ^ q * 2 ^ q : Nat) ∨ ((m / 2 ^ q + 1) * 2 ^ q : Nat) ≤ z) :
    |((roundEven m q * 2 ^ q : Nat) : Int) - m| < |z - m| ∨ z = (roundEven m q * 2 ^ q : Nat) ∨
    (|((roundEven m q * 2 ^ q : Nat) : Int) - m| = |z - m| ∧ roundEven m q % 2 = 0) := by
  have hm : m / 2 ^ q * 2 ^ q + m % 2 ^ q = m := Nat.div_add_mod' m (2 ^ q)
  have hr : m % 2 ^ q < 2 ^ q := Nat.mod_lt _ (Nat.two_pow_pos q)
  rw [Nat.succ_mul] at h
  simp only [Int.abs_eq_natAbs]
  unfold roundEven
  split
  · omega
  · split
    · rw [Nat.succ_mul]; omega
    · rcases Nat.mod_two_eq_zero_or_one (m / 2 ^ q) with h2 | h2
      · rw [h2, Nat.add_zero]; omega
      · rw [h2, Nat.succ_mul]; omega

/-- The value of sign `r` and magnitude `v` is binary32, no other is nearer to `x` (in units of 2^-(149+u)), and of two
equally near it is the one with the even significand. -/
def CorrectlyRounded (x : Int) (u : Nat) (r : Bool) (v : Nat) : Prop :=
  isBinary32 v ∧ ∀ z : Int, isBinary32 z.natAbs →
    |signed r v * 2 ^ u - x| < |z * 2 ^ u - x| ∨ z = signed r v ∨
    (|signed r v * 2 ^ u - x| = |z * 2 ^ u - x| ∧ evenSignificand v)

/-- The rounded quotient has 24 bits at most, or is 2^24. -/
theorem roundEven_dropBits_le (m u : Nat) : roundEven m (dropBits m u) ≤ 2 ^ 24 :=
  roundEven_le (by rw [← Nat.pow_add, Nat.add_comm]; exact (lt_pow_dropBits m u).le)

theorem le_roundEven_dropBits {m u : Nat} (h : u < dropBits m u) : 2 ^ 23 ≤ roundEven m (dropBits m u) :=
  le_roundEven (by rw [← Nat.pow_add, Nat.add_comm]; exact pow_dropBits_le h)

/-- A power of two that a smaller product holds bounds its exponent. -/
theorem lt_of_pow_mul_lt {f e k n : Nat} (hf : 2 ^ k ≤ f) (h : f * 2 ^ e < 2 ^ n) : k + e < n :=
  (Nat.pow_lt_pow_iff_right (by decide : 1 < 2)).1 <| by
    rw [Nat.pow_add]; exact Nat.lt_of_le_of_lt (Nat.mul_le_mul_right _ hf) h

/-- A significand of 24 bits, or 2^24 itself, with a value below 2^277 gives a binary32 value; where it is even, so is the
significand of that value. -/
theorem isBinary32_of_significand {f e : Nat} (hf : f ≤ 2 ^ 24) (he : 0 < e → 2 ^ 23 ≤ f) (h : f * 2 ^ e < 2 ^ 277) :
    isBinary32 (f * 2 ^ e) ∧ (f % 2 = 0 → evenSignificand (f * 2 ^ e)) := by
  have expo : ∀ k, 2 ^ k ≤ f → k + e < 277 := fun k hk => lt_of_pow_mul_lt hk h
  rcases Nat.lt_or_eq_of_le hf with hlt | rfl
  · have hn : 2 ^ 23 ≤ f ∨ e = 0 := by omega
    refine ⟨⟨f, e, rfl, hlt, ?_⟩, fun h2 => ⟨f, e, rfl, h2, hlt, hn⟩⟩
    rcases hn with hn | rfl
    · have := expo 23 hn
      omega
    · omega
  · have hs : 2 ^ 24 * 2 ^ e = 2 ^ 23 * 2 ^ (e + 1) := by ring
    have := expo 24 (Nat.le_refl _)
    exact ⟨⟨2 ^ 23, e + 1, hs, by decide, by omega⟩,
      fun _ => ⟨2 ^ 23, e + 1, hs, by decide, by decide, .inl (Nat.le_refl _)⟩⟩

theorem natAbs_signed (neg : Bool) (m : Nat) : (signed neg m).natAbs = m := by cases neg <;> simp [signed]

theorem signed_neg (neg : Bool) (m : Nat) : signed (!neg) m = -signed neg m := by cases neg <;> simp [signed]

theorem signed_not_lt_zero (i : Int) : signed (decide (i < 0)) i.natAbs = i := by
  unfold signed
  by_cases h : i < 0
  · rw [if_pos (by simpa using h)]; omega
  · rw [if_neg (by simpa using h)]; omega

theorem signed_mul_signed (n k : Bool) (a b : Nat) : signed n a * signed k b = signed (n != k) (a * b) := by
  cases n <;> cases k <;> simp [signed]

/-- Being correctly rounded does not depend on the sign. -/
theorem CorrectlyRounded.neg {x : Int} {u v : Nat} {r : Bool} (h : CorrectlyRounded x u r v) :
    CorrectlyRounded (-x) u (!r) v := by
  obtain ⟨hv, hz⟩ := h
  refine ⟨hv, fun z hb => ?_⟩
  have hflip : ∀ y : Int, |-y * 2 ^ u - -x| = |y * 2 ^ u - x| := fun y => by rw [← abs_neg]; congr 1; ring
  have hnz := hz (-z) (by rwa [Int.natAbs_neg])
  rw [← hflip (-z), neg_neg, neg_eq_iff_eq_neg] at hnz
  rwa [signed_neg, hflip]

/-- The magnitude `F32.round` computes, where it does not overflow, is the exact one correctly rounded. -/
theorem roundEven_correctlyRounded {m u : Nat}
    (h : roundEven m (dropBits m u) * 2 ^ (dropBits m u - u) < 2 ^ 277) :
    CorrectlyRounded m u false (roundEven m (dropBits m u) * 2 ^ (dropBits m u - u)) := by
  obtain ⟨hb, heven⟩ := isBinary32_of_significand (roundEven_dropBits_le m u)
    (fun he => le_roundEven_dropBits (by omega)) h
  refine ⟨hb, fun z hz => ?_⟩
  have hnear := roundEven_nearest (int_gap hz m u)
  have hscale : ((roundEven m (dropBits m u) * 2 ^ dropBits m u : Nat) : Int) =
      signed false (roundEven m (dropBits m u) * 2 ^ (dropBits m u - u)) * 2 ^ u := by
    rw [← pow_dropBits_split m u, ← Nat.mul_assoc]
    simp [signed]
  rw [hscale] at hnear
  rcases hnear with hlt | heq | ⟨heq, h2⟩
  · exact .inl hlt
  · exact .inr (.inl (mul_right_cancel₀ (by positivity) heq))
  · exact .inr (.inr ⟨heq, heven h2⟩)

/-- A finite result of `F32.round` is the exact value correctly rounded (R21). -/
theorem round_correctlyRounded {neg r : Bool} {m u v : Nat} (h : F32.round neg m u = .fin r v) :
    CorrectlyRounded (signed neg m) u r v := by
  unfold F32.round at h
  split at h
  · next hlt =>
    obtain ⟨rfl, rfl⟩ := F32.fin.inj h
    cases neg
    · exact roundEven_correctlyRounded hlt
    · exact (roundEven_correctlyRounded hlt).neg
  · cases h

theorem correctlyRounded_zero (r : Bool) : CorrectlyRounded 0 0 r 0 := by
  refine ⟨isBinary32_zero, fun z _ => ?_⟩
  have hs : signed r 0 = 0 := by cases r <;> rfl
  rw [hs]
  by_cases hz : z = 0
  · exact .inr (.inl hz)
  · exact .inl (by simpa using hz)

theorem add_fin (n k : Bool) (a b : Nat) : (F32.fin n a).add (.fin k b) =
    if signed n a + signed k b = 0 then .fin (n && k) 0
    else .round (decide (signed n a + signed k b < 0)) (signed n a + signed k b).natAbs 0 := rfl

/-- Settles O56: both operations round their exact result once. -/
theorem mulAndAddRoundToNearestEven : Obligations.MulAndAddRoundToNearestEven := by
  refine ⟨fun n k r a b v h => ?_, fun n k r a b v h => ?_⟩
  · rw [signed_mul_signed]
    exact round_correctlyRounded h
  · suffices hc : CorrectlyRounded (signed n a + signed k b) 0 r v by
      simpa only [CorrectlyRounded, pow_zero, mul_one] using hc
    rw [add_fin] at h
    split at h
    · next h0 =>
      obtain ⟨-, rfl⟩ := F32.fin.inj h
      rw [h0]
      exact correctlyRounded_zero r
    · rw [← signed_not_lt_zero (_ + _)]
      exact round_correctlyRounded h

/-! ### The default coefficient (R12) -/

/-- Every finite pattern stands for a binary32 magnitude. -/
theorem isBinary32_of_ofBits {w : Word} {neg : Bool} {mag : Nat} (h : F32.ofBits w = .fin neg mag) :
    isBinary32 mag := by
  have hf : w.toNat % 2 ^ 23 < 2 ^ 23 := Nat.mod_lt _ (by decide)
  rw [ofBits_fields] at h
  split at h
  · split at h <;> cases h
  · split at h
    · cases h
      exact ⟨_, 0, (Nat.mul_one _).symm, by omega, by omega⟩
    · cases h
      exact ⟨_, _, rfl, by omega, by omega⟩

/-- A binary32 value other than `f * 2^d`, where `f` has 24 bits and is not the least such, is at least `2^d` away. -/
theorem two_pow_le_abs_sub {z : Int} {f d : Nat} (h : isBinary32 z.natAbs) (hf : 2 ^ 23 < f) (hne : z ≠ f * 2 ^ d) :
    2 ^ d ≤ |z - f * 2 ^ d| := by
  rcases isBinary32_grid h d with hd | ⟨-, hlt⟩
  · have hz : (2 : Int) ^ d ∣ z := by
      rw [← Int.dvd_natAbs]
      exact_mod_cast hd
    exact Int.le_of_dvd (abs_pos.2 (sub_ne_zero.2 hne)) ((dvd_abs _ _).2 (hz.sub (dvd_mul_left _ _)))
  · have hz : z < 2 ^ (d + 23) := Int.lt_of_le_of_lt Int.le_natAbs (by exact_mod_cast hlt)
    have hm : (2 ^ 23 + 1) * 2 ^ d ≤ (f : Int) * 2 ^ d := mul_le_mul_of_nonneg_right (by omega) (by positivity)
    rw [pow_add] at hz
    exact le_abs.2 (.inr (by linarith))

/-- A pattern whose value is within half a unit in the last place of a real number is the nearest to it. -/
theorem nearestBinary32_of_close {w : Word} {f d : Nat} {r : ℝ} (hw : F32.ofBits w = .fin false (f * 2 ^ d))
    (hf : 2 ^ 23 < f) (h : |(f * 2 ^ d : ℝ) / 2 ^ 149 - r| < 2 ^ d / 2 ^ 149 / 2) : NearestBinary32 r w := by
  refine ⟨false, f * 2 ^ d, hw, fun w' neg' mag' hw' hne => .inl ?_⟩
  have hv : signed false (f * 2 ^ d) = f * 2 ^ d := by simp [signed]
  rw [hv] at hne ⊢
  have hb : isBinary32 (signed neg' mag').natAbs := by
    rw [natAbs_signed]
    exact isBinary32_of_ofBits hw'
  have hfar : (2 : ℝ) ^ d ≤ |(signed neg' mag' : ℝ) - f * 2 ^ d| := by exact_mod_cast two_pow_le_abs_sub hb hf hne
  have hscaled : (2 : ℝ) ^ d / 2 ^ 149 ≤ |(signed neg' mag' : ℝ) / 2 ^ 149 - f * 2 ^ d / 2 ^ 149| := by
    rw [← sub_div, abs_div, abs_of_pos (by positivity : (0 : ℝ) < 2 ^ 149)]
    exact div_le_div_of_nonneg_right hfar (by positivity)
  have htri := abs_sub_le ((signed neg' mag' : ℝ) / 2 ^ 149) r (f * 2 ^ d / 2 ^ 149)
  rw [abs_sub_comm r] at htri
  push_cast
  linarith

/-- The exact coefficient lies within half a unit in the last place of 0x9ABACC times 2^-24. -/
theorem alpha5000_close :
    |((0x9ABACC : ℕ) * 2 ^ 125 : ℝ) / 2 ^ 149 - 1 / (1 + 2 * Real.pi * 5000 / (48000 : ℕ))| < 2 ^ 125 / 2 ^ 149 / 2 := by
  have hlo := Real.pi_gt_d20
  have hhi := Real.pi_lt_d20
  have hpos : (0 : ℝ) < 1 + 2 * Real.pi * 5000 / (48000 : ℕ) := by positivity
  rw [abs_sub_lt_iff]
  constructor
  · rw [sub_lt_comm, lt_div_iff₀ hpos]
    norm_num
    linarith
  · rw [sub_lt_iff_lt_add, div_lt_iff₀ hpos]
    norm_num
    linarith

/-- Settles O57: pi to 20 places puts the exact coefficient within half a unit in the last place of the pattern's value. -/
theorem defaultAlphaAt5000Hz : Obligations.DefaultAlphaAt5000Hz :=
  nearestBinary32_of_close (f := 0x9ABACC) (d := 125) rfl (by decide) alpha5000_close

end Sys2Proof.Machine
end

section
/-! PROOFS. Which configurations the step refuses (R8, R13). -/

namespace Sys2Proof.Machine

/-! ### The checks of a configuration, each by what fails it (R8, R13) -/

section
variable {cfg : Config}

theorem rangesOk_eq_false : rangesOk cfg = false ↔
    (cfg.memBytes % 2 = 1 ∨ cfg.memBytes < 2 ∨ 2 ^ 32 < cfg.memBytes) ∨
    (∃ rate channels frames, cfg.bufLength = .computed rate channels frames ∧ (rate = 0 ∨ channels = 0 ∨ frames = 0)) ∨
    (∃ f : Rat, cfg.cutoffHz = some (.rational f) ∧ f < 0) := by
  have hmem : (decide (cfg.memBytes % 2 = 0) && decide (2 ≤ cfg.memBytes) && decide (cfg.memBytes ≤ 2 ^ 32)) = false ↔
      cfg.memBytes % 2 = 1 ∨ cfg.memBytes < 2 ∨ 2 ^ 32 < cfg.memBytes := by
    simp only [Bool.and_eq_false_iff, decide_eq_false_iff_not]
    omega
  unfold rangesOk
  rw [Bool.and_eq_false_iff, Bool.and_eq_false_iff, hmem, or_assoc]
  refine or_congr_right (or_congr ?_ ?_)
  · cases cfg.bufLength with
    | direct n => simp
    | computed rate channels frames => simp [Bool.and_eq_false_iff, -Bool.and_eq_false_imp, or_assoc]
  · rcases cfg.cutoffHz with _ | f | k <;> simp

theorem wf1_eq_false : wf1 cfg = false ↔ bufN cfg % 2 = 1 ∨ bufN cfg < 2 := by
  simp only [wf1, Bool.and_eq_false_iff, decide_eq_false_iff_not]
  omega

theorem wf2_eq_false : wf2 cfg = false ↔
    ∃ rate channels frames, cfg.bufLength = .computed rate channels frames ∧ rate % 1000 ≠ 0 := by
  unfold wf2
  cases cfg.bufLength <;> simp

theorem wf3_eq_false : wf3 cfg = false ↔ numCh cfg = 0 ∨ 256 < numCh cfg ∨ cfg.numXpt = 0 := by
  simp only [wf3, Bool.and_eq_false_iff, decide_eq_false_iff_not]
  omega

theorem alphaOk_eq_false {w : Word} : alphaOk w = false ↔ w.toNat = 0 ∨ 0x3F800000 < w.toNat := by
  rw [← Bool.not_eq_true, alphaOk_iff]
  omega

theorem wf4_eq_false : wf4 cfg = false ↔
    ∃ cc ∈ cfg.chans, cc.alphaCfg.toNat = 0 ∨ 0x3F800000 < cc.alphaCfg.toNat := by
  simp only [wf4, List.all_eq_false, Bool.not_eq_true, alphaOk_eq_false]

theorem wf5_eq_false : wf5 cfg = false ↔ ∃ cc ∈ cfg.chans, s16 cc.maxCfg < s16 cc.minCfg := by
  simp [wf5, s16]

theorem baseOk_eq_false {b : Addr} :
    baseOk cfg b = false ↔ b.toNat % 2 = 1 ∨ cfg.memBytes < b.toNat + 2 * bufN cfg := by
  simp only [baseOk, Bool.and_eq_false_iff, decide_eq_false_iff_not]
  omega

theorem wf6_eq_false : wf6 cfg = false ↔
    ∃ cc ∈ cfg.chans, ∃ b, isBuffer cc b ∧ (b.toNat % 2 = 1 ∨ cfg.memBytes < b.toNat + 2 * bufN cfg) := by
  simp only [wf6, List.all_eq_false, Bool.not_eq_true, Bool.and_eq_false_iff, ← baseOk_eq_false, isBuffer, or_and_right,
    exists_or, exists_eq_left]
  refine exists_congr fun cc => and_congr_right fun _ => or_congr_right ?_
  cases cc.policy <;> simp

theorem overlaps_bufRegion {b e : Addr} :
    overlaps (bufRegion cfg b).1 (bufRegion cfg b).2 (bufRegion cfg e).1 (bufRegion cfg e).2 = true ↔
      buffersMeet cfg b e := overlaps_iff

/-- A channel's own regions meet only where it has both a capture and an output buffer. -/
theorem chanRegions_meet {cc : ChannelCfg} :
    (¬ (chanRegions cfg cc).Pairwise fun r q => overlaps r.1 r.2 q.1 q.2 = false) ↔
      ∃ out, cc.policy = .filtered out ∧ buffersMeet cfg cc.capBase out := by
  unfold chanRegions
  cases cc.policy <;> simp [overlaps_bufRegion]

theorem wf7_eq_false : wf7 cfg = false ↔
    (∃ cc ∈ cfg.chans, ∃ out, cc.policy = .filtered out ∧ buffersMeet cfg cc.capBase out) ∨
    (∃ c d cc dd b e, c < d ∧ chanCfg cfg c = some cc ∧ chanCfg cfg d = some dd ∧
      isBuffer cc b ∧ isBuffer dd e ∧ buffersMeet cfg b e) := by
  rw [← Bool.not_eq_true, wf7, disjointAll_iff, regions, List.pairwise_flatMap, not_and_or]
  refine or_congr ?_ ?_
  · simp only [not_forall, exists_prop, chanRegions_meet]
  · simp only [List.pairwise_iff_getElem, not_forall, Bool.not_eq_false, mem_chanRegions, exists_prop]
    constructor
    · rintro ⟨c, d, hc, hd, hlt, _, ⟨b, hb, rfl⟩, _, ⟨e, he, rfl⟩, hmeet⟩
      exact ⟨c, d, _, _, b, e, hlt, List.getElem?_eq_getElem hc, List.getElem?_eq_getElem hd, hb, he,
        overlaps_bufRegion.1 hmeet⟩
    · rintro ⟨c, d, cc, dd, b, e, hlt, hc, hd, hb, he, hmeet⟩
      obtain ⟨hcl, rfl⟩ := List.getElem?_eq_some_iff.1 hc
      obtain ⟨hdl, rfl⟩ := List.getElem?_eq_some_iff.1 hd
      exact ⟨c, d, hcl, hdl, hlt, _, ⟨b, hb, rfl⟩, _, ⟨e, he, rfl⟩, overlaps_bufRegion.2 hmeet⟩

theorem wf8_eq_false : wf8 cfg = false ↔ ∃ cc ∈ cfg.chans, cfg.numXpt ≤ cc.xport := by
  simp [wf8]

/-- A configuration is ill formed when one of its nine checks fails. -/
theorem cfgWf_eq_false : cfgWf cfg = false ↔
    rangesOk cfg = false ∨ wf1 cfg = false ∨ wf2 cfg = false ∨ wf3 cfg = false ∨ wf4 cfg = false ∨ wf5 cfg = false ∨
      wf6 cfg = false ∨ wf7 cfg = false ∨ wf8 cfg = false := by
  simp only [cfgWf, Bool.and_eq_false_iff, or_assoc]

end

/-- Settles O13: the step refuses when one of the nine checks fails, and each check fails as the statement writes out; the
statement only groups the failures by what they are about. -/
theorem illFormedConfigRefused : Obligations.IllFormedConfigRefused := by
  intro s
  rw [step_refused_iff, cfgWf_eq_false, rangesOk_eq_false, wf1_eq_false, wf2_eq_false, wf3_eq_false, wf4_eq_false,
    wf5_eq_false, wf6_eq_false, wf7_eq_false, wf8_eq_false]
  simp only [and_or_left, exists_or]
  exact iff_of_eq (by ac_rfl)

end Sys2Proof.Machine
end

section
/-! PROOFS. What one step can do to the state, said once: every move is a chain of elementary updates, each under the
condition the move has checked before it. -/

namespace Sys2Proof.Machine

/-! ### The elementary updates -/

/-- One elementary update of the state, under the condition on which moves make it. The flag is `true` for the updates that
only the acceptance of an event makes (R178). -/
inductive Update : Bool → State → State → Prop where
  | ports {ev : Bool} {s : State} (cmdq respq : List Word) (script : List Move) (draws : Nat) :
      Update ev s { s with cmdq := cmdq, respq := respq, script := script, draws := draws }
  | status {ev : Bool} {s : State} (st : Status) : Update ev s (s.noteStatus st)
  /-- INIT's load of a bank that is not initialised (R140). -/
  | load {ev : Bool} {s : State} {c : Nat} {cc : ChannelCfg} : chanCfg s.cfg c = some cc →
      (s.filter c).initDone = false →
      Update ev s (s.setFilter c (liveBank cc.alphaCfg 0 cc.minCfg cc.maxCfg))
  /-- The write of PREV_OUT by FS (R137). -/
  | sample {ev : Bool} {s : State} {c : Nat} {cc : ChannelCfg} {x y : Sample} : chanCfg s.cfg c = some cc →
      (s.filter c).fs x = some y → Update ev s (s.setFilter c { s.filter c with prevOut := some y })
  | store {ev : Bool} {s : State} {a : Nat} {bs : List Byte} : a + bs.length ≤ s.cfg.memBytes →
      Update ev s (s.storeBytes a bs)
  /-- The latch cleared at the end of a handler (R184, R185). -/
  | unlatch {ev : Bool} {s : State} {c : Nat} {cc : ChannelCfg} : chanCfg s.cfg c = some cc → s.eng = .idle →
      Update ev s (s.setArb c { s.arb c with halfLatch := none })
  | idle {ev : Bool} {s : State} : Update ev s (s.setEng .idle)
  | startRaw {ev : Bool} {s : State} {c : Nat} {cc : ChannelCfg} {h : Half} : chanCfg s.cfg c = some cc →
      (s.arb c).halfLatch = some h → cc.policy = .raw → Update ev s (s.setEng (.handler c h (halfH s.cfg)))
  | startFiltered {ev : Bool} {s : State} {c : Nat} {cc : ChannelCfg} {h : Half} {out : Addr} :
      chanCfg s.cfg c = some cc → (s.arb c).halfLatch = some h → cc.policy = .filtered out →
      (s.filter c).initDone = true → Update ev s (s.setEng (.handler c h 0))
  | advance {ev : Bool} {s : State} {c : Nat} {cc : ChannelCfg} {h : Half} {i : Nat} {out : Addr} :
      s.eng = .handler c h i → chanCfg s.cfg c = some cc → cc.policy = .filtered out → i < halfH s.cfg →
      Update ev s (s.setEng (.handler c h (i + 1)))
  | submit {ev : Bool} {s : State} {c : Nat} {cc : ChannelCfg} (h : Half) : chanCfg s.cfg c = some cc →
      Update ev s (s.submit cc.xport (submitPtr s.cfg cc h) (submitLen s.cfg))
  | send {ev : Bool} {s : State} {x : Nat} {q : Submission} {rest : List Submission} (wire : List Byte) :
      (s.xpt x).queue = q :: rest → Update ev s (s.setXpt x { queue := queueAfterSend q rest, wire := wire })
  | sourceWrite {ev : Bool} {s : State} {c : Nat} {cc : ChannelCfg} : chanCfg s.cfg c = some cc →
      (s.src c).due = .none → Update ev s (s.setSrc c ((s.src c).afterWrite s.cfg))
  | sourceEvent {ev : Bool} {s : State} {c : Nat} {cc : ChannelCfg} : chanCfg s.cfg c = some cc →
      Update ev s (s.clearDue c)
  | reservedEvent {s : State} : Update true s (s.ghostIf true .evrsv)
  | accept {s : State} (id : ChanId) {h : Half} {ph : Phase} : (h = .first ↔ ph = .fillingSecond) →
      Update true s (s.accept id h ph)

/-- A chain of elementary updates. -/
abbrev Updates (ev : Bool) : State → State → Prop := Relation.ReflTransGen (Update ev)

/-- Whether a move accepts an event (R170, R212). -/
def acceptsEvent : Move → Bool
  | .event _ => true
  | .srcEvent _ => true
  | .engCommand => false
  | .engStart _ => false
  | .engHandler => false
  | .srcWrite _ _ => false
  | .xptSend _ => false
  | .hostCmd _ => false
  | .hostTake => false
  | .hostStore _ _ => false
  | .hostLoad _ _ => false

/-! ### What an accepted event leaves alone (R178) -/

section
variable (s : State) (id : ChanId) (h : Half) (ph : Phase)

@[simp] theorem accept_cfg : (s.accept id h ph).cfg = s.cfg := by unfold State.accept; split <;> simp
@[simp] theorem accept_eng : (s.accept id h ph).eng = s.eng := by unfold State.accept; split <;> simp
@[simp] theorem accept_filters : (s.accept id h ph).filters = s.filters := by unfold State.accept; split <;> simp
@[simp] theorem accept_err : (s.accept id h ph).err = s.err := by unfold State.accept; split <;> simp
@[simp] theorem accept_mem : (s.accept id h ph).mem = s.mem := by unfold State.accept; split <;> simp
@[simp] theorem accept_srcs : (s.accept id h ph).srcs = s.srcs := by unfold State.accept; split <;> simp
@[simp] theorem accept_xpts : (s.accept id h ph).xpts = s.xpts := by unfold State.accept; split <;> simp

end

/-! ### The moves as chains of updates -/

section
variable {ev : Bool} {s t : State}

theorem updates_respond (st : Status) (d : Word) : Updates ev s (s.respond st d) :=
  .single (.ports s.cmdq _ s.script s.draws)

theorem updates_raise (st : Status) : Updates ev s (s.raise st) :=
  .trans (.single (.status st)) (updates_respond st 0)

theorem updates_afterMove {c dst : Nat} {cc : ChannelCfg} {x y : Sample} (hc : chanCfg s.cfg c = some cc)
    (hy : (s.filter c).fs x = some y) (hdst : dst + 2 ≤ s.cfg.memBytes) : Updates ev s (afterMove s c dst y) :=
  .tail (.single (.sample hc hy)) (.store hdst)

theorem updates_filterMove {c src dst : Nat} {cc : ChannelCfg} (hc : chanCfg s.cfg c = some cc)
    (h : s.filterMove c src dst = .ok t) : Updates ev s t := by
  obtain ⟨-, hdst, y, hy, rfl⟩ := filterMove_ok_iff.1 h
  exact updates_afterMove hc hy hdst

theorem updates_filterLoop {c n src dst : Nat} {cc : ChannelCfg} (hc : chanCfg s.cfg c = some cc)
    (h : filterLoop c n src dst s = .ok t) : Updates ev s t := by
  refine (filterLoop_induct (P := fun u => Updates ev s u ∧ u.cfg = s.cfg) (fun k u v _ hu hv => ?_) ⟨.refl, rfl⟩ h).1
  obtain ⟨hsu, hcfg⟩ := hu
  obtain ⟨-, -, y, -, rfl⟩ := filterMove_ok_iff.1 hv
  exact ⟨hsu.trans (updates_filterMove (hcfg ▸ hc) hv), by simpa [afterMove] using hcfg⟩

/-- Every instruction's meaning is a chain of updates, of an event only at the event port. -/
theorem updates_exec {i : Instr} (h : exec i s = .next t) : Updates (decide (i.port = .event)) s t := by
  cases i with
  | init ch =>
    replace h : execInit ch s = .next t := h
    rcases execInit_cases ch s with ⟨-, e⟩ | ⟨cc, -, -, e⟩ | ⟨cc, hc, hi, e⟩ <;> rw [e] at h <;> cases h
    · exact updates_raise _
    · exact updates_raise _
    · exact .trans (.single (.load hc hi)) (updates_respond .ok 0)
  | fsample ch x =>
    rcases execFsample_cases h with ⟨-, rfl⟩ | ⟨cc, -, -, rfl⟩ | ⟨cc, y, hc, -, hy, rfl⟩
    · exact updates_raise _
    · exact updates_raise _
    · exact .trans (.single (.sample hc hy)) (updates_respond .ok _)
  | fblock ch size src dst =>
    rcases execFblock_cases h with ⟨-, rfl⟩ | ⟨st, -, -, rfl⟩ | ⟨cc, u, hc, -, hu, rfl⟩
    · exact updates_raise _
    · exact updates_raise _
    · exact (updates_filterLoop hc hu).trans (updates_respond .ok 0)
  | rdreg ch sel =>
    rcases execRdreg_cases h with ⟨st, -, rfl⟩ | ⟨d, rfl⟩
    · exact updates_raise _
    · exact updates_respond _ _
  | evHalf id => cases h; exact .single (.accept id (by simp))
  | evFull id => cases h; exact .single (.accept id (by simp))

/-- What the command port decodes is a command (R109). -/
theorem decodeCommand_port {w0 w1 w2 : Word} {i : Instr} (h : decodeCommand w0 w1 w2 = .ok i) : i.port = .command := by
  unfold decodeCommand at h
  repeat' split at h
  all_goals cases h
  all_goals rfl

theorem nextCommand_port {q rest : List Word} {i : Instr} (h : nextCommand q = some (.ok i, rest)) :
    i.port = .command := by
  unfold nextCommand at h
  repeat' split at h
  all_goals simp only [reduceCtorEq, Option.some.injEq, Prod.mk.injEq] at h
  all_goals exact decodeCommand_port h.1

theorem updates_engCommand (h : s.engCommand = .next t) : Updates false s t := by
  have take (rest : List Word) : Updates false s { s with cmdq := rest } := .single (.ports rest s.respq s.script s.draws)
  rcases engCommand_cases s with e | ⟨i, rest, -, hq, e⟩ | ⟨_, rest, -, -, e⟩ <;> rw [e] at h
  · cases h; exact .refl
  · have hi := updates_exec h
    rw [nextCommand_port hq] at hi
    exact (take rest).trans hi
  · cases h; exact (take rest).trans (updates_raise .illegal)

theorem updates_hStart (c : Nat) : Updates ev s (s.hStart c) := by
  rcases hStart_cases s c with e | ⟨cc, h, -, hc, hl, hp, e⟩ | ⟨cc, h, out, -, hc, hl, hp, hi, e⟩ |
    ⟨cc, h, out, he, hc, -, -, -, e⟩ <;> rw [e]
  · exact .single (.startRaw hc hl hp)
  · exact .single (.startFiltered hc hl hp hi)
  · exact .tail (.single (.status .uninit)) (.unlatch (s := s.noteStatus .uninit) hc he)

/-- H_SUBMIT clears the latch and makes ENG idle in one step; the order does not show. -/
theorem updates_hSubmit {c : Nat} {cc : ChannelCfg} (h : Half) (hc : chanCfg s.cfg c = some cc) :
    Updates ev s (s.hSubmit c cc h) :=
  .tail (.tail (.single (.submit h hc)) .idle) (.unlatch (c := c) (cc := cc) hc rfl)

theorem updates_hNext (h : s.hNext = .ok t) : Updates ev s t := by
  rcases hNext_cases h with rfl | ⟨c, hf, cc, -, hc, rfl⟩ | ⟨c, hf, i, cc, out, u, he, hc, hp, hlt, hm, rfl⟩
  · exact .refl
  · exact updates_hSubmit hf hc
  · have hu := updates_filterMove (ev := ev) hc hm
    obtain ⟨-, -, y, -, rfl⟩ := filterMove_ok_iff.1 hm
    have same := afterMove_same s c (sampleAddr out (halfOff s.cfg hf + i)) y
    exact hu.tail (.advance (same.eng.trans he) (same.cfg.symm ▸ hc) hp (same.cfg.symm ▸ hlt))

theorem updates_srcWrite {c : Nat} {v : Sample} (h : s.srcWrite c v = .ok t) : Updates ev s t := by
  rcases srcWrite_cases h with rfl | ⟨cc, hc, hd, hin, rfl⟩
  · exact .refl
  · have hsrc := src_congr (storeBytes_srcs s (sampleAddr cc.capBase (s.src c).wptr) (sampleBytes v)) c
    refine .tail (.single (.store (bs := sampleBytes v) hin)) ?_
    have := Update.sourceWrite (ev := ev) (s := s.storeBytes (sampleAddr cc.capBase (s.src c).wptr) (sampleBytes v))
      (c := c) (cc := cc) (by simpa using hc) (by rw [hsrc]; exact hd)
    simpa [hsrc] using this

theorem updates_acceptWord {w : Word} (h : s.acceptWord w = .next t) : Updates true s t := by
  rcases acceptWord_cases s w with ⟨id, -, e⟩ | ⟨id, -, e⟩ | ⟨_, -, e⟩ <;> rw [e] at h <;> cases h
  · exact .single (.accept id (by simp))
  · exact .single (.accept id (by simp))
  · exact .single .reservedEvent

theorem updates_srcEvent {c : Nat} (h : s.srcEvent c = .next t) : Updates true s t := by
  rcases srcEvent_cases s c with e | ⟨cc, hc, -, e⟩ | ⟨cc, hc, -, e⟩ <;> rw [e] at h <;> cases h
  · exact .refl
  · exact .tail (.single (.accept _ (by simp))) (.sourceEvent (by rwa [accept_cfg]))
  · exact .tail (.single (.accept _ (by simp))) (.sourceEvent (by rwa [accept_cfg]))

theorem updates_xptSend {x : Nat} (h : s.xptSend x = .ok t) : Updates ev s t := by
  rcases xptSend_cases h with rfl | ⟨q, rest, hq, -, rfl⟩
  · exact .refl
  · exact .single (.send _ hq)

theorem updates_hostStore (a : Nat) (bs : List Byte) : Updates ev s (s.hostStore a bs) := by
  rcases hostStore_cases s a bs with e | ⟨hm, e⟩ <;> rw [e]
  simp only [State.hostMayTouch, Bool.and_eq_true, decide_eq_true_eq] at hm
  exact .single (.store hm.1.1)

theorem finish_eq_next {x : Except Fault State} (h : finish x = .next t) : x = .ok t := by
  cases x with
  | ok u => cases h; rfl
  | error f => cases h

/-- Every move is a chain of updates, and of event updates only where it accepts an event. -/
theorem updates_perform {m : Move} (h : perform m s = .next t) : Updates (acceptsEvent m) s t := by
  cases m with
  | engCommand => exact updates_engCommand h
  | engStart c => cases h; exact updates_hStart c
  | engHandler => exact updates_hNext (finish_eq_next h)
  | event w => exact updates_acceptWord h
  | srcWrite c v => exact updates_srcWrite (finish_eq_next h)
  | srcEvent c => exact updates_srcEvent h
  | xptSend x => exact updates_xptSend (finish_eq_next h)
  | hostCmd w => cases h; exact .single (.ports _ s.respq s.script s.draws)
  | hostTake => cases h; exact .single (.ports s.cmdq _ s.script s.draws)
  | hostStore a bs => cases h; exact updates_hostStore a bs
  | hostLoad a n => cases h; exact .refl

theorem updates_takeMove : Updates ev s s.takeMove.2 := by
  rcases takeMove_cases s with ⟨m, rest, -, e⟩ | ⟨-, e⟩ <;> rw [e]
  · exact .single (.ports s.cmdq s.respq rest s.draws)
  · exact .single (.ports s.cmdq s.respq s.script (s.draws + 1))

/-- Every step is a chain of updates. -/
theorem updates_step (h : step s = .next t) : ∃ ev, Updates ev s t := by
  cases hw : cfgWf s.cfg with
  | false => rw [step_refused_iff.2 hw] at h; cases h
  | true =>
    rw [step_eq_perform s hw] at h
    exact ⟨_, updates_takeMove.trans (updates_perform h)⟩

/-- A reflexive and transitive relation that every update respects holds across a chain of them. -/
theorem Updates.lift {r : State → State → Prop} (h : Updates ev s t) (refl : ∀ u, r u u)
    (trans : ∀ {u v w}, r u v → r v w → r u w) (update : ∀ {u v}, Update ev u v → r u v) : r s t := by
  induction h with
  | refl => exact refl s
  | tail _ hu ih => exact trans ih (update hu)

/-- A condition that every update keeps, every step keeps. -/
theorem step_keeps {P : State → Prop} (update : ∀ {ev u v}, Update ev u v → P u → P v) (h : step s = .next t)
    (hs : P s) : P t := by
  obtain ⟨ev, hu⟩ := updates_step h
  clear h
  induction hu with
  | refl => exact hs
  | tail _ hu ih => exact update hu ih

end
end Sys2Proof.Machine
end

section
/-! PROOFS. What every step keeps (R7, R34 to R38, R41 to R46, R50, R53, R81): each update keeps it. -/

namespace Sys2Proof.Machine

section
variable {ev : Bool} {s t : State}

/-! ### ERR, the ghosts and the configuration -/

/-- A status sets bits of ERR, never bit 0 (R50). -/
theorem errAfter_eq_or (st : Status) (err : BitVec 8) : ∃ m, errAfter st err = err ||| m ∧ m.getLsbD 0 = false := by
  cases st with
  | ok => exact ⟨0, by simp [errAfter], rfl⟩
  | _ => exact ⟨_, rfl, rfl⟩

/-- The set with `k` in it holds `k` and what it held (R20). -/
theorem ghostHas_ghostAdd (gf : GhostSet) (k g : Ghost) :
    ghostHas (ghostAdd gf k) g = (decide (g = k) || ghostHas gf g) := by
  cases k <;> cases g <;> simp [ghostHas, ghostAdd]

theorem ghostHas_ghostIf {g : Ghost} (b : Bool) (k : Ghost) (h : ghostHas s.gf g = true) :
    ghostHas (s.ghostIf b k).gf g = true := by
  rw [ghostIf_gf]
  split
  · rw [ghostHas_ghostAdd, h, Bool.or_true]
  · exact h

/-- Nothing is taken out of ERR or GF, and the configuration is the same. -/
structure Grows (s t : State) : Prop where
  err : ∀ k, s.err.getLsbD k = true → t.err.getLsbD k = true
  gf : ∀ g, ghostHas s.gf g = true → ghostHas t.gf g = true
  cfg : t.cfg = s.cfg

theorem Grows.refl (s : State) : Grows s s := ⟨fun _ => id, fun _ => id, rfl⟩

theorem Grows.trans {s t u : State} (h : Grows s t) (k : Grows t u) : Grows s u :=
  ⟨fun i hi => k.err i (h.err i hi), fun g hg => k.gf g (h.gf g hg), k.cfg.trans h.cfg⟩

theorem Update.grows (h : Update ev s t) : Grows s t := by
  cases h with
  | status st =>
    refine ⟨fun k hk => ?_, fun _ => id, rfl⟩
    obtain ⟨m, e, -⟩ := errAfter_eq_or st s.err
    simp [e, hk]
  | store hin => exact ⟨fun k hk => by simpa using hk, fun g hg => ghostHas_ghostIf _ _ hg, by simp⟩
  | reservedEvent => exact ⟨fun _ => id, fun g hg => ghostHas_ghostIf _ _ hg, rfl⟩
  | @accept _ id h ph hp =>
    refine ⟨fun k hk => by simpa using hk, fun g hg => ?_, by simp⟩
    rcases accept_cases s id h ph with ⟨-, e⟩ | ⟨-, e⟩ <;> rw [e]
    · exact hg
    · exact ghostHas_ghostIf _ _ (ghostHas_ghostIf _ _ hg)
  | _ => exact ⟨fun _ => id, fun _ => id, rfl⟩

end

/-- Settles O45: every update only adds to ERR and GF, and so does every chain of them. -/
theorem errGhostsAndConfigPersist : Obligations.ErrGhostsAndConfigPersist := by
  intro s t h
  obtain ⟨ev, hu⟩ := updates_step h
  obtain ⟨herr, hgf, hcfg⟩ := hu.lift .refl .trans Update.grows
  exact ⟨herr, hgf, hcfg⟩

/-! ### The banks of a channel -/

section
variable {ev : Bool} {s t : State}

/-- What an update does to a filter bank: INIT's load, FS's write of PREV_OUT, or nothing (R33 to R37). -/
theorem Update.filter_cases (h : Update ev s t) (c : Nat) :
    t.filter c = s.filter c ∨
    (∃ cc, chanCfg s.cfg c = some cc ∧ (s.filter c).initDone = false ∧
      t.filter c = liveBank cc.alphaCfg 0 cc.minCfg cc.maxCfg) ∨
    (∃ x y, (s.filter c).fs x = some y ∧ t.filter c = { s.filter c with prevOut := some y }) := by
  cases h with
  | @load _ _ d cc hc hi =>
    by_cases e : c = d
    · subst e; exact .inr (.inl ⟨cc, hc, hi, by simp⟩)
    · exact .inl (by simp [e])
  | @sample _ _ d cc x y hc hy =>
    by_cases e : c = d
    · subst e; exact .inr (.inr ⟨x, y, hy, by simp⟩)
    · exact .inl (by simp [e])
  | store hin => exact .inl (filter_congr (by simp) c)
  | accept id hp => exact .inl (filter_congr (by simp) c)
  | _ => exact .inl rfl

/-- What an update does to an arbiter bank: the latch cleared with ENG idle, an event accepted, or nothing (R41 to R43). -/
theorem Update.arb_cases (h : Update ev s t) (c : Nat) :
    t.arb c = s.arb c ∨
    (s.eng = .idle ∧ t.arb c = { s.arb c with halfLatch := none }) ∨
    (∃ hf ph, ev = true ∧ registered s.cfg c = true ∧ (hf = .first ↔ ph = .fillingSecond) ∧
      t.arb c = (s.arb c).accept hf ph ∧ (pend (s.arb c) = true → t.gf.overrun = true)) := by
  cases h with
  | @unlatch _ _ d cc hc he =>
    by_cases e : c = d
    · subst e; exact .inr (.inl ⟨he, by simp⟩)
    · exact .inl (by simp [e])
  | store hin => exact .inl (arb_congr (by simp) c)
  | @accept _ id hf ph hp =>
    rcases accept_cases s id hf ph with ⟨-, e⟩ | ⟨hr, e⟩ <;> rw [e]
    · exact .inl rfl
    · by_cases hc : c = chanNum id
      · subst hc
        exact .inr (.inr ⟨hf, ph, rfl, hr, hp, by simp, fun h => by simp [ghostIf_gf, h, ghostAdd]⟩)
      · exact .inl (by rw [arb_setArb, if_neg hc]; exact arb_congr (by simp) c)
  | reservedEvent => exact .inl (arb_congr (by simp) c)
  | _ => exact .inl rfl

/-- What an update does to a SampleSource: one write, the owed event delivered, or nothing (R211, R212). -/
theorem Update.src_cases (h : Update ev s t) (c : Nat) :
    t.src c = s.src c ∨ ((s.src c).due = .none ∧ t.src c = (s.src c).afterWrite s.cfg) ∨
      t.src c = { s.src c with due := .none } := by
  cases h with
  | @sourceWrite _ _ d cc hc hd =>
    by_cases e : c = d
    · subst e; exact .inr (.inl ⟨hd, by simp⟩)
    · exact .inl (by simp [e])
  | @sourceEvent _ _ d cc hc =>
    by_cases e : c = d
    · subst e; exact .inr (.inr (by simp [State.clearDue]))
    · exact .inl (by simp [State.clearDue, e])
  | store hin => exact .inl (src_congr (by simp) c)
  | accept id hp => exact .inl (src_congr (by simp) c)
  | _ => exact .inl rfl

end

/-- Where bank `a` is initialised, so is `b`, with its coefficient and its bounds. -/
def KeepsCoefficients (a b : FilterBank) : Prop :=
  a.initDone = true → b.initDone = true ∧ b.alpha = a.alpha ∧ b.minClamp = a.minClamp ∧ b.maxClamp = a.maxClamp

theorem KeepsCoefficients.trans {a b c : FilterBank} (h : KeepsCoefficients a b) (k : KeepsCoefficients b c) :
    KeepsCoefficients a c := by
  intro ha
  obtain ⟨hb, h1, h2, h3⟩ := h ha
  obtain ⟨hc, k1, k2, k3⟩ := k hb
  exact ⟨hc, k1.trans h1, k2.trans h2, k3.trans h3⟩

theorem Update.keepsCoefficients {ev : Bool} {s t : State} (h : Update ev s t) (c : Nat) :
    KeepsCoefficients (s.filter c) (t.filter c) := by
  intro hi
  rcases h.filter_cases c with e | ⟨cc, -, hn, -⟩ | ⟨x, y, -, e⟩
  · rw [e]; exact ⟨hi, rfl, rfl, rfl⟩
  · rw [hi] at hn; cases hn
  · rw [e]; exact ⟨hi, rfl, rfl, rfl⟩

/-- Settles O47: INIT's load needs INIT_DONE 0, and FS writes PREV_OUT alone. -/
theorem initialisedBankIsConstant : Obligations.InitialisedBankIsConstant := by
  intro s t c h
  obtain ⟨ev, hu⟩ := updates_step h
  exact hu.lift (r := fun u v => KeepsCoefficients (u.filter c) (v.filter c)) (fun _ hi => ⟨hi, rfl, rfl, rfl⟩) .trans
    fun h => h.keepsCoefficients c

/-- Bank `b` is `a`, but that its latch may be cleared. -/
structure AtMostUnlatched (a b : ArbBank) : Prop where
  phase : b.phase = a.phase
  swHalf : b.swHalf = a.swHalf
  halfLatch : b.halfLatch = a.halfLatch ∨ b.halfLatch = none

theorem AtMostUnlatched.refl (a : ArbBank) : AtMostUnlatched a a := ⟨rfl, rfl, .inl rfl⟩

theorem AtMostUnlatched.trans {a b c : ArbBank} (h : AtMostUnlatched a b) (k : AtMostUnlatched b c) :
    AtMostUnlatched a c := by
  refine ⟨k.phase.trans h.phase, k.swHalf.trans h.swHalf, ?_⟩
  rcases k.halfLatch with e | e
  · rw [e]; exact h.halfLatch
  · exact .inr e

/-- An update that accepts no event can only clear the latch. -/
theorem Update.atMostUnlatched {s t : State} (h : Update false s t) (c : Nat) : AtMostUnlatched (s.arb c) (t.arb c) := by
  rcases h.arb_cases c with e | ⟨-, e⟩ | ⟨_, _, hev, -⟩
  · rw [e]; exact .refl _
  · rw [e]; exact ⟨rfl, rfl, .inr rfl⟩
  · cases hev

/-- Settles O48: a move that accepts no event is a chain of updates that accept none. -/
theorem arbiterWrittenByEventsOnly : Obligations.ArbiterWrittenByEventsOnly := by
  intro s t m c h hev hsrc
  have hm : acceptsEvent m = false := by
    cases m with
    | event w => exact absurd rfl (hev w)
    | srcEvent d => exact absurd rfl (hsrc d)
    | _ => rfl
  have hu := updates_perform h
  rw [hm] at hu
  obtain ⟨hp, hs, hl⟩ := hu.lift (r := fun u v => AtMostUnlatched (u.arb c) (v.arb c)) (fun _ => .refl _) .trans
    fun h => h.atMostUnlatched c
  exact ⟨hp, hs, hl⟩

/-- An event that finds a handler pending adds OVERRUN; one that finds none latches the half it gives to the engine. -/
theorem Update.keeps_latchOwned {ev : Bool} {s t : State} (h : Update ev s t) (hs : latchOwned s) : latchOwned t := by
  intro ho c hc
  have hso : s.gf.overrun = false :=
    Bool.eq_false_iff.2 fun hne => absurd (h.grows.gf .overrun hne) (by simp [ghostHas, ho])
  rw [h.grows.cfg] at hc
  rcases h.arb_cases c with e | ⟨-, e⟩ | ⟨hf, ph, -, -, -, e, hover⟩ <;> rw [e]
  · exact hs hso c hc
  · exact .inl rfl
  · have hp : pend (s.arb c) = false := Bool.eq_false_iff.2 fun hne => absurd (hover hne) (by simp [ho])
    exact .inr (by simp [ArbBank.accept, hp])

/-- Settles O50, update by update. -/
theorem latchedHalfStaysOwned : Obligations.LatchedHalfStaysOwned :=
  fun _ _ hs h => step_keeps Update.keeps_latchOwned h hs

end Sys2Proof.Machine
end

section
/-! PROOFS. Every step keeps the invariant of the whole machine, clause by clause (R13, R32 to R46, R50, R54, R70, R220). -/

namespace Sys2Proof.Machine

/-! ### The output of FS lies in the bounds (R134, R136, R38) -/

/-- What is clamped into `[lo, hi]` and truncated stays there. -/
theorem truncz_clampF32_bounds {v : F32} {lo hi i : Int} (hle : lo ≤ hi)
    (h : (clampF32 v (.ofInt lo) (.ofInt hi)).truncz = some i) : lo ≤ i ∧ i ≤ hi := by
  unfold clampF32 at h
  split at h
  · rw [truncz_ofInt] at h; cases h; exact ⟨hle, le_rfl⟩
  · next hgt =>
    split at h
    · rw [truncz_ofInt] at h; cases h; exact ⟨le_rfl, hle⟩
    · next hlt =>
      cases v with
      | nan => cases h
      | inf n => cases h
      | fin n a =>
        rw [truncz_fin] at h
        cases h
        simp only [F32.ofInt, gt_fin, lt_fin, signed_ofInt, decide_eq_true_eq, not_lt] at hgt hlt
        exact ⟨le_tdiv_of_mul_le hlt, tdiv_le_of_le_mul hgt⟩

theorem filterValue_bounds {a : Word} {p lo hi x y : Sample} (hle : s16 lo ≤ s16 hi)
    (h : filterValue a p lo hi x = some y) : s16 lo ≤ s16 y ∧ s16 y ≤ s16 hi := by
  obtain ⟨i, hi', rfl⟩ := Option.map_eq_some_iff.1 h
  have hb := truncz_clampF32_bounds hle hi'
  have hlo := s16_bounds lo
  have hhi := s16_bounds hi
  rwa [s16_bits16 (by omega) (by omega)]

/-! ### What a well-formed configuration gives (R13) -/

section
variable {cfg : Config} {cc : ChannelCfg}

theorem cfgWf_memBytes (h : cfgWf cfg = true) : cfg.memBytes ≤ 2 ^ 32 := by
  simp only [cfgWf, rangesOk, Bool.and_eq_true, decide_eq_true_eq] at h
  tauto

theorem cfgWf_bufN (h : cfgWf cfg = true) : 2 ≤ bufN cfg := by
  simp only [cfgWf, wf1, Bool.and_eq_true, decide_eq_true_eq] at h
  tauto

theorem cfgWf_bounds (h : cfgWf cfg = true) (hcc : cc ∈ cfg.chans) : s16 cc.minCfg ≤ s16 cc.maxCfg := by
  simp only [cfgWf, wf5, Bool.and_eq_true, List.all_eq_true, decide_eq_true_eq] at h
  obtain ⟨⟨⟨⟨-, h5⟩, -⟩, -⟩, -⟩ := h
  exact h5 cc hcc

theorem cfgWf_buffer (h : cfgWf cfg = true) (hcc : cc ∈ cfg.chans) {b : Addr} (hb : isBuffer cc b) :
    b.toNat + 2 * bufN cfg ≤ cfg.memBytes := by
  simp only [cfgWf, Bool.and_eq_true] at h
  obtain ⟨⟨⟨-, h6⟩, -⟩, -⟩ := h
  by_contra hlt
  have := wf6_eq_false.2 ⟨cc, hcc, b, hb, .inr (by omega)⟩
  rw [h6] at this
  cases this

theorem cfgWf_xport (h : cfgWf cfg = true) (hcc : cc ∈ cfg.chans) : cc.xport < cfg.numXpt := by
  simp only [cfgWf, wf8, Bool.and_eq_true, List.all_eq_true, decide_eq_true_eq] at h
  obtain ⟨-, h8⟩ := h
  exact h8 cc hcc

end

/-! ### The clauses of the invariant, in plain terms -/

theorem sized_iff {s : State} : sized s = true ↔ s.filters.length = numCh s.cfg ∧ s.arbs.length = numCh s.cfg ∧
    s.srcs.length = numCh s.cfg ∧ s.xpts.length = s.cfg.numXpt := by
  simp only [sized, Bool.and_eq_true, decide_eq_true_eq, and_assoc]

theorem chanOk_iff {s : State} {c : Nat} : chanOk s c = true ↔ ∀ cc, chanCfg s.cfg c = some cc →
    filterOk cc (s.filter c) = true ∧ arbOk cc (s.arb c) = true ∧ srcOk s.cfg (s.src c) = true := by
  unfold chanOk
  split
  · next h => simp [h]
  · next cc h => simp [h, and_assoc]

/-- A bank is as at reset before INIT, and after it holds what INIT loaded and a PREV_OUT in bounds (R34 to R38). -/
theorem filterOk_iff {cc : ChannelCfg} {b : FilterBank} : filterOk cc b = true ↔
    b = .atReset ∨ ∃ p, prevOk cc (some p) = true ∧ b = liveBank cc.alphaCfg p cc.minCfg cc.maxCfg := by
  obtain ⟨prev, alpha, lo, hi, done⟩ := b
  cases done
  · simp [filterOk, FilterBank.atReset, liveBank]
  · cases prev with
    | none => simp [filterOk, prevOk, FilterBank.atReset, liveBank]
    | some p => simp [filterOk, FilterBank.atReset, liveBank]; tauto

theorem arbOk_iff {cc : ChannelCfg} {a : ArbBank} : arbOk cc a = true ↔
    (a.swHalf = none → a.phase = .fillingFirst) ∧ (a.swHalf = some .first ↔ a.phase = .fillingSecond) ∧
      (a.swHalf = some .second → a.phase = .fillingFirst) ∧ (cc.registered = false → a = .atReset) := by
  simp only [arbOk, Bool.and_eq_true, Bool.or_eq_true, decide_eq_true_eq, ne_eq, and_assoc]
  cases cc.registered <;> simp <;> tauto

/-- A handler in progress belongs to a channel and to the half of its latch (R32, R180, R181). -/
theorem engOk_iff {s : State} : engOk s = true ↔ ∀ c h i, s.eng = .handler c h i →
    ∃ cc, chanCfg s.cfg c = some cc ∧ (s.arb c).halfLatch = some h ∧ i ≤ halfH s.cfg ∧
      (cc.policy = .raw → i = halfH s.cfg) ∧ ∀ out, cc.policy = .filtered out → (s.filter c).initDone = true := by
  unfold engOk
  cases he : s.eng with
  | idle => simp
  | handler c h i =>
    cases hc : chanCfg s.cfg c with
    | none => simp [hc]
    | some cc => cases hp : cc.policy <;> simp [hc, hp, and_assoc]

/-! ### The banks of a channel (R34 to R46, R54) -/

section
variable {ev : Bool} {s t : State} {c : Nat} {cc : ChannelCfg}

theorem liveBank_filterOk {p : Sample} (h : prevOk cc (some p) = true) :
    filterOk cc (liveBank cc.alphaCfg p cc.minCfg cc.maxCfg) = true := filterOk_iff.2 (.inr ⟨p, h, rfl⟩)

/-- FS needs the values INIT loads, and its output is in the bounds. -/
theorem Update.keeps_filterOk (h : Update ev s t) (hw : cfgWf s.cfg = true) (hc : chanCfg s.cfg c = some cc)
    (hs : filterOk cc (s.filter c) = true) : filterOk cc (t.filter c) = true := by
  rcases h.filter_cases c with e | ⟨cc', hc', -, e⟩ | ⟨x, y, hy, e⟩ <;> rw [e]
  · exact hs
  · rw [hc] at hc'
    cases hc'
    exact liveBank_filterOk (by simp [prevOk])
  · rcases filterOk_iff.1 hs with hb | ⟨p, -, hb⟩ <;> rw [hb] at hy ⊢
    · cases hy
    · have hin := filterValue_bounds (cfgWf_bounds hw (chanCfg_mem hc)) (show filterValue _ _ _ _ _ = some y from hy)
      exact liveBank_filterOk (by simp [prevOk, hin])

theorem accept_arbOk {a : ArbBank} {hf : Half} {ph : Phase} (hr : cc.registered = true)
    (hp : hf = .first ↔ ph = .fillingSecond) : arbOk cc (a.accept hf ph) = true := by
  cases hf with
  | first =>
    obtain rfl := hp.1 rfl
    simp [arbOk_iff, ArbBank.accept, hr]
  | second =>
    cases ph with
    | fillingFirst => simp [arbOk_iff, ArbBank.accept, hr]
    | fillingSecond => cases hp.2 rfl

theorem Update.keeps_arbOk (h : Update ev s t) (hc : chanCfg s.cfg c = some cc) (hs : arbOk cc (s.arb c) = true) :
    arbOk cc (t.arb c) = true := by
  rcases h.arb_cases c with e | ⟨-, e⟩ | ⟨hf, ph, -, hr, hp, e, -⟩ <;> rw [e]
  · exact hs
  · obtain ⟨h1, h2, h3, h4⟩ := arbOk_iff.1 hs
    exact arbOk_iff.2 ⟨h1, h2, h3, fun hr => by rw [h4 hr]; rfl⟩
  · obtain ⟨cc', hc', hreg⟩ := registered_chanCfg hr
    rw [hc] at hc'
    cases hc'
    exact accept_arbOk hreg hp

theorem srcOk_iff {cfg : Config} {r : Source} : srcOk cfg r = true ↔
    r.wptr < bufN cfg ∧ (r.due = .half → r.wptr = halfH cfg) ∧ (r.due = .full → r.wptr = 0) := by
  unfold srcOk
  cases r.due <;> simp

theorem Update.keeps_srcOk (h : Update ev s t) (hs : srcOk s.cfg (s.src c) = true) : srcOk s.cfg (t.src c) = true := by
  obtain ⟨hlt, hhalf, hfull⟩ := srcOk_iff.1 hs
  rcases h.src_cases c with e | ⟨hd, e⟩ | e <;> rw [e]
  · exact hs
  · rw [srcOk_iff]
    unfold Source.afterWrite
    split
    · exact ⟨by simp; omega, by simp, by simp⟩
    · split
      · next hH => exact ⟨by simp; omega, fun _ => hH, by simp⟩
      · exact ⟨by simp; omega, by simp [hd], by simp [hd]⟩
  · exact srcOk_iff.2 ⟨hlt, by simp, by simp⟩

theorem Update.keeps_chanOk (h : Update ev s t) (hw : cfgWf s.cfg = true) (hs : chanOk s c = true) :
    chanOk t c = true := by
  rw [chanOk_iff] at hs ⊢
  rw [h.grows.cfg]
  intro cc hc
  obtain ⟨hf, ha, hr⟩ := hs cc hc
  exact ⟨h.keeps_filterOk hw hc hf, h.keeps_arbOk hc ha, h.keeps_srcOk hr⟩

/-! ### ENG (R32, R43) -/

/-- The latch of a running handler outlives every update: an event leaves it, and only an idle ENG clears one. -/
theorem Update.keeps_runningLatch {hf : Half} {i : Nat} (h : Update ev s t) (he : s.eng = .handler c hf i)
    (hl : (s.arb c).halfLatch = some hf) : (t.arb c).halfLatch = some hf := by
  rcases h.arb_cases c with e | ⟨hi, -⟩ | ⟨_, _, -, -, -, e, -⟩
  · rw [e, hl]
  · rw [he] at hi; cases hi
  · simp [e, ArbBank.accept, pend, hl]

/-- What an update does to ENG: a handler started, advanced or ended, or nothing (R180 to R185). -/
theorem Update.eng_cases (h : Update ev s t) :
    t.eng = s.eng ∨ t.eng = .idle ∨
    (∃ c cc hf i, chanCfg s.cfg c = some cc ∧ (s.arb c).halfLatch = some hf ∧ t = s.setEng (.handler c hf i) ∧
      (cc.policy = .raw ∧ i = halfH s.cfg ∨ ∃ out, cc.policy = .filtered out ∧ (s.filter c).initDone = true ∧ i = 0)) ∨
    (∃ c cc hf i out, s.eng = .handler c hf i ∧ chanCfg s.cfg c = some cc ∧ cc.policy = .filtered out ∧ i < halfH s.cfg ∧
      t = s.setEng (.handler c hf (i + 1))) := by
  cases h with
  | idle => exact .inr (.inl rfl)
  | startRaw hc hl hp => exact .inr (.inr (.inl ⟨_, _, _, _, hc, hl, rfl, .inl ⟨hp, rfl⟩⟩))
  | startFiltered hc hl hp hi => exact .inr (.inr (.inl ⟨_, _, _, _, hc, hl, rfl, .inr ⟨_, hp, hi, rfl⟩⟩))
  | advance he hc hp hlt => exact .inr (.inr (.inr ⟨_, _, _, _, _, he, hc, hp, hlt, rfl⟩))
  | store hin => exact .inl (by simp)
  | accept id hp => exact .inl (by simp)
  | _ => exact .inl rfl

theorem Update.keeps_engOk (h : Update ev s t) (hs : engOk s = true) : engOk t = true := by
  rw [engOk_iff] at hs ⊢
  intro c hf i he
  rcases h.eng_cases with e | e | ⟨c', cc, hf', i', hc, hl, rfl, hp⟩ | ⟨c', cc, hf', i', out, he', hc, hp, hlt, rfl⟩
  · rw [e] at he
    obtain ⟨cc, hc, hl, hi, hraw, hfil⟩ := hs c hf i he
    rw [h.grows.cfg]
    exact ⟨cc, hc, h.keeps_runningLatch he hl, hi, hraw, fun out hp => (h.keepsCoefficients c (hfil out hp)).1⟩
  · rw [e] at he; cases he
  · cases he
    rcases hp with ⟨hp, rfl⟩ | ⟨out, hp, hi, rfl⟩
    · exact ⟨cc, hc, hl, le_rfl, fun _ => rfl, by simp [hp]⟩
    · exact ⟨cc, hc, hl, Nat.zero_le _, by simp [hp], fun _ _ => hi⟩
  · cases he
    obtain ⟨cc', hc', hl, -, -, hfil⟩ := hs _ _ _ he'
    rw [hc] at hc'
    cases hc'
    exact ⟨cc, hc, hl, hlt, by simp [hp], hfil⟩

/-! ### Memory, ERR and the number of banks (R50, R70) -/

theorem Update.keeps_memOk (h : Update ev s t) (hs : memOk s.cfg s.mem = true) : memOk s.cfg t.mem = true := by
  cases h with
  | store hin => exact memWriteBytes_memOk hs hin
  | accept id hp => simpa using hs
  | _ => exact hs

theorem Update.keeps_errBit0 (h : Update ev s t) (hs : s.err.getLsbD 0 = false) : t.err.getLsbD 0 = false := by
  cases h with
  | status st =>
    obtain ⟨m, e, hm⟩ := errAfter_eq_or st s.err
    rw [noteStatus_err, e, BitVec.getLsbD_or, hs, hm]
    rfl
  | store hin => simpa using hs
  | accept id hp => simpa using hs
  | _ => exact hs

/-- A transport with something in its queue is one of those there are. -/
theorem xpt_lt_of_queue {x : Nat} {q : Submission} {rest : List Submission} (h : (s.xpt x).queue = q :: rest) :
    x < s.xpts.length := by
  by_contra hlt
  rw [State.xpt, bankGet, List.getD_eq_default _ _ (by omega)] at h
  cases h

theorem Update.keeps_sized (h : Update ev s t) (hw : cfgWf s.cfg = true) (hs : sized s = true) : sized t = true := by
  rw [sized_iff] at hs ⊢
  obtain ⟨hf, ha, hr, hx⟩ := hs
  cases h with
  | load hc _ => exact ⟨by simpa using (bankSet_length _ _ _ (hf ▸ chanCfg_lt hc)).trans hf, ha, hr, hx⟩
  | sample hc _ => exact ⟨by simpa using (bankSet_length _ _ _ (hf ▸ chanCfg_lt hc)).trans hf, ha, hr, hx⟩
  | unlatch hc _ => exact ⟨hf, by simpa using (bankSet_length _ _ _ (ha ▸ chanCfg_lt hc)).trans ha, hr, hx⟩
  | sourceWrite hc _ => exact ⟨hf, ha, by simpa using (bankSet_length _ _ _ (hr ▸ chanCfg_lt hc)).trans hr, hx⟩
  | sourceEvent hc => exact ⟨hf, ha, (bankSet_length _ _ _ (hr ▸ chanCfg_lt hc)).trans hr, hx⟩
  | submit h hc => exact ⟨hf, ha, hr, (bankSet_length _ _ _ (hx ▸ cfgWf_xport hw (chanCfg_mem hc))).trans hx⟩
  | send w hq => exact ⟨hf, ha, hr, (bankSet_length _ _ _ (xpt_lt_of_queue hq)).trans hx⟩
  | store hin => simpa using ⟨hf, ha, hr, hx⟩
  | @accept _ id hh ph hp =>
    refine ⟨by simpa using hf, ?_, by simpa using hr, by simpa using hx⟩
    rcases accept_cases s id hh ph with ⟨-, e⟩ | ⟨hreg, e⟩ <;> rw [e]
    · exact ha
    · obtain ⟨cc, hc, -⟩ := registered_chanCfg hreg
      simpa using (bankSet_length _ _ _ (ha ▸ chanCfg_lt hc)).trans ha
  | _ => exact ⟨hf, ha, hr, hx⟩

/-! ### Pending submissions (R184, R220, R221) -/

/-- Every pending submission of every transport lies in memory and has a byte left to send. -/
def QueuesOk (s : State) : Prop := ∀ t ∈ s.xpts, ∀ q ∈ t.queue, submissionOk s.cfg q = true

theorem submissionOk_iff {cfg : Config} {q : Submission} :
    submissionOk cfg q = true ↔ q.ptr.toNat + q.len.toNat ≤ cfg.memBytes ∧ q.sent < q.len.toNat := by
  simp only [submissionOk, Bool.and_eq_true, decide_eq_true_eq]

/-- The record of H_SUBMIT spans one half of a buffer of its channel, which lies in memory (R184, WF6). -/
theorem submit_submissionOk {cfg : Config} (hw : cfgWf cfg = true) (hcc : cc ∈ cfg.chans) (h : Half) :
    submissionOk cfg { ptr := submitPtr cfg cc h, len := submitLen cfg, sent := 0 } = true := by
  have hbuf : isBuffer cc (submitBase cc) := by
    unfold isBuffer submitBase
    split <;> simp_all
  have hin := cfgWf_buffer hw hcc hbuf
  have hmem := cfgWf_memBytes hw
  have hN := cfgWf_bufN hw
  have hoff : 2 * halfOff cfg h ≤ bufN cfg := by
    cases h <;> simp only [halfOff, halfH] <;> omega
  have hptr : (submitPtr cfg cc h).toNat = (submitBase cc).toNat + 2 * halfOff cfg h :=
    BitVec.toNat_ofNat .. |>.trans (Nat.mod_eq_of_lt (by simp only [sampleAddr]; omega))
  have hlen : (submitLen cfg).toNat = bufN cfg := BitVec.toNat_ofNat .. |>.trans (Nat.mod_eq_of_lt (by omega))
  rw [submissionOk_iff, hptr, hlen]
  exact ⟨by omega, by show 0 < bufN cfg; omega⟩

theorem QueuesOk.xpt (h : QueuesOk s) (x : Nat) : ∀ q ∈ (s.xpt x).queue, submissionOk s.cfg q = true := by
  rcases bankGet_mem Transport.atReset s.xpts x with hm | e
  · exact h _ hm
  · intro q hq
    rw [State.xpt, e] at hq
    cases hq

theorem QueuesOk.setXpt (h : QueuesOk s) {x : Nat} {r : Transport} (hx : x < s.xpts.length)
    (hr : ∀ q ∈ r.queue, submissionOk s.cfg q = true) : QueuesOk (s.setXpt x r) := by
  intro u hu
  rcases mem_bankSet _ hx hu with rfl | hu
  · exact hr
  · exact h u hu

theorem queueAfterSend_ok {cfg : Config} {q : Submission} {rest : List Submission}
    (h : ∀ k ∈ q :: rest, submissionOk cfg k = true) : ∀ k ∈ queueAfterSend q rest, submissionOk cfg k = true := by
  rw [List.forall_mem_cons] at h
  obtain ⟨hq, hrest⟩ := h
  unfold queueAfterSend
  split
  · exact hrest
  · next hne =>
    obtain ⟨hin, hlt⟩ := submissionOk_iff.1 hq
    exact List.forall_mem_cons.2 ⟨submissionOk_iff.2 ⟨hin, by show q.sent + 1 < q.len.toNat; omega⟩, hrest⟩

theorem Update.keeps_queuesOk (h : Update ev s t) (hw : cfgWf s.cfg = true) (hz : sized s = true) (hs : QueuesOk s) :
    QueuesOk t := by
  cases h with
  | submit hf hc =>
    obtain ⟨-, -, -, hx⟩ := sized_iff.1 hz
    have hcc := chanCfg_mem hc
    refine hs.setXpt (hx ▸ cfgWf_xport hw hcc) fun q hq => ?_
    rcases List.mem_append.1 hq with hq | hq
    · exact hs.xpt _ q hq
    · rw [List.mem_singleton.1 hq]; exact submit_submissionOk hw hcc hf
  | send w hq => exact hs.setXpt (xpt_lt_of_queue hq) (queueAfterSend_ok (hq ▸ hs.xpt _))
  | store hin => simpa [QueuesOk] using hs
  | accept id hp => simpa [QueuesOk] using hs
  | _ => exact hs

/-! ### The whole invariant -/

theorem Update.keeps_inv (h : Update ev s t) (hs : Inv s) : Inv t where
  cfgOk := by rw [h.grows.cfg]; exact hs.cfgOk
  sizedOk := h.keeps_sized hs.cfgOk hs.sizedOk
  memoryOk := by rw [h.grows.cfg]; exact h.keeps_memOk hs.memoryOk
  chansOk := by rw [h.grows.cfg]; exact fun c hc => h.keeps_chanOk hs.cfgOk (hs.chansOk c hc)
  engineOk := h.keeps_engOk hs.engineOk
  errOk := h.keeps_errBit0 hs.errOk
  queuesOk := h.keeps_queuesOk hs.cfgOk hs.sizedOk hs.queuesOk

end

/-- Settles O43: every update keeps each clause, so every step keeps them all. -/
theorem stepKeepsInvariant : Obligations.StepKeepsInvariant :=
  fun _ _ hs h => step_keeps Update.keeps_inv h hs

end Sys2Proof.Machine
end

section
/-! PROOFS. A SampleSource in step with its arbiter and the engine never meet in one half (R45, R81), and nothing depends
on the ghosts (R53). -/

namespace Sys2Proof.Machine

/-! ### SRC.WRITE and the half being handled (R45, R81) -/

/-- A SampleSource in step with its arbiter writes the half the engine does not own (R41, R46). -/
theorem wptr_in_other_half {cfg : Config} {cc : ChannelCfg} {a : ArbBank} {h : Half} {w : Nat} (ha : arbOk cc a = true)
    (hs : a.swHalf = some h) (hp : a.phase = if w < halfH cfg then .fillingFirst else .fillingSecond) :
    w < halfOff cfg h ∨ halfOff cfg h + halfH cfg ≤ w := by
  obtain ⟨-, hfirst, hsecond, -⟩ := arbOk_iff.1 ha
  cases h with
  | first =>
    have hph := hfirst.1 hs
    rw [hp] at hph
    split at hph
    · cases hph
    · right; simp only [halfOff]; omega
  | second =>
    have hph := hsecond hs
    rw [hp] at hph
    split at hph
    · next hlt => exact .inl hlt
    · cases hph

/-- Settles O51: the latched half is the engine's, and the write index is in the other one. -/
theorem sourceLeavesLatchedHalfAlone : Obligations.SourceLeavesLatchedHalfAlone := by
  intro s t c k cc h v hinv howned hover hc _ hstep hlatch hk hperf
  have hlt := chanCfg_lt hc
  have hsw : (s.arb c).swHalf = some h := by
    rcases howned hover c hlt with e | e
    · rw [e] at hlatch; cases hlatch
    · rw [← e, hlatch]
  obtain ⟨-, harb, -⟩ := chanOk_iff.1 (hinv.chansOk c hlt) cc hc
  rcases srcWrite_cases (finish_eq_next hperf) with rfl | ⟨cc', hc', hd, -, rfl⟩
  · rfl
  · rw [hc] at hc'
    cases hc'
    have hphase : (s.arb c).phase = if (s.src c).wptr < halfH s.cfg then .fillingFirst else .fillingSecond := by
      simpa [phaseInStep, hd] using hstep
    have hother := wptr_in_other_half harb hsw hphase
    rw [setSrc_mem, storeBytes_mem]
    exact sampleAt_write_other _ v (by simp only [sampleAddr]; omega)

/-! ### Nothing depends on GF (R53) -/

/-- The state with another ghost set. -/
def State.withGf (s : State) (g : GhostSet) : State := { s with gf := g }

/-- Two results are next states that differ in GF alone, or the same fault. -/
inductive SameResult : Except Fault State → Except Fault State → Prop where
  | ok (t : State) (g : GhostSet) : SameResult (.ok t) (.ok (t.withGf g))
  | error (f : Fault) : SameResult (.error f) (.error f)

/-- Two outcomes are next states that differ in GF alone, or stops for the same reason. -/
inductive SameOutcome : Host.Outcome State Fault Refusal → Host.Outcome State Fault Refusal → Prop where
  | next (t : State) (g : GhostSet) : SameOutcome (.next t) (.next (t.withGf g))
  | fault (f : Fault) : SameOutcome (.fault f) (.fault f)
  | refused (r : Refusal) : SameOutcome (.refused r) (.refused r)

section
variable (s : State) (g : GhostSet)

@[simp] theorem withGf_cfg : (s.withGf g).cfg = s.cfg := rfl
@[simp] theorem withGf_eng : (s.withGf g).eng = s.eng := rfl
@[simp] theorem withGf_err : (s.withGf g).err = s.err := rfl
@[simp] theorem withGf_cmdq : (s.withGf g).cmdq = s.cmdq := rfl
@[simp] theorem withGf_xpts : (s.withGf g).xpts = s.xpts := rfl
@[simp] theorem withGf_script : (s.withGf g).script = s.script := rfl
@[simp] theorem withGf_filter (c : Nat) : (s.withGf g).filter c = s.filter c := rfl
@[simp] theorem withGf_arb (c : Nat) : (s.withGf g).arb c = s.arb c := rfl
@[simp] theorem withGf_src (c : Nat) : (s.withGf g).src c = s.src c := rfl
@[simp] theorem withGf_xpt (x : Nat) : (s.withGf g).xpt x = s.xpt x := rfl

/-! ### Operations that write a ghost write the same one in both states -/

theorem ghostIf_withGf (b : Bool) (k : Ghost) : ∃ g', (s.withGf g).ghostIf b k = (s.ghostIf b k).withGf g' := by
  cases b
  · exact ⟨g, rfl⟩
  · exact ⟨ghostAdd g k, rfl⟩

theorem storeBytes_withGf (a : Nat) (bs : List Byte) :
    ∃ g', (s.withGf g).storeBytes a bs = (s.storeBytes a bs).withGf g' := by
  obtain ⟨g', e⟩ := ghostIf_withGf s g (stale s.xpts a bs.length) .staleSpan
  refine ⟨g', ?_⟩
  unfold State.storeBytes
  rw [withGf_xpts, e]
  rfl

theorem accept_withGf (id : ChanId) (h : Half) (ph : Phase) :
    ∃ g', (s.withGf g).accept id h ph = (s.accept id h ph).withGf g' := by
  unfold State.accept
  rw [withGf_cfg]
  split
  · obtain ⟨g1, e1⟩ := ghostIf_withGf s g (decide ((s.arb (chanNum id)).phase = ph)) .seq
    obtain ⟨g2, e2⟩ := ghostIf_withGf (s.ghostIf (decide ((s.arb (chanNum id)).phase = ph)) .seq) g1
      (pend (s.arb (chanNum id))) .overrun
    rw [← e1] at e2
    exact ⟨g2, congrArg (fun u => u.setArb (chanNum id) ((s.arb (chanNum id)).accept h ph)) e2⟩
  · exact ⟨g, rfl⟩

/-! ### The filter operations -/

theorem sameResult_store16 (a : Nat) (x : Sample) : SameResult (s.store16 a x) ((s.withGf g).store16 a x) := by
  unfold State.store16
  rw [withGf_cfg]
  split
  · obtain ⟨g', e⟩ := storeBytes_withGf s g a (sampleBytes x)
    rw [e]
    exact .ok _ g'
  · exact .error _

theorem filterSample_withGf (c : Nat) (x : Sample) :
    (s.withGf g).filterSample c x = (s.filterSample c x).map fun p => (p.1, p.2.withGf g) := by
  unfold State.filterSample
  rw [withGf_filter]
  split <;> rfl

theorem sameResult_filterMove (c src dst : Nat) :
    SameResult (s.filterMove c src dst) ((s.withGf g).filterMove c src dst) := by
  unfold State.filterMove
  rw [show (s.withGf g).load16 src = s.load16 src from rfl]
  cases s.load16 src with
  | error f => exact .error f
  | ok x =>
    simp only [filterSample_withGf]
    cases s.filterSample c x with
    | error f => exact .error f
    | ok p => exact sameResult_store16 p.2 g dst p.1

theorem sameResult_filterLoop (c n src dst : Nat) :
    SameResult (filterLoop c n src dst s) (filterLoop c n src dst (s.withGf g)) := by
  induction n generalizing src dst s g with
  | zero => exact .ok s g
  | succ n ih =>
    unfold filterLoop
    have hm := sameResult_filterMove s g c src dst
    generalize s.filterMove c src dst = x, (s.withGf g).filterMove c src dst = y at hm ⊢
    cases hm with
    | ok t g' => exact ih t g' (src + 2) (dst + 2)
    | error f => exact .error f

/-! ### The instructions -/

theorem sameOutcome_execInit (ch : ChanId) : SameOutcome (execInit ch s) (execInit ch (s.withGf g)) := by
  unfold execInit
  rw [withGf_cfg]
  split
  · exact .next _ g
  · rw [withGf_filter]
    split <;> exact .next _ g

theorem sameOutcome_execFsample (ch : ChanId) (x : Sample) :
    SameOutcome (execFsample ch x s) (execFsample ch x (s.withGf g)) := by
  unfold execFsample
  rw [withGf_cfg]
  split
  · exact .next _ g
  · rw [withGf_filter, filterSample_withGf]
    split
    · cases s.filterSample (chanNum ch) x with
      | error f => exact .fault f
      | ok p => exact .next _ g
    · exact .next _ g

theorem sameOutcome_execFblock (ch : ChanId) (size : BitVec 16) (src dst : Addr) :
    SameOutcome (execFblock ch size src dst s) (execFblock ch size src dst (s.withGf g)) := by
  unfold execFblock
  rw [withGf_cfg]
  split
  · exact .next _ g
  · rw [withGf_filter]
    split
    · have hl := sameResult_filterLoop s g (chanNum ch) (sizeNum size) src.toNat dst.toNat
      generalize filterLoop (chanNum ch) (sizeNum size) src.toNat dst.toNat s = x,
        filterLoop (chanNum ch) (sizeNum size) src.toNat dst.toNat (s.withGf g) = y at hl ⊢
      cases hl with
      | ok t g' => exact .next _ g'
      | error f => exact .fault f
    · exact .next _ g

theorem sameOutcome_execRdreg (ch : ChanId) (sel : BitVec 4) :
    SameOutcome (execRdreg ch sel s) (execRdreg ch sel (s.withGf g)) := by
  unfold execRdreg
  rw [withGf_cfg, withGf_filter, withGf_arb, withGf_err]
  split
  · exact .next _ g
  · split
    · exact .next _ g
    · split
      · exact .next _ g
      · exact .next _ g
      · split
        · split
          · exact .next _ g
          · exact .fault _
        · exact .next _ g

theorem sameOutcome_accept (id : ChanId) (h : Half) (ph : Phase) :
    SameOutcome (.next (s.accept id h ph)) (.next ((s.withGf g).accept id h ph)) := by
  obtain ⟨g', e⟩ := accept_withGf s g id h ph
  rw [e]
  exact .next _ g'

theorem sameOutcome_exec (i : Instr) : SameOutcome (exec i s) (exec i (s.withGf g)) := by
  cases i with
  | init ch => exact sameOutcome_execInit s g ch
  | fsample ch x => exact sameOutcome_execFsample s g ch x
  | fblock ch size src dst => exact sameOutcome_execFblock s g ch size src dst
  | rdreg ch sel => exact sameOutcome_execRdreg s g ch sel
  | evHalf id => exact sameOutcome_accept s g id _ _
  | evFull id => exact sameOutcome_accept s g id _ _

/-! ### The moves -/

theorem sameOutcome_engCommand : SameOutcome s.engCommand (s.withGf g).engCommand := by
  unfold State.engCommand
  rw [withGf_eng]
  split
  · rw [withGf_cmdq]
    split
    · exact .next s g
    · exact sameOutcome_exec { s with cmdq := _ } g _
    · exact .next _ g
  · exact .next s g

theorem hStart_withGf (c : Nat) : (s.withGf g).hStart c = (s.hStart c).withGf g := by
  unfold State.hStart
  rw [withGf_eng, withGf_cfg, withGf_arb, withGf_filter]
  split
  · split
    · split
      · rfl
      · split <;> rfl
    · rfl
  · rfl

theorem sameResult_hNext : SameResult s.hNext (s.withGf g).hNext := by
  unfold State.hNext
  rw [withGf_eng]
  split
  · exact .ok s g
  · next c h i _ =>
    rw [withGf_cfg]
    split
    · exact .ok s g
    · next cc _ =>
      split
      · exact .ok _ g
      · split
        · exact .ok s g
        · next out _ =>
          split
          · unfold State.hSample
            have hm := sameResult_filterMove s g c (sampleAddr cc.capBase (halfOff s.cfg h + i))
              (sampleAddr out (halfOff s.cfg h + i))
            rw [withGf_cfg]
            generalize s.filterMove c _ _ = x, (s.withGf g).filterMove c _ _ = y at hm ⊢
            cases hm with
            | ok t g' => exact .ok _ g'
            | error f => exact .error f
          · exact .ok s g

theorem sameResult_srcWrite (c : Nat) (v : Sample) : SameResult (s.srcWrite c v) ((s.withGf g).srcWrite c v) := by
  unfold State.srcWrite
  rw [withGf_cfg, withGf_src]
  split
  · exact .ok s g
  · next cc _ =>
    split
    · have hm := sameResult_store16 s g (sampleAddr cc.capBase (s.src c).wptr) v
      generalize s.store16 _ v = x, (s.withGf g).store16 _ v = y at hm ⊢
      cases hm with
      | ok t g' => exact .ok _ g'
      | error f => exact .error f
    · exact .ok s g

theorem sameOutcome_acceptWord (w : Word) : SameOutcome (s.acceptWord w) ((s.withGf g).acceptWord w) := by
  unfold State.acceptWord
  split
  · exact sameOutcome_exec s g _
  · exact .next (s.ghostIf true .evrsv) (ghostAdd g .evrsv)

theorem sameOutcome_srcEvent (c : Nat) : SameOutcome (s.srcEvent c) ((s.withGf g).srcEvent c) := by
  unfold State.srcEvent
  rw [withGf_cfg, withGf_src]
  split
  · exact .next s g
  · split
    · exact .next s g
    · next w _ =>
      have hw := sameOutcome_acceptWord s g w
      generalize s.acceptWord w = x, (s.withGf g).acceptWord w = y at hw ⊢
      cases hw with
      | next t g' => exact .next _ g'
      | fault f => exact .fault f
      | refused r => exact .refused r

theorem sameResult_xptSend (x : Nat) : SameResult (s.xptSend x) ((s.withGf g).xptSend x) := by
  unfold State.xptSend
  rw [withGf_xpt]
  split
  · exact .ok s g
  · next q rest _ =>
    rw [show (s.withGf g).load8 (q.ptr.toNat + q.sent) = s.load8 (q.ptr.toNat + q.sent) from rfl]
    split
    · exact .error _
    · exact .ok _ g

theorem hostStore_withGf (a : Nat) (bs : List Byte) :
    ∃ g', (s.withGf g).hostStore a bs = (s.hostStore a bs).withGf g' := by
  unfold State.hostStore
  rw [show (s.withGf g).hostMayTouch a bs.length = s.hostMayTouch a bs.length from rfl]
  split
  · exact storeBytes_withGf s g a bs
  · exact ⟨g, rfl⟩

theorem sameOutcome_finish {x y : Except Fault State} (h : SameResult x y) : SameOutcome (finish x) (finish y) := by
  cases h with
  | ok t g => exact .next t g
  | error f => exact .fault f

theorem sameOutcome_perform (m : Move) : SameOutcome (perform m s) (perform m (s.withGf g)) := by
  cases m with
  | engCommand => exact sameOutcome_engCommand s g
  | engStart c => rw [perform, perform, hStart_withGf]; exact .next _ g
  | engHandler => exact sameOutcome_finish (sameResult_hNext s g)
  | event w => exact sameOutcome_acceptWord s g w
  | srcWrite c v => exact sameOutcome_finish (sameResult_srcWrite s g c v)
  | srcEvent c => exact sameOutcome_srcEvent s g c
  | xptSend x => exact sameOutcome_finish (sameResult_xptSend s g x)
  | hostCmd w => exact .next _ g
  | hostTake => exact .next _ g
  | hostStore a bs =>
    obtain ⟨g', e⟩ := hostStore_withGf s g a bs
    rw [perform, perform, e]
    exact .next _ g'
  | hostLoad a n => exact .next s g

theorem takeMove_withGf : (s.withGf g).takeMove = (s.takeMove.1, s.takeMove.2.withGf g) := by
  unfold State.takeMove
  rw [withGf_script]
  split <;> rfl

theorem sameOutcome_step : SameOutcome (step s) (step (s.withGf g)) := by
  unfold step stepMove
  rw [withGf_cfg, takeMove_withGf]
  split
  · exact sameOutcome_perform _ g _
  · exact .refused _

end

/-- Settles O49: no operation reads GF, and each ghost is added under a condition on the rest of the state. -/
theorem ghostsInfluenceNothing : Obligations.GhostsInfluenceNothing := by
  intro s g
  have h : SameOutcome (step s) (step { s with gf := g }) := sameOutcome_step s g
  generalize step s = x, step { s with gf := g } = y at h ⊢
  cases h with
  | next t g' => rfl
  | fault f => rfl
  | refused r => rfl

end Sys2Proof.Machine
end

section
/-! PROOFS. A Sample in memory, byte by byte (R72). -/

namespace Sys2Proof.Machine

/-! ### The two bytes of a Sample -/

theorem lowByte_toNat (v : Sample) : (v.extractLsb' 0 8).toNat = v.toNat % 256 := by
  simp

/-- The high byte is all that lies above the low one: a Sample has 16 bits, so nothing is cut off. -/
theorem highByte_toNat (v : Sample) : (v.extractLsb' 8 8).toNat = v.toNat / 256 := by
  have hv : v.toNat / 256 < 256 := by omega
  simp only [BitVec.extractLsb'_toNat, Nat.shiftRight_eq_div_pow]
  exact Nat.mod_eq_of_lt hv

theorem sampleOfBytes_toNat (lo hi : Byte) : (sampleOfBytes lo hi).toNat = lo.toNat + 256 * hi.toNat := by
  have append : (hi ++ lo).toNat = hi.toNat <<< 8 ||| lo.toNat := BitVec.toNat_append hi lo
  have sum : hi.toNat <<< 8 + lo.toNat = hi.toNat <<< 8 ||| lo.toNat := Nat.shiftLeft_add_eq_or_of_lt lo.isLt hi.toNat
  rw [sampleOfBytes, append, ← sum, Nat.shiftLeft_eq]
  omega

/-! ### The bytes a store of a Sample leaves -/

theorem memRead_write_sample_low (m : Memory) (a : Nat) (v : Sample) :
    memRead (memWriteBytes m a (sampleBytes v)) a = v.extractLsb' 0 8 := by
  simp [memRead_memWriteBytes, sampleBytes]

theorem memRead_write_sample_high (m : Memory) (a : Nat) (v : Sample) :
    memRead (memWriteBytes m a (sampleBytes v)) (a + 1) = v.extractLsb' 8 8 := by
  simp [memRead_memWriteBytes, sampleBytes]

theorem memRead_write_sample_other (m : Memory) {a x : Nat} (v : Sample) (hlow : x ≠ a) (hhigh : x ≠ a + 1) :
    memRead (memWriteBytes m a (sampleBytes v)) x = memRead m x :=
  memRead_memWriteBytes_outside m (by rw [sampleBytes_length]; omega)

/-- Settles O40: each byte of a stored Sample, the bytes around it, and the Sample read back from any two bytes. -/
theorem samplesAreLittleEndian : Obligations.SamplesAreLittleEndian := by
  intro m a v
  refine ⟨?low, ?high, fun x => memRead_write_sample_other m v, ?readBack⟩
  case low => rw [memRead_write_sample_low, lowByte_toNat]
  case high => rw [memRead_write_sample_high, highByte_toNat]
  case readBack => exact sampleOfBytes_toNat _ _

end Sys2Proof.Machine
end

section
/-! PROOFS. The words of the two ports (R100 to R113): what each field of a word is, exactly which words each decoder
accepts, and the encoder as its inverse in both directions. -/

namespace Sys2Proof.Machine

/-! ### The fields of a header as `headerWord` lays them down (R101) -/

@[simp] theorem headerOpc_headerWord (opc : BitVec 4) (ch : ChanId) (imm : BitVec 16) :
    headerOpc (headerWord opc ch imm) = opc :=
  Laws.Header.opc_headerWord opc ch imm

@[simp] theorem headerCh_headerWord (opc : BitVec 4) (ch : ChanId) (imm : BitVec 16) :
    headerCh (headerWord opc ch imm) = ch :=
  calc (opc ++ ch ++ 0#4 ++ imm).extractLsb' 20 8
    _ = (opc ++ ch ++ 0#4).extractLsb' 4 8 := BitVec.extractLsb'_append_eq_of_le (by decide)
    _ = (opc ++ ch).extractLsb' 0 8 := BitVec.extractLsb'_append_eq_of_le (by decide)
    _ = ch := BitVec.extractLsb'_append_eq_right

@[simp] theorem headerRsv_headerWord (opc : BitVec 4) (ch : ChanId) (imm : BitVec 16) :
    headerRsv (headerWord opc ch imm) = 0#4 :=
  calc (opc ++ ch ++ 0#4 ++ imm).extractLsb' 16 4
    _ = (opc ++ ch ++ 0#4).extractLsb' 0 4 := BitVec.extractLsb'_append_eq_of_le (by decide)
    _ = 0#4 := BitVec.extractLsb'_append_eq_right

@[simp] theorem headerImm_headerWord (opc : BitVec 4) (ch : ChanId) (imm : BitVec 16) :
    headerImm (headerWord opc ch imm) = imm :=
  BitVec.extractLsb'_append_eq_right

@[simp] theorem headerSelHigh_headerWord (opc : BitVec 4) (ch : ChanId) (high : BitVec 12) (sel : BitVec 4) :
    headerSelHigh (headerWord opc ch (high ++ sel)) = high :=
  calc (opc ++ ch ++ 0#4 ++ (high ++ sel)).extractLsb' 4 12
    _ = (high ++ sel).extractLsb' 4 12 := BitVec.extractLsb'_append_eq_of_add_le (by decide)
    _ = high := BitVec.extractLsb'_append_eq_left

@[simp] theorem headerSel_headerWord (opc : BitVec 4) (ch : ChanId) (high : BitVec 12) (sel : BitVec 4) :
    headerSel (headerWord opc ch (high ++ sel)) = sel :=
  calc (opc ++ ch ++ 0#4 ++ (high ++ sel)).extractLsb' 0 4
    _ = (high ++ sel).extractLsb' 0 4 := BitVec.extractLsb'_append_eq_of_add_le (by decide)
    _ = sel := BitVec.extractLsb'_append_eq_right

/-! ### The fields are all the bits of a word (R101, R104, R112) -/

theorem header_eq_append (w : Word) : headerOpc w ++ headerCh w ++ headerRsv w ++ headerImm w = w := by
  have high : headerOpc w ++ headerCh w = w.extractLsb' 20 12 := BitVec.extractLsb'_append_extractLsb'_eq_extractLsb' rfl
  have upper : w.extractLsb' 20 12 ++ headerRsv w = w.extractLsb' 16 16 :=
    BitVec.extractLsb'_append_extractLsb'_eq_extractLsb' rfl
  rw [high, upper]
  exact BitVec.extractLsb'_append_extractLsb'

/-- A header with RSV 0 is the one its other fields lay down. -/
theorem headerWord_fields {w : Word} (h : headerRsv w = 0#4) : headerWord (headerOpc w) (headerCh w) (headerImm w) = w := by
  have happ := header_eq_append w
  rwa [h] at happ

/-- RDREG's two fields are the parts of the immediate. -/
theorem headerSel_append (w : Word) : headerSelHigh w ++ headerSel w = headerImm w :=
  BitVec.extractLsb'_append_extractLsb'_eq_extractLsb' rfl

/-- An event word with ERSV 0 is the one its other fields lay down. -/
theorem eventWord_fields {w : Word} (h : eventErsv w = 0#22) : eventWord (eventKind w) (eventId w) = w := by
  have high : eventErsv w ++ eventKind w = w.extractLsb' 8 24 := BitVec.extractLsb'_append_extractLsb'_eq_extractLsb' rfl
  have happ : eventErsv w ++ eventKind w ++ eventId w = w := by
    rw [high]
    exact BitVec.extractLsb'_append_extractLsb'
  rwa [h] at happ

/-! ### The fields as numbers -/

/-- A field is the bits from its lowest one up, cut off above its width. -/
theorem field_toNat (w : Word) (start len : Nat) : (w.extractLsb' start len).toNat = w.toNat / 2 ^ start % 2 ^ len := by
  rw [BitVec.extractLsb'_toNat, Nat.shiftRight_eq_div_pow]

/-- Nothing lies above a field at the top of the word, so nothing is cut off. -/
theorem topField_toNat (w : Word) {start len : Nat} (h : start + len = 32) :
    (w.extractLsb' start len).toNat = w.toNat / 2 ^ start := by
  rw [field_toNat]
  exact Nat.mod_eq_of_lt (Nat.div_lt_of_lt_mul (by rw [← Nat.pow_add, h]; exact w.isLt))

theorem headerOpc_toNat (w : Word) : (headerOpc w).toNat = w.toNat / 2 ^ 28 := topField_toNat w rfl

theorem headerRsv_toNat (w : Word) : (headerRsv w).toNat = w.toNat / 2 ^ 16 % 16 := field_toNat w 16 4

theorem headerImm_toNat (w : Word) : (headerImm w).toNat = w.toNat % 2 ^ 16 :=
  (field_toNat w 0 16).trans (by rw [Nat.pow_zero, Nat.div_one])

theorem headerSelHigh_toNat (w : Word) : (headerSelHigh w).toNat = w.toNat / 16 % 2 ^ 12 := field_toNat w 4 12

theorem headerSel_toNat (w : Word) : (headerSel w).toNat = w.toNat % 16 :=
  (field_toNat w 0 4).trans (by rw [Nat.pow_zero, Nat.div_one]; rfl)

theorem eventErsv_toNat (w : Word) : (eventErsv w).toNat = w.toNat / 2 ^ 10 := topField_toNat w rfl

theorem eventKind_toNat (w : Word) : (eventKind w).toNat = w.toNat / 2 ^ 8 % 4 := field_toNat w 8 2

/-! ### What each decoder accepts (R109, R112, R113) -/

/-- What a decoder rejects is what it does not accept. -/
theorem exists_error_iff {α : Type} {x : Except Reject α} : (∃ e, x = .error e) ↔ ¬ ∃ a, x = .ok a := by
  cases x <;> simp

/-- The four forms of a legal command, each by the fields of its header (R102 to R105). -/
theorem decodeCommand_eq_ok_iff {w0 w1 w2 : Word} {i : Instr} :
    decodeCommand w0 w1 w2 = .ok i ↔ headerRsv w0 = 0#4 ∧
      ((headerOpc w0 = 1#4 ∧ headerImm w0 = 0#16 ∧ i = .init (headerCh w0)) ∨
       (headerOpc w0 = 2#4 ∧ i = .fsample (headerCh w0) (headerImm w0)) ∨
       (headerOpc w0 = 3#4 ∧ i = .fblock (headerCh w0) (headerImm w0) w1 w2) ∨
       (headerOpc w0 = 4#4 ∧ headerSelHigh w0 = 0#12 ∧ selectorLegal (headerSel w0) = true ∧
        i = .rdreg (headerCh w0) (headerSel w0))) := by
  constructor
  · intro h
    simp only [decodeCommand, ne_eq, ite_not] at h
    repeat' split at h
    all_goals cases h
    · next hopc hrsv himm => exact ⟨hrsv, .inl ⟨hopc, himm, rfl⟩⟩
    · next hopc hrsv => exact ⟨hrsv, .inr (.inl ⟨hopc, rfl⟩)⟩
    · next hopc hrsv => exact ⟨hrsv, .inr (.inr (.inl ⟨hopc, rfl⟩))⟩
    · next hopc hrsv hhigh hsel => exact ⟨hrsv, .inr (.inr (.inr ⟨hopc, hhigh, hsel, rfl⟩))⟩
  · rintro ⟨hrsv, ⟨hopc, himm, rfl⟩ | ⟨hopc, rfl⟩ | ⟨hopc, rfl⟩ | ⟨hopc, hhigh, hsel, rfl⟩⟩
    · simp [decodeCommand, hopc, hrsv, himm]
    · simp [decodeCommand, hopc, hrsv]
    · simp [decodeCommand, hopc, hrsv]
    · simp [decodeCommand, hopc, hrsv, hhigh, hsel]

/-- The two forms of a legal event word, each by its fields. -/
theorem decodeEvent_eq_ok_iff {w : Word} {i : Instr} :
    decodeEvent w = .ok i ↔ eventErsv w = 0#22 ∧
      ((eventKind w = 1#2 ∧ i = .evHalf (eventId w)) ∨ (eventKind w = 2#2 ∧ i = .evFull (eventId w))) := by
  constructor
  · intro h
    simp only [decodeEvent, ne_eq, ite_not] at h
    repeat' split at h
    all_goals cases h
    · next hersv hkind => exact ⟨hersv, .inl ⟨hkind, rfl⟩⟩
    · next hersv _ hkind => exact ⟨hersv, .inr ⟨hkind, rfl⟩⟩
  · rintro ⟨hersv, ⟨hkind, rfl⟩ | ⟨hkind, rfl⟩⟩
    · simp [decodeEvent, hersv, hkind]
    · simp [decodeEvent, hersv, hkind]

/-! ### How many words the command at the head of a queue takes (R100) -/

theorem nextCommand_one {w : Word} (h : headerOpc w ≠ 3#4) (tl : List Word) :
    nextCommand (w :: tl) = some (decodeCommand w 0 0, tl) := by
  simp [nextCommand_cons, commandLength, h]

theorem nextCommand_three {w : Word} (h : headerOpc w = 3#4) (w1 w2 : Word) (tl : List Word) :
    nextCommand (w :: w1 :: w2 :: tl) = some (decodeCommand w w1 w2, tl) := by
  simp [nextCommand_cons, commandLength, h]

theorem nextCommand_three_short {w : Word} (h : headerOpc w = 3#4) {tl : List Word} (hl : tl.length < 2) :
    nextCommand (w :: tl) = none := by
  match tl, hl with
  | [], _ => simp [nextCommand_cons, commandLength, h]
  | [_], _ => simp [nextCommand_cons, commandLength, h]

theorem headerOpc_eq_three_iff (w : Word) : headerOpc w = 3#4 ↔ w.toNat / 2 ^ 28 = 3 := by
  rw [← headerOpc_toNat, ← BitVec.toNat_inj]
  rfl

/-! ### The obligations about the two ports' words -/

/-- Settles O1: each form's header has the fields that its branch of the decoder looks for. -/
theorem commandRoundTrip : Obligations.CommandRoundTrip := by
  intro i rest hwf hport
  cases i with
  | init ch =>
    have h : decodeCommand (headerWord 1 ch 0) 0 0 = .ok (.init ch) := decodeCommand_eq_ok_iff.mpr (by simp)
    exact (nextCommand_one (by simp) rest).trans (by rw [h])
  | fsample ch x =>
    have h : decodeCommand (headerWord 2 ch x) 0 0 = .ok (.fsample ch x) := decodeCommand_eq_ok_iff.mpr (by simp)
    exact (nextCommand_one (by simp) rest).trans (by rw [h])
  | fblock ch size src dst =>
    have h : decodeCommand (headerWord 3 ch size) src dst = .ok (.fblock ch size src dst) :=
      decodeCommand_eq_ok_iff.mpr (by simp)
    exact (nextCommand_three (by simp) src dst rest).trans (by rw [h])
  | rdreg ch sel =>
    have hsel : selectorLegal sel = true := hwf
    have h : decodeCommand (headerWord 4 ch (0#12 ++ sel)) 0 0 = .ok (.rdreg ch sel) :=
      decodeCommand_eq_ok_iff.mpr (by simp [hsel])
    exact (nextCommand_one (by simp) rest).trans (by rw [h])
  | evHalf id => cases hport
  | evFull id => cases hport

/-- Settles O3: an accepted header has RSV 0, so it is the one its fields lay down, and the fields that the command does
not carry are fixed by its form. -/
theorem decodedCommandReencodes : Obligations.DecodedCommandReencodes := by
  intro w0 w1 w2 i h
  obtain ⟨hrsv, h⟩ := decodeCommand_eq_ok_iff.mp h
  have hw := headerWord_fields hrsv
  rcases h with ⟨hopc, himm, rfl⟩ | ⟨hopc, rfl⟩ | ⟨hopc, rfl⟩ | ⟨hopc, hhigh, hsel, rfl⟩
  · rw [hopc, himm] at hw
    exact ⟨rfl, rfl, by simp [encode, commandLength, hopc, hw]⟩
  · rw [hopc] at hw
    exact ⟨rfl, rfl, by simp [encode, commandLength, hopc, hw]⟩
  · rw [hopc] at hw
    exact ⟨rfl, rfl, by simp [encode, commandLength, hopc, hw]⟩
  · rw [hopc, ← headerSel_append, hhigh] at hw
    exact ⟨hsel, rfl, by simp [encode, commandLength, hopc, hw]⟩

/-- Settles O2: the events' words decode to them, and an accepted word, whose ERSV is 0, is the one its fields lay
down. -/
theorem eventRoundTrip : Obligations.EventRoundTrip := by
  refine ⟨fun i hport => ?_, fun w i h => ?_⟩
  · cases i with
    | evHalf id => exact ⟨_, rfl, decodeEvent_half id⟩
    | evFull id => exact ⟨_, rfl, decodeEvent_full id⟩
    | init | fsample | fblock | rdreg => cases hport
  · obtain ⟨hersv, h⟩ := decodeEvent_eq_ok_iff.mp h
    have hw := eventWord_fields hersv
    rcases h with ⟨hkind, rfl⟩ | ⟨hkind, rfl⟩
    · rw [hkind] at hw
      exact ⟨rfl, rfl, congrArg (fun x => [x]) hw⟩
    · rw [hkind] at hw
      exact ⟨rfl, rfl, congrArg (fun x => [x]) hw⟩

/-- Settles O5: the headers that are not of one of the four legal forms, their fields read as numbers. -/
theorem illegalHeaders : Obligations.IllegalHeaders := by
  intro w0 w1 w2
  have forms : (∃ i, decodeCommand w0 w1 w2 = .ok i) ↔ headerRsv w0 = 0#4 ∧
      ((headerOpc w0 = 1#4 ∧ headerImm w0 = 0#16) ∨ headerOpc w0 = 2#4 ∨ headerOpc w0 = 3#4 ∨
       (headerOpc w0 = 4#4 ∧ headerSelHigh w0 = 0#12 ∧ selectorLegal (headerSel w0) = true)) := by
    simp [decodeCommand_eq_ok_iff, exists_or]
  rw [exists_error_iff, forms]
  simp only [← BitVec.toNat_inj, selectorLegal, decide_eq_true_eq, headerOpc_toNat, headerRsv_toNat, headerImm_toNat,
    headerSelHigh_toNat, headerSel_toNat, BitVec.toNat_ofNat]
  omega

/-- Settles O6: the event words of neither legal form, their fields read as numbers. -/
theorem reservedEventWords : Obligations.ReservedEventWords := by
  intro w
  have forms : (∃ i, decodeEvent w = .ok i) ↔ eventErsv w = 0#22 ∧ (eventKind w = 1#2 ∨ eventKind w = 2#2) := by
    simp [decodeEvent_eq_ok_iff, exists_or]
  rw [exists_error_iff, forms]
  simp only [← BitVec.toNat_inj, eventErsv_toNat, eventKind_toNat, BitVec.toNat_ofNat]
  omega

/-- Settles O4: both decoders compute. -/
theorem specWordsDecode : Obligations.SpecWordsDecode :=
  ⟨rfl, rfl, rfl, rfl, rfl, rfl⟩

/-- Settles O7: by the header's OPC, and for three words by how many stand after it. -/
theorem commandLengths : Obligations.CommandLengths := by
  intro w0 tl
  have three := headerOpc_eq_three_iff w0
  refine ⟨fun h hl => nextCommand_three_short (three.mpr h) hl, fun h hl => ?_,
    fun h => ⟨_, nextCommand_one (mt three.mp h) tl⟩, rfl⟩
  match tl, hl with
  | w1 :: w2 :: rest, _ => exact ⟨_, nextCommand_three (three.mpr h) w1 w2 rest⟩

/-- Settles O10: ENG's command step raises ILLEGAL on the state without the words. -/
theorem stepAnswersIllegal : Obligations.StepAnswersIllegal := by
  intro s e rest ms hcfg heng hscript hnext
  have htake : s.takeMove = (.engCommand, { s with script := ms }) := by simp [State.takeMove, hscript]
  rw [step_eq_perform s hcfg, htake]
  simp only [perform, State.engCommand, heng, hnext]
  rfl

end Sys2Proof.Machine
end

section
/-! PROOFS. The assembler against the encoder (R115, R116): the formulas of R116 lay down the words of R101 to R112, and
an operand has a field exactly when it is in its range. -/

namespace Sys2Proof.Machine

/-! ### The words -/

/-- A header as R116 writes it: its fields shifted to their places. -/
theorem headerWord_eq_or (opc : BitVec 4) (ch : ChanId) (imm : BitVec 16) : headerWord opc ch imm =
    opc.zeroExtend 32 <<< 28 ||| ch.zeroExtend 32 <<< 20 ||| imm.zeroExtend 32 := by
  have h := BitVec.setWidth_append_append_append_eq_shiftLeft_setWidth_or
    (b := opc) (b' := ch) (b'' := 0#4) (b''' := imm) (w'''' := 32)
  simpa [headerWord] using h

/-- An event word as R116 writes it. -/
theorem eventWord_eq_or (kind : BitVec 2) (id : ChanId) : eventWord kind id =
    kind.zeroExtend 32 <<< 8 ||| id.zeroExtend 32 := by
  have h := BitVec.setWidth_append_append_eq_shiftLeft_setWidth_or
    (b := 0#22) (b' := kind) (b'' := id) (w''' := 32)
  simpa [eventWord] using h

/-- RDREG's immediate is its selector with zeros above (R104). -/
theorem zeroExtend_selector (sel : BitVec 4) : (0#12 ++ sel).zeroExtend 32 = sel.zeroExtend 32 := by
  have h := BitVec.setWidth_append_eq_shiftLeft_setWidth_or (b := 0#12) (b' := sel) (w'' := 32)
  rwa [BitVec.setWidth_zero, BitVec.zero_shiftLeft, BitVec.zero_or] at h

theorem asmWords_eq_encode (i : Instr) : asmWords i = encode i := by
  cases i with
  | init ch => simp [asmWords, encode, headerWord_eq_or]
  | fsample ch x => simp [asmWords, encode, headerWord_eq_or]
  | fblock ch size src dst => simp [asmWords, encode, headerWord_eq_or]
  | rdreg ch sel => simp [asmWords, encode, headerWord_eq_or, zeroExtend_selector]
  | evHalf id => simp [asmWords, encode, eventWord_eq_or]
  | evFull id => simp [asmWords, encode, eventWord_eq_or]

theorem assemble_eq_none {l : AsmLine} : assemble l = none ↔ asmInstr l = none :=
  Option.map_eq_none_iff

theorem assemble_eq_encode {l : AsmLine} {i : Instr} (h : asmInstr l = some i) : assemble l = some (encode i) := by
  rw [assemble, h, Option.map_some, asmWords_eq_encode]

/-! ### The operands -/

/-- A range as wide as the field holds every value of the field. -/
theorem asmUnsigned_eq_field {w : Nat} {hi : Int} {n : AsmNum} {b : BitVec w} (hhi : hi + 1 = 2 ^ w)
    (h : (b.toNat : Int) = asmInt n) : asmUnsigned w hi n = some b := by
  have hlt : (b.toNat : Int) < 2 ^ w := by exact_mod_cast b.isLt
  exact asmUnsigned_eq_some h (by omega)

/-- An operand's field is a value of its range. -/
theorem toNat_le_of_asmUnsigned {w : Nat} {hi : Int} {n : AsmNum} {b : BitVec w} (hhi : hi < 2 ^ w)
    (h : asmUnsigned w hi n = some b) : (b.toNat : Int) ≤ hi := by
  unfold asmUnsigned at h
  split at h
  · next hr =>
    obtain rfl := Option.some.inj h
    have hmod : asmInt n % (2 ^ w : Nat) = asmInt n := Int.emod_eq_of_lt hr.1 (by push_cast; omega)
    rw [BitVec.toNat_ofInt]
    omega
  · cases h

theorem asmUnsigned_addr_eq_none {n : AsmNum} :
    asmUnsigned 32 (2 ^ 32 - 1) n = none ↔ asmInt n < 0 ∨ 2 ^ 32 ≤ asmInt n := by
  rw [asmUnsigned_eq_none, Int.sub_one_lt_iff]

/-! ### The lines: one with an operand out of its range is an error, and there is no other error -/

/-- A line that reads one operand more: that operand is out of range, or one of those after it is. -/
theorem operand_bind_eq_none {α β : Type} {x : Option α} {f : α → Option β} {p : Prop} (h : ∀ a, f a = none ↔ p) :
    (x >>= f) = none ↔ x = none ∨ p := by
  cases x with
  | none => simp
  | some a => simp [h]

theorem lastOperand_eq_none {α β : Type} {x : Option α} {f : α → β} : (do return f (← x)) = none ↔ x = none := by
  cases x <;> simp

theorem assemble_init_eq_none {c : AsmNum} : assemble (.init c) = none ↔ asmUnsigned 8 255 c = none :=
  assemble_eq_none.trans lastOperand_eq_none

theorem assemble_fsample_eq_none {c x : AsmNum} :
    assemble (.fsample c x) = none ↔ asmUnsigned 8 255 c = none ∨ asmSample x = none :=
  assemble_eq_none.trans (operand_bind_eq_none fun _ => lastOperand_eq_none)

theorem assemble_fblock_eq_none {c n a b : AsmNum} : assemble (.fblock c n a b) = none ↔
    asmUnsigned 8 255 c = none ∨ asmUnsigned 16 65535 n = none ∨
    asmUnsigned 32 (2 ^ 32 - 1) a = none ∨ asmUnsigned 32 (2 ^ 32 - 1) b = none :=
  assemble_eq_none.trans
    (operand_bind_eq_none fun _ => operand_bind_eq_none fun _ => operand_bind_eq_none fun _ => lastOperand_eq_none)

theorem assemble_rdreg_eq_none {c n : AsmNum} :
    assemble (.rdreg c n) = none ↔ asmUnsigned 8 255 c = none ∨ asmUnsigned 4 5 n = none :=
  assemble_eq_none.trans (operand_bind_eq_none fun _ => lastOperand_eq_none)

theorem assemble_evHalf_eq_none {n : AsmNum} : assemble (.evHalf n) = none ↔ asmUnsigned 8 255 n = none :=
  assemble_eq_none.trans lastOperand_eq_none

theorem assemble_evFull_eq_none {n : AsmNum} : assemble (.evFull n) = none ↔ asmUnsigned 8 255 n = none :=
  assemble_eq_none.trans lastOperand_eq_none

/-- A line that stands for an RDREG has read its selector, which is the one operand that its field does not bound. -/
theorem selector_of_asmInstr {l : AsmLine} {ch : ChanId} {sel : BitVec 4} (h : asmInstr l = some (.rdreg ch sel)) :
    ∃ n, asmUnsigned 4 5 n = some sel := by
  cases l with
  | init | fsample | fblock | evHalf | evFull => simp [asmInstr, Option.bind_eq_some_iff] at h
  | rdreg c n =>
    simp only [asmInstr, bind, Option.bind_eq_some_iff] at h
    obtain ⟨c', -, sel', hsel, heq⟩ := h
    cases heq
    exact ⟨n, hsel⟩

theorem asmInstr_wf {l : AsmLine} {i : Instr} (h : asmInstr l = some i) : i.wf = true := by
  cases i with
  | init | fsample | fblock | evHalf | evFull => rfl
  | rdreg ch sel =>
    obtain ⟨n, hsel⟩ := selector_of_asmInstr h
    have hle : (sel.toNat : Int) ≤ 5 := toNat_le_of_asmUnsigned (by decide) hsel
    exact decide_eq_true (by omega)

/-- Settles O8, operand by operand: each line is an error exactly where one of its operands has no field, and otherwise
stands for the instruction of those fields. -/
theorem assemblerMatchesEncoder : Obligations.AssemblerMatchesEncoder := by
  have chan {n : AsmNum} {ch : ChanId} (h : (ch.toNat : Int) = asmInt n) : asmUnsigned 8 255 n = some ch :=
    asmUnsigned_eq_field rfl h
  have addr {n : AsmNum} {a : Addr} (h : (a.toNat : Int) = asmInt n) : asmUnsigned 32 (2 ^ 32 - 1) n = some a :=
    asmUnsigned_eq_field rfl h
  refine ⟨asmWords_eq_encode, fun l ws h => ?line, fun c => ⟨?init, fun ch hc => ?initWord⟩,
    fun c x => ⟨?fsample, fun ch v hc hv => ?fsampleWord⟩,
    fun c n a b => ⟨?fblock, fun ch size src dst hc hn ha hb => ?fblockWords⟩,
    fun c n => ⟨?rdreg, fun ch sel hc hn hle => ?rdregWord⟩, fun n => ⟨?evHalf, ?evFull, fun id hid => ?eventWords⟩⟩
  case line =>
    obtain ⟨i, hi, rfl⟩ := Option.map_eq_some_iff.mp h
    exact ⟨i, hi, asmInstr_wf hi, asmWords_eq_encode i⟩
  case init => rw [assemble_init_eq_none, asmUnsigned_eq_none]
  case initWord => exact assemble_eq_encode (by simp [asmInstr, chan hc])
  case fsample =>
    rw [assemble_fsample_eq_none, asmUnsigned_eq_none, or_assoc]
    cases x with
    | dec i => rw [asmSample_dec_eq_none]
    | hex n => rw [asmSample_hex_eq_none]
  case fsampleWord =>
    have hx : asmSample x = some v := by
      cases x with
      | dec i => cases hv; exact asmSample_dec v
      | hex n => cases hv; exact asmSample_hex v
    exact assemble_eq_encode (by simp [asmInstr, chan hc, hx])
  case fblock =>
    rw [assemble_fblock_eq_none, asmUnsigned_addr_eq_none, asmUnsigned_addr_eq_none, asmUnsigned_eq_none,
      asmUnsigned_eq_none]
    simp only [or_assoc]
  case fblockWords =>
    have hsize : asmUnsigned 16 65535 n = some size := asmUnsigned_eq_field rfl hn
    exact assemble_eq_encode (by simp only [asmInstr, chan hc, hsize, addr ha, addr hb]; rfl)
  case rdreg => simp only [assemble_rdreg_eq_none, asmUnsigned_eq_none, or_assoc]
  case rdregWord =>
    have hsel : asmUnsigned 4 5 n = some sel := asmUnsigned_eq_some hn (by omega)
    exact assemble_eq_encode (by simp [asmInstr, chan hc, hsel])
  case evHalf => rw [assemble_evHalf_eq_none, asmUnsigned_eq_none]
  case evFull => rw [assemble_evFull_eq_none, asmUnsigned_eq_none]
  case eventWords =>
    exact ⟨assemble_eq_encode (by simp [asmInstr, chan hid]), assemble_eq_encode (by simp [asmInstr, chan hid])⟩

end Sys2Proof.Machine
end

section
/-! PROOFS. The filter step FS (R130 to R137, R144 to R147): which roundings are exact, that every intermediate is finite, the
clamp against the truncation, and the identity at coefficient 1. -/

namespace Sys2Proof.Machine

/-! ### Roundings that are exact (R21) -/

theorem mul_fin (n k : Bool) (a b : Nat) : (F32.fin n a).mul (.fin k b) = .round (n != k) (a * b) 149 := rfl

/-- A binary32 magnitude loses no bits to rounding. -/
theorem round_of_isBinary32 {v : Nat} (h : isBinary32 v) (neg : Bool) (u : Nat) :
    F32.round neg (v * 2 ^ u) u = .fin neg v := by
  obtain ⟨f, e, rfl, hf, he⟩ := h
  have hd : dropBits (f * 2 ^ e * 2 ^ u) u ≤ e + u := by
    have hlog : (f * 2 ^ e * 2 ^ u).log2 < e + u + 24 := by
      rcases Nat.eq_zero_or_pos f with rfl | hpos
      · simp
      · rw [Nat.log2_lt (by positivity), Nat.mul_assoc, ← Nat.pow_add, Nat.pow_add _ _ 24, Nat.mul_comm f]
        exact Nat.mul_lt_mul_of_pos_left hf (Nat.two_pow_pos _)
    exact Nat.max_le.2 ⟨by omega, by omega⟩
  generalize hq : dropBits (f * 2 ^ e * 2 ^ u) u = d at hd
  have hu : u ≤ d := hq ▸ le_dropBits _ u
  have hsplit : f * 2 ^ e * 2 ^ u = f * 2 ^ (e + u - d) * 2 ^ d := by
    rw [Nat.mul_assoc, Nat.mul_assoc, ← Nat.pow_add, ← Nat.pow_add, Nat.sub_add_cancel hd]
  have hval : f * 2 ^ (e + u - d) * 2 ^ (d - u) = f * 2 ^ e := by
    rw [Nat.mul_assoc, ← Nat.pow_add]
    congr 2
    omega
  have hlt : f * 2 ^ e < 2 ^ 277 :=
    calc f * 2 ^ e < 2 ^ 24 * 2 ^ e := by gcongr
      _ = 2 ^ (24 + e) := (Nat.pow_add ..).symm
      _ ≤ 2 ^ 277 := by gcongr <;> omega
  rw [F32.round, hq, hsplit, roundEven_exact, hval, if_pos hlt]

theorem isBinary32_natAbs_s16 (x : Sample) : isBinary32 (s16 x).natAbs :=
  ⟨_, 0, (Nat.mul_one _).symm, by have := s16_bounds x; omega, by decide⟩

/-- Every Sample is exact in binary32 (R131). -/
theorem isBinary32_sample (x : Sample) : isBinary32 ((s16 x).natAbs * 2 ^ 149) :=
  ⟨_, 149, rfl, by have := s16_bounds x; omega, by decide⟩

/-- Multiplying by 1.0 changes no Sample. -/
theorem one_mul_sample (x : Sample) : (F32.ofInt 1).mul (.ofInt (s16 x)) = .ofInt (s16 x) := by
  have h := round_of_isBinary32 (isBinary32_sample x) (decide (s16 x < 0)) 149
  rw [F32.ofInt, F32.ofInt, mul_fin, Nat.mul_comm]
  simpa using h

/-- The smallest subnormal times a Sample is exact: no product is flushed (R133). -/
theorem leastSubnormal_mul_sample (x : Sample) :
    (F32.fin false 1).mul (.ofInt (s16 x)) = .fin (decide (s16 x < 0)) (s16 x).natAbs := by
  rw [F32.ofInt, mul_fin, Nat.one_mul, Bool.false_bne]
  exact round_of_isBinary32 (isBinary32_natAbs_s16 x) _ 149

theorem zero_mul_fin (n k : Bool) (b : Nat) : (F32.fin n 0).mul (.fin k b) = .fin (n != k) 0 := by
  rw [mul_fin, Nat.zero_mul]
  simpa using round_of_isBinary32 isBinary32_zero (n != k) 149

/-- Adding a zero of either sign changes no Sample: a sum of zeros is +0 unless both are -0, and no Sample is -0 (R145). -/
theorem sample_add_zero (x : Sample) (n : Bool) : (F32.ofInt (s16 x)).add (.fin n 0) = .ofInt (s16 x) := by
  have hzero : signed n 0 = 0 := by cases n <;> rfl
  rw [F32.ofInt, add_fin, hzero, add_zero, signed_ofInt]
  split
  · next h =>
    have hx : s16 x = 0 := by simpa using h
    simp [hx]
  · have hneg : s16 x * 2 ^ 149 < 0 ↔ s16 x < 0 := by omega
    have hround := round_of_isBinary32 (isBinary32_sample x) (decide (s16 x < 0)) 0
    rw [pow_zero, Nat.mul_one] at hround
    simp only [hneg, Int.natAbs_mul, Int.natAbs_pow]
    exact hround

/-! ### Every intermediate is finite (R133) -/

/-- A finite value of magnitude at most `b`, in units of 2^-149. -/
def FiniteWithin (b : Nat) (v : F32) : Prop := ∃ n m, v = .fin n m ∧ m ≤ b

theorem FiniteWithin.finite {b : Nat} {v : F32} (h : FiniteWithin b v) : ∃ n m, v = .fin n m := by
  obtain ⟨n, m, e, -⟩ := h
  exact ⟨n, m, e⟩

/-- A Sample times a value of magnitude at most 1 is at most 2^15. -/
theorem FiniteWithin.mul_sample {v : F32} (h : FiniteWithin (2 ^ 149) v) (x : Sample) :
    FiniteWithin (2 ^ 164) (v.mul (.ofInt (s16 x))) := by
  obtain ⟨n, m, rfl, hm⟩ := h
  have hprod : m * ((s16 x).natAbs * 2 ^ 149) ≤ 2 ^ (149 + 164) := by
    rw [Nat.pow_add]
    exact Nat.mul_le_mul hm (natAbs_s16_le x)
  exact ⟨_, round_le_pow hprod (by decide)⟩

/-- A sum whose exact magnitude a power of two bounds is finite and within the same bound. -/
theorem finiteWithin_add {n k : Bool} {a b e : Nat} (h : (signed n a + signed k b).natAbs ≤ 2 ^ e) (he : e < 277) :
    FiniteWithin (2 ^ e) ((F32.fin n a).add (.fin k b)) := by
  rw [add_fin]
  split
  · exact ⟨_, 0, rfl, Nat.zero_le _⟩
  · rw [← Nat.zero_add e] at h
    exact ⟨_, round_le_pow h he⟩

theorem FiniteWithin.add {v w : F32} (hv : FiniteWithin (2 ^ 164) v) (hw : FiniteWithin (2 ^ 164) w) :
    FiniteWithin (2 ^ 165) (v.add w) := by
  obtain ⟨n, a, rfl, ha⟩ := hv
  obtain ⟨k, b, rfl, hb⟩ := hw
  have habs := Int.natAbs_add_le (signed n a) (signed k b)
  rw [natAbs_signed, natAbs_signed] at habs
  exact finiteWithin_add (by omega) (by decide)

theorem coefficient_finite {a : Word} (ha : alphaOk a = true) : FiniteWithin (2 ^ 149) (.ofBits a) := by
  obtain ⟨m, hm, -, hle⟩ := alphaOk_fin ha
  exact ⟨false, m, hm, hle⟩

/-- 1 less a coefficient in (0, 1] is at most 1. -/
theorem one_sub_coefficient_finite {a : Word} (ha : alphaOk a = true) :
    FiniteWithin (2 ^ 149) ((F32.ofInt 1).sub (.ofBits a)) := by
  obtain ⟨m, hm, -, hle⟩ := alphaOk_fin ha
  rw [hm]
  refine finiteWithin_add ?_ (by decide)
  have hneg : signed (!false) m = -m := rfl
  have hone : signed (decide ((1 : Int) < 0)) (Int.natAbs 1 * 2 ^ 149) = 1 * 2 ^ 149 := signed_ofInt 1
  omega

/-- The sum `s` is at most 65536: each of its two terms is at most 2^15 (R133). -/
theorem filterSum_finite {a : Word} (ha : alphaOk a = true) (x p : Sample) :
    FiniteWithin (2 ^ 165) (filterSum (.ofBits a) (.ofInt (s16 x)) (.ofInt (s16 p))) :=
  ((coefficient_finite ha).mul_sample x).add ((one_sub_coefficient_finite ha).mul_sample p)

/-! ### The clamp and the truncation (R134, R135) -/

/-- The clamp of a finite value against integer bounds, on the exact values. -/
theorem clampF32_fin (n : Bool) (m : Nat) (lo hi : Int) :
    clampF32 (.fin n m) (.ofInt lo) (.ofInt hi) =
      if hi * 2 ^ 149 < signed n m then .ofInt hi else if signed n m < lo * 2 ^ 149 then .ofInt lo else .fin n m := by
  simp only [clampF32, F32.ofInt, gt_fin, lt_fin, signed_ofInt, decide_eq_true_eq]

/-- Truncation fixes the integer bounds and is monotone, so it commutes with the clamp (R147). -/
theorem truncz_clampF32 (n : Bool) (m : Nat) {lo hi : Int} (hle : lo ≤ hi) :
    (clampF32 (.fin n m) (.ofInt lo) (.ofInt hi)).truncz =
      some (if hi < (signed n m).tdiv (2 ^ 149) then hi
        else if (signed n m).tdiv (2 ^ 149) < lo then lo else (signed n m).tdiv (2 ^ 149)) := by
  rw [clampF32_fin]
  split
  · next habove =>
    have := le_tdiv_of_mul_le habove.le
    rw [truncz_ofInt]
    exact congrArg some (by split_ifs <;> omega)
  · next habove =>
    have hupper := tdiv_le_of_le_mul (not_lt.1 habove)
    split
    · next hbelow =>
      have := tdiv_le_of_le_mul hbelow.le
      rw [truncz_ofInt]
      exact congrArg some (by split_ifs <;> omega)
    · next hbelow =>
      have hlower := le_tdiv_of_mul_le (not_lt.1 hbelow)
      rw [truncz_fin, if_neg (by omega), if_neg (by omega)]

/-- Settles O55: the truncated integer of a finite value is its exact value divided toward zero. -/
theorem clampAndTruncationCommute : Obligations.ClampAndTruncationCommute :=
  fun n mag _ _ hle => ⟨_, truncz_fin n mag, truncz_clampF32 n mag hle⟩

/-- A finite sum gives FS a value, whatever the bounds. -/
theorem exists_truncz_clampF32 (n : Bool) (m : Nat) (lo hi : Int) :
    ∃ i, (clampF32 (.fin n m) (.ofInt lo) (.ofInt hi)).truncz = some i := by
  rw [clampF32_fin]
  split
  · exact ⟨_, truncz_ofInt hi⟩
  · split
    · exact ⟨_, truncz_ofInt lo⟩
    · exact ⟨_, truncz_fin n m⟩

theorem exists_filterValue {a : Word} (ha : alphaOk a = true) (p lo hi x : Sample) :
    ∃ y, filterValue a p lo hi x = some y := by
  obtain ⟨n, m, hsum⟩ := (filterSum_finite ha x p).finite
  obtain ⟨i, hi⟩ := exists_truncz_clampF32 n m (s16 lo) (s16 hi)
  exact ⟨bits16 i, by simp only [filterValue, hsum, hi, Option.map_some]⟩

/-! ### The coefficient 1.0 (R145) -/

theorem ofBits_one : F32.ofBits 0x3F800000 = .ofInt 1 := by decide

theorem one_sub_one : (F32.ofInt 1).sub (.ofInt 1) = .fin false 0 := by decide

theorem one_sub_one_mul_sample (p : Sample) :
    ((F32.ofInt 1).sub (.ofBits 0x3F800000)).mul (.ofInt (s16 p)) = .fin (decide (s16 p < 0)) 0 := by
  rw [ofBits_one, one_sub_one, F32.ofInt, zero_mul_fin, Bool.false_bne]

theorem filterSum_one (x p : Sample) :
    filterSum (.ofBits 0x3F800000) (.ofInt (s16 x)) (.ofInt (s16 p)) = .ofInt (s16 x) := by
  simp only [filterSum, one_sub_one_mul_sample]
  rw [ofBits_one, one_mul_sample, sample_add_zero]

/-- A Sample within the bounds passes the clamp and the conversion unchanged. -/
theorem filterValue_of_sum {a : Word} {p lo hi x : Sample}
    (h : filterSum (.ofBits a) (.ofInt (s16 x)) (.ofInt (s16 p)) = .ofInt (s16 x))
    (hlo : s16 lo ≤ s16 x) (hhi : s16 x ≤ s16 hi) : filterValue a p lo hi x = some x := by
  have hclamp : clampF32 (.ofInt (s16 x)) (.ofInt (s16 lo)) (.ofInt (s16 hi)) = .ofInt (s16 x) := by
    rw [F32.ofInt, clampF32_fin, signed_ofInt, if_neg (by omega), if_neg (by omega)]
  have hbits : bits16 (s16 x) = x := BitVec.ofInt_toInt
  simp only [filterValue, h, hclamp, truncz_ofInt, Option.map_some, hbits]

/-- Settles O54: the steps the rule gives, and FS by them. -/
theorem alphaOneIsIdentity : Obligations.AlphaOneIsIdentity := by
  intro p lo hi x hlo hhi
  refine ⟨filterValue_of_sum (filterSum_one x p) hlo hhi, ?_, ?_, ⟨_, one_sub_one_mul_sample p⟩, filterSum_one x p⟩
  · rw [ofBits_one, one_mul_sample]
  · rw [ofBits_one, one_sub_one]

/-- Settles O53: the bounds of every operation, and the rule's examples. -/
theorem filterIntermediatesFinite : Obligations.FilterIntermediatesFinite := by
  intro a p lo hi x ha
  obtain ⟨n, m, hsum, hle⟩ := filterSum_finite ha x p
  have homa := one_sub_coefficient_finite ha
  refine ⟨((coefficient_finite ha).mul_sample x).finite, homa.finite, (homa.mul_sample p).finite,
    ⟨n, m, hsum, by omega⟩, exists_filterValue ha p lo hi x, fun hp => ?negativeZero, rfl, ?subnormal⟩
  case negativeZero => rw [one_sub_one_mul_sample, decide_eq_true hp]
  case subnormal =>
    have hleast : F32.ofBits 0x00000001 = .fin false 1 := by decide
    rw [hleast, leastSubnormal_mul_sample]

/-- Settles O52: the clamp bounds the value before it is truncated, and the bounds are integers. -/
theorem filterStaysInBounds : Obligations.FilterStaysInBounds :=
  ⟨fun _ _ _ _ _ _ => filterValue_bounds, fun _ _ _ _ => filterValue_bounds (by decide), by decide +kernel, by decide⟩

end Sys2Proof.Machine
end

section
/-! PROOFS. What ENG's command step, INIT and RDREG do (R57, R138 to R143). -/

namespace Sys2Proof.Machine

/-! ### The command step of ENG (R138) -/

/-- A step takes the move at the head of the script. -/
theorem step_of_script {s : State} {m : Move} {ms : List Move} (hcfg : cfgWf s.cfg = true) (h : s.script = m :: ms) :
    step s = perform m { s with script := ms } := by
  have htake : s.takeMove = (m, { s with script := ms }) := by simp only [State.takeMove, h]
  rw [step_eq_perform s hcfg, htake]

/-- Settles O9: the script names ENG's command step, which runs the decoded command. -/
theorem stepRunsDecodedCommand : Obligations.StepRunsDecodedCommand := by
  intro s i rest ms hcfg heng hscript hnext
  rw [step_of_script hcfg hscript]
  simp only [perform, State.engCommand, heng, hnext]

/-- Settles O12: ENG's command step does nothing while it is busy or has no whole command. -/
theorem commandWaits : Obligations.CommandWaits := by
  intro s ms hcfg hscript hwait
  rw [step_of_script hcfg hscript]
  cases heng : s.eng with
  | handler c h i => simp only [perform, State.engCommand]
  | idle =>
    have hnext : nextCommand s.cmdq = none := hwait.resolve_left (not_not_intro heng)
    simp only [perform, State.engCommand, hnext]

/-! ### What a command leaves unchanged -/

/-- A number below NUM_CH has a record (R10). -/
theorem exists_chanCfg {cfg : Config} {c : Nat} (h : c < numCh cfg) : ∃ cc, chanCfg cfg c = some cc :=
  ⟨_, List.getElem?_eq_getElem h⟩

@[simp] theorem filter_respond (s : State) (st : Status) (d : Word) (c : Nat) :
    (s.respond st d).filter c = s.filter c := rfl

/-- A write of one channel's bank and a response leave the rest of the state alone. -/
theorem commandFrame_setFilter_respond (s : State) (c : Nat) (b : FilterBank) (st : Status) (d : Word) :
    CommandFrame s ((s.setFilter c b).respond st d) c := by
  constructor
  case filters => intro e he; simp [he]
  all_goals rfl

/-- Settles O14: INIT writes the channel's bank and responds. -/
theorem initLoadsBank : Obligations.InitLoadsBank := by
  intro s ch cc hcc hnew
  rcases execInit_cases ch s with ⟨h, -⟩ | ⟨-, -, h, -⟩ | ⟨cc', hcc', -, hexec⟩
  · cases hcc.symm.trans h
  · cases hnew.symm.trans h
  · cases hcc.symm.trans hcc'
    refine ⟨_, hexec, ?_⟩
    simp only [filter_respond, filter_setFilter, chanNum, if_true, true_and]
    exact ⟨rfl, rfl, rfl, rfl, commandFrame_setFilter_respond s ch.toNat _ _ _⟩

/-! ### RDREG (R52, R143) -/

theorem toNat_append_eq_add {m n : Nat} (hi : BitVec m) (lo : BitVec n) : (hi ++ lo).toNat = hi.toNat * 2 ^ n + lo.toNat := by
  rw [BitVec.toNat_append, ← Nat.shiftLeft_add_eq_or_of_lt lo.isLt, Nat.shiftLeft_eq]

/-- FLAGS as a number, field by field (R52). -/
theorem flagsWord_toNat (cc : ChannelCfg) (f : FilterBank) (a : ArbBank) :
    (flagsWord cc f a).toNat =
      f.initDone.toNat + 2 * (phaseBit a.phase).toNat + 4 * (halfCode a.swHalf).toNat +
        (16 * (pend a).toNat + 32 * (halfCode a.halfLatch).toNat) + 128 * cc.registered.toNat +
        256 * (filterEn cc.policy).toNat := by
  simp only [flagsWord, toNat_append_eq_add, BitVec.toNat_ofBool, BitVec.toNat_zero]
  omega

/-- RDREG of a legal selector whose register is read without a check of INIT_DONE. -/
theorem execRdreg_value {s : State} {ch : ChanId} {cc : ChannelCfg} {sel : BitVec 4} {d : Word}
    (hsel : selectorLegal sel = true) (hcc : chanCfg s.cfg (chanNum ch) = some cc)
    (h : readReg cc (s.filter (chanNum ch)) (s.arb (chanNum ch)) s.err sel = .value d) :
    execRdreg ch sel s = .next (s.respond .ok d) := by
  simp only [execRdreg, hsel, hcc, h, Bool.true_eq_false, if_false]

/-- RDREG of a filter register of an initialised channel. -/
theorem execRdreg_filterReg {s : State} {ch : ChanId} {cc : ChannelCfg} {sel : BitVec 4} {d : Word}
    (hsel : selectorLegal sel = true) (hcc : chanCfg s.cfg (chanNum ch) = some cc)
    (hi : (s.filter (chanNum ch)).initDone = true)
    (h : readReg cc (s.filter (chanNum ch)) (s.arb (chanNum ch)) s.err sel = .filterReg (some d)) :
    execRdreg ch sel s = .next (s.respond .ok d) := by
  simp only [execRdreg, hsel, hcc, h, hi, Bool.true_eq_false, if_false, if_true]

/-- Settles O22: each selector by the register it reads; a reserved one is refused before the channel is looked at. -/
theorem rdregReadsRegisters : Obligations.RdregReadsRegisters := by
  intro s ch cc hcc
  refine ⟨fun a p lo hi hb => ?filterRegs, ?flags, ?err, fun sel hsel => ?reserved⟩
  case filterRegs =>
    have hi : (s.filter ch.toNat).initDone = true := by rw [hb]; rfl
    refine ⟨execRdreg_filterReg (by decide) hcc hi ?_, execRdreg_filterReg (by decide) hcc hi ?_,
      execRdreg_filterReg (by decide) hcc hi ?_, execRdreg_filterReg (by decide) hcc hi ?_⟩
    all_goals rw [chanNum, hb]; rfl
  case flags =>
    refine ⟨_, execRdreg_value (by decide) hcc rfl, ?_⟩
    rw [flagsWord_toNat, chanNum]
    congr 5
    · cases (s.filter ch.toNat).initDone <;> rfl
    · cases (s.arb ch.toNat).phase <;> rfl
    · rcases (s.arb ch.toNat).swHalf with _ | (_ | _) <;> rfl
    · unfold pend
      rcases (s.arb ch.toNat).halfLatch with _ | (_ | _) <;> rfl
    · cases cc.registered <;> rfl
    · cases cc.policy <;> rfl
  case err => exact ⟨_, execRdreg_value (by decide) hcc rfl, BitVec.toNat_setWidth_of_le (by decide)⟩
  case reserved =>
    have hlegal : selectorLegal sel = false := by simpa [selectorLegal] using hsel
    simp only [exec, execRdreg, hlegal, if_true]
    rfl

end Sys2Proof.Machine
end

section
/-! PROOFS. FSAMPLE and FBLOCK (R141, R142, R149, R150, R246, R249). -/

namespace Sys2Proof.Machine

/-! ### FSAMPLE (R141) -/

theorem fs_liveBank (a : Word) (p lo hi x : Sample) : (liveBank a p lo hi).fs x = filterValue a p lo hi x := rfl

/-- Settles O18: FS has a value, which is stored and answered. -/
theorem fsampleFilters : Obligations.FsampleFilters := by
  intro s ch x a p lo hi hch hbank ha _
  obtain ⟨cc, hcc⟩ := exists_chanCfg hch
  obtain ⟨y, hy⟩ := exists_filterValue ha p lo hi x
  have hsample : s.filterSample ch.toNat x = .ok (y, s.setFilter ch.toNat (liveBank a y lo hi)) :=
    filterSample_ok_iff.2 ⟨by rw [hbank]; exact hy, by rw [hbank]; rfl⟩
  have hdone : (s.filter ch.toNat).initDone = true := by rw [hbank]; rfl
  have hexec : exec (.fsample ch x) s =
      .next ((s.setFilter ch.toNat (liveBank a y lo hi)).respond .ok (sext32 y)) := by
    simp only [exec, execFsample, chanNum, hcc, hdone, hsample, if_true]
  exact ⟨y, _, hy, hexec, by simp, rfl, rfl, rfl, rfl, commandFrame_setFilter_respond s ch.toNat _ _ _⟩

/-! ### FBLOCK's checks (R142, R249) -/

/-- FBLOCK of a channel that exists raises the status of its first failing check. -/
theorem execFblock_raise {s : State} {ch : ChanId} {size : BitVec 16} {src dst : Addr} {st : Status}
    (hch : ch.toNat < numCh s.cfg)
    (h : fblockStatus s.cfg (s.filter ch.toNat) size.toNat src.toNat dst.toNat = st) (hst : st ≠ .ok) :
    exec (.fblock ch size src dst) s = .next (s.raise st) := by
  obtain ⟨cc, hcc⟩ := exists_chanCfg hch
  simp only [exec, execFblock, chanNum, sizeNum, hcc, h]

section
variable {cfg : Config} {f : FilterBank} {size src dst : Nat}

theorem fblockStatus_align (hi : f.initDone = true) (h : src % 2 = 1 ∨ dst % 2 = 1) :
    fblockStatus cfg f size src dst = .align := by
  simp only [fblockStatus, hi, Bool.true_eq_false, if_false]
  rw [if_pos (by omega)]

theorem fblockStatus_range (hi : f.initDone = true) (hs : src % 2 = 0) (hd : dst % 2 = 0)
    (h : cfg.memBytes < src + 2 * size ∨ cfg.memBytes < dst + 2 * size) : fblockStatus cfg f size src dst = .range := by
  simp only [fblockStatus, hi, Bool.true_eq_false, if_false]
  rw [if_neg (by omega), if_pos (by omega)]

theorem fblockStatus_ownership (hi : f.initDone = true) (hs : src % 2 = 0) (hd : dst % 2 = 0)
    (hsm : src + 2 * size ≤ cfg.memBytes) (hdm : dst + 2 * size ≤ cfg.memBytes)
    (h : (meets cfg src (src + 2 * size) || meets cfg dst (dst + 2 * size)) = true) :
    fblockStatus cfg f size src dst = .ownership := by
  simp only [fblockStatus, hi, Bool.true_eq_false, if_false]
  rw [if_neg (by omega), if_neg (by omega), if_pos h]

end

/-- A declared region that holds an address is that of a buffer of N > 0 samples. -/
theorem bufN_pos_of_mem_regions {cfg : Config} {r : Nat × Nat} {x : Nat} (hr : r ∈ regions cfg) (h1 : r.1 ≤ x)
    (h2 : x < r.2) : 0 < bufN cfg := by
  obtain ⟨cc, -, b, -, rfl⟩ := mem_regions.1 hr
  simp only [bufRegion] at h1 h2
  omega

/-- Settles O19: the three statuses in the order of the checks. -/
theorem fblockCheckOrder : Obligations.FblockCheckOrder := by
  intro s ch size src dst hch hi
  refine ⟨fun halign => ?_, fun hs hd hrange => ?_, fun hs hd hsm hdm ⟨r, hr, x, h1, h2, hspan⟩ => ?_⟩
  · exact execFblock_raise hch (fblockStatus_align hi halign) (by decide)
  · exact execFblock_raise hch (fblockStatus_range hi hs hd hrange) (by decide)
  · have hN := bufN_pos_of_mem_regions hr h1 h2
    refine execFblock_raise hch (fblockStatus_ownership hi hs hd hsm hdm ?_) (by decide)
    rw [Bool.or_eq_true, meets_iff hN, meets_iff hN]
    exact hspan.imp (fun ⟨h3, h4⟩ => ⟨r, hr, x, h3, h4, h1, h2⟩) (fun ⟨h3, h4⟩ => ⟨r, hr, x, h3, h4, h1, h2⟩)

/-! ### A block of a live channel (R142, R149) -/

theorem filterLoop_succ_ok_iff {c n src dst : Nat} {s t : State} :
    filterLoop c (n + 1) src dst s = .ok t ↔
      ∃ u, s.filterMove c src dst = .ok u ∧ filterLoop c n (src + 2) (dst + 2) u = .ok t := by
  rw [filterLoop]
  cases s.filterMove c src dst <;> simp

/-- One element of a live channel: FS of the Sample at `src`. -/
theorem filterMove_live_ok_iff {s u : State} {c src dst : Nat} {a : Word} {p lo hi : Sample}
    (hbank : s.filter c = liveBank a p lo hi) :
    s.filterMove c src dst = .ok u ↔ src + 2 ≤ s.cfg.memBytes ∧ dst + 2 ≤ s.cfg.memBytes ∧
      ∃ y, filterValue a p lo hi (sampleAt s.mem src) = some y ∧ u = afterMove s c dst y := by
  rw [filterMove_ok_iff, hbank]
  rfl

theorem afterMove_liveBank {s : State} {c : Nat} {a : Word} {p lo hi : Sample} (hbank : s.filter c = liveBank a p lo hi)
    (dst : Nat) (y : Sample) : (afterMove s c dst y).filter c = liveBank a y lo hi := by
  rw [afterMove_filter, if_pos rfl, hbank]
  rfl

@[simp] theorem afterMove_cfg (s : State) (c dst : Nat) (y : Sample) : (afterMove s c dst y).cfg = s.cfg :=
  (afterMove_same s c dst y).cfg

/-- A block of a live channel with a good coefficient completes where both spans are in memory. -/
theorem exists_filterLoop {c n src dst : Nat} {s : State} {a : Word} {p lo hi : Sample}
    (hbank : s.filter c = liveBank a p lo hi) (ha : alphaOk a = true) (hs : src + 2 * n ≤ s.cfg.memBytes)
    (hd : dst + 2 * n ≤ s.cfg.memBytes) :
    ∃ t q, filterLoop c n src dst s = .ok t ∧ t.filter c = liveBank a q lo hi := by
  induction n generalizing src dst s p with
  | zero => exact ⟨s, p, rfl, hbank⟩
  | succ n ih =>
    obtain ⟨y, hy⟩ := exists_filterValue ha p lo hi (sampleAt s.mem src)
    have hmove : s.filterMove c src dst = .ok (afterMove s c dst y) :=
      (filterMove_live_ok_iff hbank).2 ⟨by omega, by omega, y, hy, rfl⟩
    obtain ⟨t, q, ht, hq⟩ := ih (src := src + 2) (dst := dst + 2) (afterMove_liveBank hbank dst y)
      (by rw [afterMove_cfg]; omega) (by rw [afterMove_cfg]; omega)
    exact ⟨t, q, filterLoop_succ_ok_iff.2 ⟨_, hmove, ht⟩, hq⟩

theorem samplesAt_succ (m : Memory) (b n : Nat) : samplesAt m b (n + 1) = sampleAt m b :: samplesAt m (b + 2) n := by
  simp only [samplesAt, List.range_succ_eq_map, List.map_cons, List.map_map]
  congr 1
  exact List.map_congr_left fun k _ => congrArg (sampleAt m) (by simp only [Nat.succ_eq_add_one]; omega)

/-- Memories that agree on a span hold the same Samples in it. -/
theorem samplesAt_congr {m m' : Memory} {b n : Nat} (h : ∀ x, b ≤ x → x < b + 2 * n → memRead m' x = memRead m x) :
    samplesAt m' b n = samplesAt m b n := by
  refine List.map_congr_left fun k hk => ?_
  have hk := List.mem_range.1 hk
  simp only [sampleAt]
  rw [h _ (by omega) (by omega), h _ (by omega) (by omega)]

/-- A block whose destination is at or below its source, or above all of it, reads every Sample before it writes there: its
outputs are the recurrence over the Samples at `src` (R142, R149). -/
theorem filterLoop_recurrence {c n src dst : Nat} {s t : State} {a : Word} {p lo hi : Sample}
    (hbank : s.filter c = liveBank a p lo hi) (hsep : dst ≤ src ∨ src + 2 * n ≤ dst)
    (h : filterLoop c n src dst s = .ok t) :
    ∃ ys, filterSeq a lo hi p (samplesAt s.mem src n) = some ys ∧ samplesAt t.mem dst n = ys ∧
      t.filter c = liveBank a ((p :: ys).getLast (by simp)) lo hi := by
  induction n generalizing src dst s p with
  | zero => cases h; exact ⟨[], rfl, rfl, hbank⟩
  | succ n ih =>
    obtain ⟨u, hu, ht⟩ := filterLoop_succ_ok_iff.1 h
    obtain ⟨-, -, y, hy, rfl⟩ := (filterMove_live_ok_iff hbank).1 hu
    obtain ⟨ys, hseq, hout, hlast⟩ := ih (afterMove_liveBank hbank dst y) (by omega) ht
    have hrest : samplesAt (afterMove s c dst y).mem (src + 2) n = samplesAt s.mem (src + 2) n :=
      samplesAt_congr fun x _ _ => by
        rw [afterMove_mem, memRead_memWriteBytes_outside _ (by rw [sampleBytes_length]; omega)]
    have hfirst : sampleAt t.mem dst = y := by
      rw [sampleAt, filterLoop_mem_outside ht (by omega), filterLoop_mem_outside ht (by omega), ← sampleAt, afterMove_mem,
        sampleAt_write_same]
    refine ⟨y :: ys, ?_, ?_, ?_⟩
    · rw [hrest] at hseq
      simp only [samplesAt_succ, filterSeq, hy, hseq, Option.map_some]
    · rw [samplesAt_succ, hfirst, hout]
    · rw [hlast]; simp

/-! ### FBLOCK (R142, R246) -/

/-- What a block and a response leave unchanged. -/
theorem SameBesidesBlock.commandFrame {s u : State} {c : Nat} (h : SameBesidesBlock s u c) (st : Status) (d : Word) :
    CommandFrame s (u.respond st d) c where
  cfg := h.cfg
  eng := h.eng
  filters := h.filters
  arbs := h.arbs
  cmdq := h.cmdq
  srcs := h.srcs
  xpts := h.xpts
  script := h.script
  draws := h.draws

/-- FBLOCK of a live channel whose checks pass runs its block and answers OK. -/
theorem execFblock_completes {s : State} {ch : ChanId} {size : BitVec 16} {src dst : Addr} {a : Word} {p lo hi : Sample}
    (hch : ch.toNat < numCh s.cfg) (hbank : s.filter ch.toNat = liveBank a p lo hi) (ha : alphaOk a = true)
    (hst : fblockStatus s.cfg (s.filter ch.toNat) size.toNat src.toNat dst.toNat = .ok) :
    ∃ u q, filterLoop ch.toNat size.toNat src.toNat dst.toNat s = .ok u ∧ u.filter ch.toNat = liveBank a q lo hi ∧
      exec (.fblock ch size src dst) s = .next (u.respond .ok 0) := by
  obtain ⟨cc, hcc⟩ := exists_chanCfg hch
  obtain ⟨-, -, -, hs, hd, -, -⟩ := fblockStatus_ok_iff.1 hst
  obtain ⟨u, q, hu, hq⟩ := exists_filterLoop hbank ha hs hd
  exact ⟨u, q, hu, hq, by simp only [exec, execFblock, chanNum, sizeNum, hcc, hst, hu]⟩

theorem respq_of_block {s u : State} {c : Nat} (h : SameBesidesBlock s u c) : (u.respond .ok 0).respq = s.respq ++ [0, 0] := by
  rw [respond_respq, h.respq]
  rfl

/-- Settles O20: the recurrence over spans in place or apart, and the frame of a block. -/
theorem fblockIsRecurrence : Obligations.FblockIsRecurrence := by
  intro s ch size src dst a p lo hi hch hbank ha _ hst hsep
  obtain ⟨u, -, hu, -, hexec⟩ := execFblock_completes hch hbank ha hst
  have hsame := filterLoop_same hu
  have hbefore : dst.toNat ≤ src.toNat ∨ src.toNat + 2 * size.toNat ≤ dst.toNat := by
    rcases hsep with rfl | hsep <;> omega
  obtain ⟨ys, hseq, hout, hlast⟩ := filterLoop_recurrence hbank hbefore hu
  exact ⟨ys, _, hseq, hexec, hout, hlast, fun x => filterLoop_mem_outside hu, respq_of_block hsame, hsame.err,
    hsame.commandFrame .ok 0⟩

/-- Settles O21: no address of either span is in a declared region, so every check passes. -/
theorem fblockCompletes : Obligations.FblockCompletes := by
  intro s ch size src dst a p lo hi hcfg hch hbank ha _ hs hd hsm hdm hown
  have hN : 0 < bufN s.cfg := by have := cfgWf_bufN hcfg; omega
  have hst : fblockStatus s.cfg (s.filter ch.toNat) size.toNat src.toNat dst.toNat = .ok := by
    rw [fblockStatus_ok_iff, hbank]
    refine ⟨rfl, hs, hd, hsm, hdm, ?_, ?_⟩ <;> rw [← Bool.not_eq_true, meets_iff hN] <;>
      rintro ⟨r, hr, x, h1, h2, h3, h4⟩
    · exact (hown r hr x h3 h4).1 ⟨h1, h2⟩
    · exact (hown r hr x h3 h4).2 ⟨h1, h2⟩
  obtain ⟨u, q, hu, hq, hexec⟩ := execFblock_completes hch hbank ha hst
  have hsame := filterLoop_same hu
  exact ⟨_, q, hexec, hq, fun x => filterLoop_mem_outside hu, hsame.overrun, hsame.seq, hsame.evrsv, respq_of_block hsame,
    hsame.err, hsame.commandFrame .ok 0⟩

end Sys2Proof.Machine
end

section
/-! PROOFS. The acceptance of events (R170 to R178, R191). -/

namespace Sys2Proof.Machine

/-- Settles O11: the script names the delivery, and ARB accepts the word by its decoder's answer. -/
theorem stepAcceptsEventWord : Obligations.StepAcceptsEventWord := by
  intro s w ms hcfg hscript
  have hstep : step s = State.acceptWord { s with script := ms } w := step_of_script hcfg hscript
  refine ⟨fun i hi => ?_, fun e he => ?_⟩
  · rw [hstep, State.acceptWord, hi]
  · rw [hstep, State.acceptWord, he]
    rfl

/-! ### What acceptance does to a registered channel (R173 to R177) -/

section
variable {s : State} {id : ChanId} (hreg : registered s.cfg id.toNat = true) (h : Half) (ph : Phase)
include hreg

theorem accept_of_registered : s.accept id h ph =
    ((s.ghostIf (decide ((s.arb id.toNat).phase = ph)) .seq).ghostIf (pend (s.arb id.toNat)) .overrun).setArb id.toNat
      ((s.arb id.toNat).accept h ph) := by
  rcases accept_cases s id h ph with ⟨hn, -⟩ | ⟨-, e⟩
  · rw [chanNum, hreg] at hn; cases hn
  · exact e

theorem accept_arb (d : Nat) :
    (s.accept id h ph).arb d = if d = id.toNat then (s.arb id.toNat).accept h ph else s.arb d := by
  rw [accept_of_registered hreg, arb_setArb]
  split
  · rfl
  · exact arb_congr (by simp) d

theorem accept_gf : (s.accept id h ph).gf =
    { s.gf with seq := s.gf.seq || decide ((s.arb id.toNat).phase = ph),
                overrun := s.gf.overrun || pend (s.arb id.toNat) } := by
  rw [accept_of_registered hreg, setArb_gf, ghostIf_gf, ghostIf_gf]
  cases pend (s.arb id.toNat) <;> cases decide ((s.arb id.toNat).phase = ph) <;> simp [ghostAdd]

theorem accept_ownedBySw (k : Half) : (s.accept id h ph).ownedBySw id.toNat k = decide (h = k) := by
  simp [State.ownedBySw, accept_arb hreg, ArbBank.accept, hreg]

end

/-- Acceptance writes arbiter banks and ghosts only. -/
theorem accept_frame (s : State) (id : ChanId) (h : Half) (ph : Phase) :
    s.accept id h ph = { s with arbs := (s.accept id h ph).arbs, gf := (s.accept id h ph).gf } := by
  rcases accept_cases s id h ph with ⟨-, e⟩ | ⟨-, e⟩ <;> rw [e]
  cases pend (s.arb (chanNum id)) <;> cases decide ((s.arb (chanNum id)).phase = ph) <;> rfl

theorem pend_iff {a : ArbBank} : pend a = true ↔ a.halfLatch ≠ none := Option.isSome_iff_ne_none

/-- The latch after acceptance: a pending half stays, and where none is pending the half just readied is latched (R175). -/
theorem accept_halfLatch (a : ArbBank) (h : Half) (ph : Phase) :
    (a.accept h ph).halfLatch = some (a.halfLatch.getD h) := by
  obtain ⟨-, -, _ | k⟩ := a <;> rfl

/-- The acceptance of an event that readies half `h` and not `k`, in full: the arbiter bank, the ghosts and the frame. -/
theorem accept_transition {s : State} {id : ChanId} (hreg : registered s.cfg id.toNat = true) {h k : Half} (hk : h ≠ k)
    (ph : Phase) :
    let t := s.accept id h ph
    (t.arb id.toNat).phase = ph ∧ (t.arb id.toNat).swHalf = some h ∧
      t.ownedBySw id.toNat h = true ∧ t.ownedBySw id.toNat k = false ∧
      (t.arb id.toNat).halfLatch = some ((s.arb id.toNat).halfLatch.getD h) ∧
      (t.gf.seq = true ↔ s.gf.seq = true ∨ (s.arb id.toNat).phase = ph) ∧
      (t.gf.overrun = true ↔ s.gf.overrun = true ∨ (s.arb id.toNat).halfLatch ≠ none) ∧
      t.gf.evrsv = s.gf.evrsv ∧ t.gf.staleSpan = s.gf.staleSpan ∧
      (∀ d, d ≠ id.toNat → t.arb d = s.arb d) ∧ t = { s with arbs := t.arbs, gf := t.gf } := by
  have harb : (s.accept id h ph).arb id.toNat = (s.arb id.toNat).accept h ph := by rw [accept_arb hreg, if_pos rfl]
  have hgf := accept_gf hreg h ph
  refine ⟨by rw [harb]; rfl, by rw [harb]; rfl, ?_, ?_, by rw [harb, accept_halfLatch], ?_, ?_, by rw [hgf], by rw [hgf],
    fun d hd => ?_, accept_frame s id h ph⟩
  · rw [accept_ownedBySw hreg, decide_eq_true rfl]
  · rw [accept_ownedBySw hreg, decide_eq_false hk]
  · rw [hgf, Bool.or_eq_true, decide_eq_true_eq]
  · rw [hgf, Bool.or_eq_true, pend_iff]
  · rw [accept_arb hreg, if_neg hd]

/-- Settles O23: the transition that readies the first half. -/
theorem evHalfTransition : Obligations.EvHalfTransition := by
  intro s id hreg
  obtain ⟨hphase, hsw, howned, hother, hlatch, hrest⟩ :=
    accept_transition hreg (h := .first) (k := .second) (by decide) .fillingSecond
  exact ⟨_, rfl, hphase, hsw, howned, hother, hlatch.trans (by cases (s.arb id.toNat).halfLatch <;> rfl), hrest⟩

/-- Settles O24: the transition that readies the second half. -/
theorem evFullTransition : Obligations.EvFullTransition := by
  intro s id hreg
  obtain ⟨hphase, hsw, howned, hother, hlatch, hrest⟩ :=
    accept_transition hreg (h := .second) (k := .first) (by decide) .fillingFirst
  exact ⟨_, rfl, hphase, hsw, howned, hother, hlatch.trans (by cases (s.arb id.toNat).halfLatch <;> rfl), hrest⟩

/-- Settles O25: an identity that is no channel's, or a channel's that is not registered, is not recognised. -/
theorem unrecognisedIdentityIsNoop : Obligations.UnrecognisedIdentityIsNoop := by
  intro s id hid
  have hreg : registered s.cfg id.toNat = false := by
    rw [← Bool.not_eq_true]
    intro hreg
    obtain ⟨cc, hc, hr⟩ := registered_chanCfg hreg
    rcases hid with hle | ⟨cc', hc', hr'⟩
    · exact absurd (chanCfg_lt hc) (Nat.not_lt.2 hle)
    · cases hc.symm.trans hc'
      rw [hr] at hr'; cases hr'
  have haccept (h : Half) (ph : Phase) : s.accept id h ph = s := by
    rcases accept_cases s id h ph with ⟨-, e⟩ | ⟨htrue, -⟩
    · exact e
    · rw [chanNum, hreg] at htrue; cases htrue
  exact ⟨congrArg Host.Outcome.next (haccept _ _), congrArg Host.Outcome.next (haccept _ _)⟩

end Sys2Proof.Machine
end

section
/-! PROOFS. The handler's steps: H_START with H_ABORT, H_SAMPLE, H_SUBMIT, and a run of H_SAMPLE steps as a block (R151,
R180 to R186). -/

namespace Sys2Proof.Machine

/-! ### Moves in order -/

theorem performAll_cons {m : Move} {ms : List Move} {s t : State} :
    performAll (m :: ms) s = .next t ↔ ∃ u, perform m s = .next u ∧ performAll ms u = .next t := by
  rw [performAll]
  cases perform m s <;> simp

theorem performAll_append {ms ns : List Move} {s t : State} :
    performAll (ms ++ ns) s = .next t ↔ ∃ u, performAll ms s = .next u ∧ performAll ns u = .next t := by
  induction ms generalizing s with
  | nil => simp [performAll]
  | cons m ms ih =>
    simp only [List.cons_append, performAll_cons, ih]
    exact ⟨fun ⟨v, hv, u, hu, ht⟩ => ⟨u, ⟨v, hv, hu⟩, ht⟩, fun ⟨u, ⟨v, hv, hu⟩, ht⟩ => ⟨v, hv, u, hu, ht⟩⟩

/-! ### H_START (R180, R183, R185) -/

section
variable {s : State} {c : Nat} {cc : ChannelCfg} {h : Half} (he : s.eng = .idle) (hc : chanCfg s.cfg c = some cc)
  (hl : (s.arb c).halfLatch = some h)
include he hc hl

theorem hStart_raw (hp : cc.policy = .raw) : s.hStart c = s.setEng (.handler c h (halfH s.cfg)) := by
  simp only [State.hStart, he, hc, hl, hp, if_true]

theorem hStart_filtered {out : Addr} (hp : cc.policy = .filtered out) :
    s.hStart c = if (s.filter c).initDone then s.setEng (.handler c h 0) else s.hAbort c := by
  simp only [State.hStart, he, hc, hl, hp, if_true]

end

/-- Settles O27, by the channel's policy and INIT_DONE. -/
theorem handlerStarts : Obligations.HandlerStarts := by
  intro s c cc h he hc hl
  cases hp : cc.policy with
  | raw =>
    exact ⟨fun _ => congrArg Host.Outcome.next (hStart_raw he hc hl hp), fun hn => absurd rfl hn, fun hn => absurd rfl hn⟩
  | filtered out =>
    have hstart := hStart_filtered he hc hl hp
    refine ⟨nofun, fun _ hi => ?started, fun _ hi => ?aborted⟩
    case started =>
      rw [hi, if_pos rfl] at hstart
      exact congrArg Host.Outcome.next hstart
    case aborted =>
      rw [hi, if_neg Bool.false_ne_true] at hstart
      have harb (d : Nat) : (s.hAbort c).arb d = if d = c then { s.arb c with halfLatch := none } else s.arb d :=
        arb_setArb (s.noteStatus .uninit) c d _
      exact ⟨s.hAbort c, congrArg Host.Outcome.next hstart, rfl, by rw [harb, if_pos rfl], by rw [harb, if_pos rfl],
        by rw [harb, if_pos rfl], fun d hd => by rw [harb, if_neg hd]⟩

/-! ### H_SUBMIT (R184) -/

/-- A handler with all its samples done submits. -/
theorem perform_engHandler_submit {s : State} {c : Nat} {h : Half} {cc : ChannelCfg}
    (he : s.eng = .handler c h (halfH s.cfg)) (hc : chanCfg s.cfg c = some cc) :
    perform .engHandler s = .next (s.hSubmit c cc h) := by
  simp only [perform, State.hNext, he, hc, if_true, finish]

theorem hSubmit_xpt (s : State) (c : Nat) (cc : ChannelCfg) (h : Half) (x : Nat) : (s.hSubmit c cc h).xpt x =
    if x = cc.xport then { s.xpt cc.xport with
      queue := (s.xpt cc.xport).queue ++ [{ ptr := submitPtr s.cfg cc h, len := submitLen s.cfg, sent := 0 }] }
    else s.xpt x :=
  xpt_submit s cc.xport x _ _

theorem hSubmit_arb (s : State) (c : Nat) (cc : ChannelCfg) (h : Half) (d : Nat) : (s.hSubmit c cc h).arb d =
    if d = c then { s.arb c with halfLatch := none } else s.arb d :=
  arb_setArb (s.submit cc.xport (submitPtr s.cfg cc h) (submitLen s.cfg)) c d _

/-- PTR as R184 gives it: the half's first sample in the buffer that the channel forwards. -/
theorem submitPtr_eq (cfg : Config) (cc : ChannelCfg) (h : Half) : submitPtr cfg cc h =
    BitVec.ofNat 32 ((submitBase cc).toNat + 2 * halfOff cfg h) := rfl

/-- Settles O29: a handler whose count is H submits. -/
theorem handlerSubmits : Obligations.HandlerSubmits := by
  intro s c h cc he hc
  refine ⟨s.hSubmit c cc h, perform_engHandler_submit he hc, rfl, by rw [hSubmit_xpt, if_pos rfl], ?_,
    fun x hx => by rw [hSubmit_xpt, if_neg hx], by rw [hSubmit_arb, if_pos rfl],
    fun d hd => by rw [hSubmit_arb, if_neg hd], rfl⟩
  rw [hSubmit_xpt, if_pos rfl, submitPtr_eq, submitBase]
  cases cc.policy <;> cases h <;> rfl

/-! ### H_SAMPLE (R182) -/

/-- The step of a handler with samples left: one element, from the capture buffer to the output buffer. -/
theorem perform_engHandler_sample {s t : State} {c i : Nat} {h : Half} {cc : ChannelCfg} {out : Addr}
    (he : s.eng = .handler c h i) (hc : chanCfg s.cfg c = some cc) (hp : cc.policy = .filtered out)
    (hi : i < halfH s.cfg) : perform .engHandler s = .next t ↔
      ∃ u, s.filterMove c (cc.capBase.toNat + 2 * (halfOff s.cfg h + i)) (out.toNat + 2 * (halfOff s.cfg h + i)) = .ok u ∧
        u.setEng (.handler c h (i + 1)) = t := by
  simp only [perform, State.hNext, he, hc, hp, hi, hi.ne, if_true, if_false, State.hSample, sampleAddr]
  cases s.filterMove c (cc.capBase.toNat + 2 * (halfOff s.cfg h + i)) (out.toNat + 2 * (halfOff s.cfg h + i)) <;>
    simp [finish]

/-- One element writes a filter bank, memory and STALE_SPAN. -/
theorem afterMove_frame (s : State) (c dst : Nat) (y : Sample) : afterMove s c dst y =
    { s with filters := (afterMove s c dst y).filters, mem := (afterMove s c dst y).mem,
             gf := (afterMove s c dst y).gf } := by
  unfold afterMove State.storeBytes
  cases stale (s.setFilter c { s.filter c with prevOut := some y }).xpts dst (sampleBytes y).length <;> rfl

theorem afterMove_gf_frame (s : State) (c dst : Nat) (y : Sample) :
    (afterMove s c dst y).gf = { s.gf with staleSpan := (afterMove s c dst y).gf.staleSpan } := by
  rw [afterMove_gf]
  split <;> rfl

/-- Settles O28: one element of a live channel. -/
theorem handlerFiltersOneSample : Obligations.HandlerFiltersOneSample := by
  intro s c i h cc out a p lo hi he hc hp hlt hbank ha _ hs hd
  obtain ⟨y, hy⟩ := exists_filterValue ha p lo hi (sampleAt s.mem (cc.capBase.toNat + 2 * (halfOff s.cfg h + i)))
  have hmove := (filterMove_live_ok_iff hbank).2 ⟨hs, hd, y, hy, rfl⟩
  have hperform := (perform_engHandler_sample he hc hp hlt).2 ⟨_, hmove, rfl⟩
  generalize out.toNat + 2 * (halfOff s.cfg h + i) = dst at *
  refine ⟨y, _, hy, hperform, rfl, afterMove_liveBank hbank dst y, ?value, fun x hlow hhigh => ?outside,
    (afterMove_same s c dst y).filters, afterMove_gf_frame s c dst y,
    congrArg (State.setEng · (.handler c h (i + 1))) (afterMove_frame s c dst y)⟩
  case value => rw [setEng_mem, afterMove_mem, sampleAt_write_same]
  case outside => rw [setEng_mem, afterMove_mem, memRead_write_sample_other _ y hlow hhigh]

/-! ### A run of H_SAMPLE steps as a block (R151, R182, R186) -/

theorem afterMove_setEng (s : State) (e : Eng) (c dst : Nat) (y : Sample) :
    afterMove (s.setEng e) c dst y = (afterMove s c dst y).setEng e := by
  rw [afterMove_frame, afterMove_frame s, afterMove_gf, afterMove_gf]
  simp only [afterMove_mem, afterMove_filters]
  rfl

/-- One element neither reads nor writes ENG. -/
theorem filterMove_setEng {s t : State} {e : Eng} {c src dst : Nat} :
    (s.setEng e).filterMove c src dst = .ok t ↔ ∃ u, s.filterMove c src dst = .ok u ∧ u.setEng e = t := by
  simp only [filterMove_ok_iff, afterMove_setEng]
  constructor
  · rintro ⟨hs, hd, y, hy, rfl⟩
    exact ⟨_, ⟨hs, hd, y, hy, rfl⟩, rfl⟩
  · rintro ⟨_, ⟨hs, hd, y, hy, rfl⟩, rfl⟩
    exact ⟨hs, hd, y, hy, rfl⟩

/-- Nor does a block. -/
theorem filterLoop_setEng {s t : State} {e : Eng} {c n src dst : Nat} :
    filterLoop c n src dst (s.setEng e) = .ok t ↔ ∃ u, filterLoop c n src dst s = .ok u ∧ u.setEng e = t := by
  induction n generalizing s src dst with
  | zero => simp [filterLoop]
  | succ n ih =>
    simp only [filterLoop_succ_ok_iff, filterMove_setEng, exists_exists_and_eq_and, ih]
    exact ⟨fun ⟨v, hv, u, hu, e⟩ => ⟨u, ⟨v, hv, hu⟩, e⟩, fun ⟨u, ⟨v, hv, hu⟩, e⟩ => ⟨v, hv, u, hu, e⟩⟩

/-- `n` steps of a handler with as many samples left run the block of those samples: the filter does not look at the count
that ENG keeps. -/
theorem performAll_hSample_iff {s t : State} {c i n : Nat} {h : Half} {cc : ChannelCfg} {out : Addr}
    (he : s.eng = .handler c h i) (hc : chanCfg s.cfg c = some cc) (hp : cc.policy = .filtered out)
    (hle : i + n ≤ halfH s.cfg) : performAll (List.replicate n .engHandler) s = .next t ↔
      ∃ u, filterLoop c n (cc.capBase.toNat + 2 * (halfOff s.cfg h + i)) (out.toNat + 2 * (halfOff s.cfg h + i)) s = .ok u ∧
        u.setEng (.handler c h (i + n)) = t := by
  induction n generalizing s i with
  | zero =>
    have hs : s.setEng (.handler c h i) = s := by rw [← he]; rfl
    simp [performAll, filterLoop, hs]
  | succ n ih =>
    have hrest {v : State} (hv : s.filterMove c (cc.capBase.toNat + 2 * (halfOff s.cfg h + i))
          (out.toNat + 2 * (halfOff s.cfg h + i)) = .ok v) :
        performAll (List.replicate n .engHandler) (v.setEng (.handler c h (i + 1))) = .next t ↔
          ∃ u, filterLoop c n (cc.capBase.toNat + 2 * (halfOff s.cfg h + i) + 2)
            (out.toNat + 2 * (halfOff s.cfg h + i) + 2) v = .ok u ∧ u.setEng (.handler c h (i + (n + 1))) = t := by
      have hcfg : v.cfg = s.cfg := by obtain ⟨-, -, y, -, rfl⟩ := filterMove_ok_iff.1 hv; exact afterMove_cfg s c _ y
      have hind := ih (s := v.setEng (.handler c h (i + 1))) rfl (hcfg ▸ hc) (by rw [setEng_cfg, hcfg]; omega)
      rw [setEng_cfg, hcfg, Nat.add_assoc i, Nat.add_comm 1] at hind
      simp only [filterLoop_setEng, exists_exists_and_eq_and] at hind
      exact hind
    simp only [List.replicate_succ, performAll_cons, perform_engHandler_sample he hc hp (by omega : i < halfH s.cfg),
      filterLoop_succ_ok_iff, exists_exists_and_eq_and]
    constructor
    · rintro ⟨v, hv, ht⟩
      obtain ⟨u, hu, rfl⟩ := (hrest hv).1 ht
      exact ⟨u, ⟨v, hv, hu⟩, rfl⟩
    · rintro ⟨u, ⟨v, hv, hu⟩, rfl⟩
      exact ⟨v, hv, (hrest hv).2 ⟨u, hu, rfl⟩⟩

/-- Settles O30: the run of H_SAMPLE steps is that block. -/
theorem handlerIsBlockFilter : Obligations.HandlerIsBlockFilter := by
  intro s t c i n h cc out he hc hp hle
  exact (performAll_hSample_iff he hc hp hle).trans (exists_congr fun u => and_congr_right fun _ => eq_comm)

end Sys2Proof.Machine
end

section
/-! PROOFS. ENG and the capture buffers (R45, R187). -/

namespace Sys2Proof.Machine

/-! ### The buffers of a well-formed configuration lie apart (WF7) -/

/-- No output buffer meets a capture buffer, of its own or of another channel. -/
theorem not_buffersMeet {cfg : Config} {c : Nat} {cc dd : ChannelCfg} {out : Addr} (hw : cfgWf cfg = true)
    (hc : chanCfg cfg c = some cc) (hp : cc.policy = .filtered out) (hd : dd ∈ cfg.chans) :
    ¬ buffersMeet cfg dd.capBase out := by
  intro hmeet
  have hwf : wf7 cfg = true := by
    simp only [cfgWf, Bool.and_eq_true] at hw
    tauto
  have hfalse : wf7 cfg = false := by
    obtain ⟨d, hd⟩ := List.getElem?_of_mem hd
    have hmeet' : buffersMeet cfg out dd.capBase := by
      obtain ⟨x, h1, h2, h3, h4⟩ := hmeet
      exact ⟨x, h3, h4, h1, h2⟩
    rcases Nat.lt_trichotomy c d with hlt | rfl | hlt
    · exact wf7_eq_false.2 (.inr ⟨c, d, cc, dd, out, _, hlt, hc, hd, .inr hp, .inl rfl, hmeet'⟩)
    · cases hc.symm.trans hd
      exact wf7_eq_false.2 (.inl ⟨cc, chanCfg_mem hc, out, hp, hmeet⟩)
    · exact wf7_eq_false.2 (.inr ⟨d, c, dd, cc, _, out, hlt, hd, hc, .inl rfl, .inr hp, hmeet⟩)
  rw [hwf] at hfalse
  cases hfalse

/-- So one of the two lies wholly before the other. -/
theorem buffers_apart {cfg : Config} {c : Nat} {cc dd : ChannelCfg} {out : Addr} (hw : cfgWf cfg = true)
    (hc : chanCfg cfg c = some cc) (hp : cc.policy = .filtered out) (hd : dd ∈ cfg.chans) :
    dd.capBase.toNat + 2 * bufN cfg ≤ out.toNat ∨ out.toNat + 2 * bufN cfg ≤ dd.capBase.toNat := by
  have hN := cfgWf_bufN hw
  by_contra hc'
  exact not_buffersMeet hw hc hp hd
    ⟨max dd.capBase.toNat out.toNat, by omega, by omega, by omega, by omega⟩

/-- The samples of a half are among those of the buffer (R26). -/
theorem halfOff_add_halfH_le (cfg : Config) (h : Half) : halfOff cfg h + halfH cfg ≤ bufN cfg := by
  cases h <;> simp only [halfOff, halfH] <;> omega

/-! ### What ENG's moves write (R142, R187) -/

/-- No command writes a byte of a declared region: FBLOCK alone writes memory, and its checks bar the regions (R142). -/
theorem exec_keeps_region {i : Instr} {s t : State} {r : Nat × Nat} {x : Nat} (hr : r ∈ regions s.cfg) (h1 : r.1 ≤ x)
    (h2 : x < r.2) (h : exec i s = .next t) : memRead t.mem x = memRead s.mem x := by
  cases i with
  | init ch =>
    replace h : execInit ch s = .next t := h
    rcases execInit_cases ch s with ⟨-, e⟩ | ⟨cc, -, -, e⟩ | ⟨cc, -, -, e⟩ <;> rw [e] at h <;> cases h <;> rfl
  | fsample ch v => rcases execFsample_cases h with ⟨-, rfl⟩ | ⟨cc, -, -, rfl⟩ | ⟨cc, y, -, -, -, rfl⟩ <;> rfl
  | fblock ch size src dst =>
    rcases execFblock_cases h with ⟨-, rfl⟩ | ⟨st, -, -, rfl⟩ | ⟨cc, u, -, hst, hu, rfl⟩
    · rfl
    · rfl
    · obtain ⟨-, -, -, -, -, -, hmeets⟩ := fblockStatus_ok_iff.1 hst
      refine filterLoop_mem_outside hu ?_
      by_contra hin
      have hmeet := (meets_iff (bufN_pos_of_mem_regions hr h1 h2)).2
        ⟨r, hr, x, (by omega : dst.toNat ≤ x), (by omega : x < dst.toNat + 2 * sizeNum size), h1, h2⟩
      rw [hmeets] at hmeet
      cases hmeet
  | rdreg ch sel => rcases execRdreg_cases h with ⟨st, -, rfl⟩ | ⟨d, rfl⟩ <;> rfl
  | evHalf id => cases h; rw [accept_mem]
  | evFull id => cases h; rw [accept_mem]

/-- Settles O46: a command writes host memory only, and a handler its channel's output buffer only. -/
theorem engineNeverWritesCaptureBuffers : Obligations.EngineNeverWritesCaptureBuffers := by
  intro s t m cc x hinv hm h hcc h1 h2
  cases m with
  | engCommand =>
    have hr : bufRegion s.cfg cc.capBase ∈ regions s.cfg := mem_regions.2 ⟨cc, hcc, _, .inl rfl, rfl⟩
    replace h : s.engCommand = .next t := h
    rcases engCommand_cases s with e | ⟨i, rest, -, -, e⟩ | ⟨_, rest, -, -, e⟩ <;> rw [e] at h
    · cases h; rfl
    · exact exec_keeps_region (s := { s with cmdq := rest }) hr h1 h2 h
    · cases h; rfl
  | engStart c =>
    cases h
    rcases hStart_cases s c with e | ⟨_, _, -, -, -, -, e⟩ | ⟨_, _, _, -, -, -, -, -, e⟩ |
      ⟨_, _, _, -, -, -, -, -, e⟩ <;> rw [e] <;> rfl
  | engHandler =>
    rcases hNext_cases (finish_eq_next h) with rfl | ⟨c, hf, dd, -, -, rfl⟩ | ⟨c, hf, i, dd, out, u, -, hc, hp, hlt, hu, rfl⟩
    · rfl
    · rfl
    · obtain ⟨-, -, y, -, rfl⟩ := filterMove_ok_iff.1 hu
      have hapart := buffers_apart hinv.cfgOk hc hp hcc
      have hin := halfOff_add_halfH_le s.cfg hf
      rw [setEng_mem, afterMove_mem]
      exact memRead_memWriteBytes_outside _ (by rw [sampleBytes_length, sampleAddr]; omega)
  | event | srcWrite | srcEvent | xptSend | hostCmd | hostTake | hostStore | hostLoad => cases hm

end Sys2Proof.Machine
end

section
/-! PROOFS. The two halves of a buffer filled and handled in turn (R190): what each phase does to one channel, and the
phases put together. -/

namespace Sys2Proof.Machine

/-! ### The recurrence and spans, part by part -/

/-- The recurrence over two sequences is that over the first, then over the second from its last output (R149). -/
theorem filterSeq_append {a : Word} {p lo hi : Sample} {xs ys us vs : List Sample} (hx : filterSeq a lo hi p xs = some us)
    (hy : filterSeq a lo hi ((p :: us).getLast (by simp)) ys = some vs) :
    filterSeq a lo hi p (xs ++ ys) = some (us ++ vs) := by
  induction xs generalizing p us with
  | nil => cases hx; exact hy
  | cons x xs ih =>
    rw [filterSeq] at hx
    cases hv : filterValue a p lo hi x with
    | none => simp [hv] at hx
    | some y =>
      simp only [hv, Option.map_eq_some_iff] at hx
      obtain ⟨us', hus, rfl⟩ := hx
      simp only [List.cons_append, filterSeq, hv, ih hus (by simpa using hy), Option.map_some]

theorem samplesAt_append (m : Memory) (b n k : Nat) :
    samplesAt m b (n + k) = samplesAt m b n ++ samplesAt m (b + 2 * n) k := by
  simp only [samplesAt, List.range_add, List.map_append, List.map_map]
  congr 1
  exact List.map_congr_left fun j _ => congrArg (sampleAt m) (by simp only; omega)

/-! ### One channel at one moment -/

/-- What the phases of R190 read and write of a state, besides memory: ENG, the banks, latch and SampleSource of one
channel, and the queue of its transport. -/
structure ChannelView where
  cfg : Config
  eng : Eng
  bank : FilterBank
  latch : Option Half
  src : Source
  queue : List Submission

/-- The view of channel `c`, whose transport is `x`. -/
def channelView (s : State) (c x : Nat) : ChannelView where
  cfg := s.cfg
  eng := s.eng
  bank := s.filter c
  latch := (s.arb c).halfLatch
  src := s.src c
  queue := (s.xpt x).queue

section
variable (s : State) (c x : Nat)

theorem channelView_storeBytes (a : Nat) (bs : List Byte) : channelView (s.storeBytes a bs) c x = channelView s c x := by
  simp [channelView, State.filter, State.arb, State.src, State.xpt]

theorem channelView_setSrc (r : Source) : channelView (s.setSrc c r) c x = { channelView s c x with src := r } := by
  simp [channelView, State.filter, State.arb, State.xpt]

theorem channelView_setEng (e : Eng) : channelView (s.setEng e) c x = { channelView s c x with eng := e } := rfl

/-- Acceptance with no handler pending latches the half (R175). -/
theorem channelView_accept {id : ChanId} (hreg : registered s.cfg id.toNat = true) (hid : id.toNat = c)
    (hl : (s.arb c).halfLatch = none) (h : Half) (ph : Phase) :
    channelView (s.accept id h ph) c x = { channelView s c x with latch := some h } := by
  subst hid
  have hlatch : ((s.accept id h ph).arb id.toNat).halfLatch = some h := by
    rw [accept_arb hreg, if_pos rfl, accept_halfLatch, hl]
    rfl
  simp [channelView, State.filter, State.src, State.xpt, hlatch]

theorem channelView_hSubmit (cc : ChannelCfg) (h : Half) : channelView (s.hSubmit c cc h) c cc.xport =
    { channelView s c cc.xport with
      eng := .idle, latch := none
      queue := (s.xpt cc.xport).queue ++ [{ ptr := submitPtr s.cfg cc h, len := submitLen s.cfg, sent := 0 }] } := by
  simp only [channelView, hSubmit_xpt, hSubmit_arb, if_true]
  rfl

/-- A block writes the bank of its channel, and nothing else of the view. -/
theorem channelView_filterLoop {n src dst : Nat} {t : State} (h : filterLoop c n src dst s = .ok t) :
    channelView t c x = { channelView s c x with bank := t.filter c } := by
  have hsame := filterLoop_same h
  simp only [channelView, hsame.cfg, hsame.eng, arb_congr hsame.arbs, src_congr hsame.srcs, xpt_congr hsame.xpts]

end

/-! ### The SampleSource over one half (R211) -/

/-- The other half of the buffer (R26). -/
def Half.other : Half → Half
  | .first => .second
  | .second => .first

/-- The event that a filled half owes (R211). -/
def Half.due : Half → Due
  | .first => .half
  | .second => .full

/-- Where the writer is once the half is ready (R173, R174). -/
def Half.nextPhase : Half → Phase
  | .first => .fillingSecond
  | .second => .fillingFirst

/-- SRC.EVENT of a source that owes the event of half `h` (R212). -/
theorem srcEvent_of_due {s : State} {c : Nat} {cc : ChannelCfg} {h : Half} (hc : chanCfg s.cfg c = some cc)
    (hd : (s.src c).due = h.due) :
    s.srcEvent c = .next ((s.accept (BitVec.ofNat 8 c) h h.nextPhase).clearDue c) := by
  cases h with
  | first =>
    simp only [State.srcEvent, hc, hd, Half.due, dueWord, State.acceptWord, decodeEvent_half]
    rfl
  | second =>
    simp only [State.srcEvent, hc, hd, Half.due, dueWord, State.acceptWord, decodeEvent_full]
    rfl

/-- A SampleSource that has written `k` samples of half `h`, its event still owed after the last (R211). -/
def fillingSource (cfg : Config) (h : Half) (k : Nat) : Source :=
  if k < halfH cfg then { wptr := halfOff cfg h + k, due := .none }
  else { wptr := halfOff cfg h.other, due := h.due }

/-- N is even (WF1), so the two halves are the buffer. -/
theorem halfH_even {cfg : Config} (hw : cfgWf cfg = true) : bufN cfg = 2 * halfH cfg := by
  simp only [cfgWf, wf1, Bool.and_eq_true, decide_eq_true_eq] at hw
  unfold halfH
  omega

theorem fillingSource_afterWrite {cfg : Config} {h : Half} {k : Nat} (heven : bufN cfg = 2 * halfH cfg) (hk : k < halfH cfg) :
    (fillingSource cfg h k).afterWrite cfg = fillingSource cfg h (k + 1) := by
  unfold fillingSource
  rw [if_pos hk]
  rcases Nat.lt_or_ge (k + 1) (halfH cfg) with hlt | hge
  · have hoff : halfOff cfg h + k + 1 ≠ bufN cfg ∧ halfOff cfg h + k + 1 ≠ halfH cfg := by
      cases h <;> simp only [halfOff] <;> omega
    rw [if_pos hlt, Source.afterWrite, if_neg hoff.1, if_neg hoff.2, Nat.add_assoc]
  · have hlast : k + 1 = halfH cfg := by omega
    rw [if_neg (by omega), Source.afterWrite, Nat.add_assoc, hlast]
    cases h with
    | first =>
      have hoff : halfOff cfg .first + halfH cfg = halfH cfg := Nat.zero_add _
      rw [hoff, if_neg (by omega), if_pos rfl]
      rfl
    | second => rw [if_pos (by simp only [halfOff]; omega)]; rfl

theorem halfH_pos {cfg : Config} (hw : cfgWf cfg = true) : 0 < halfH cfg := by
  have := cfgWf_bufN hw
  have := halfH_even hw
  omega

/-- A channel's number fits an identity (WF3, R27). -/
theorem channel_toNat {cfg : Config} {c : Nat} {cc : ChannelCfg} (hw : cfgWf cfg = true) (hc : chanCfg cfg c = some cc) :
    (BitVec.ofNat 8 c).toNat = c := by
  have hlt := chanCfg_lt hc
  simp only [cfgWf, wf3, Bool.and_eq_true, decide_eq_true_eq] at hw
  rw [BitVec.toNat_ofNat]
  exact Nat.mod_eq_of_lt (by omega)

theorem cfgWf_alpha {cfg : Config} {cc : ChannelCfg} (hw : cfgWf cfg = true) (hcc : cc ∈ cfg.chans) :
    alphaOk cc.alphaCfg = true := by
  simp only [cfgWf, wf4, Bool.and_eq_true, List.all_eq_true] at hw
  obtain ⟨⟨⟨⟨⟨-, h4⟩, -⟩, -⟩, -⟩, -⟩ := hw
  exact h4 cc hcc

/-! ### The phases of one half (R190) -/

section
variable {c : Nat} {cc : ChannelCfg} {s : State} {v : ChannelView} (hv : channelView s c cc.xport = v)
  (hw : cfgWf v.cfg = true) (hc : chanCfg v.cfg c = some cc)
include hv hw hc

/-- One write: the next sample of the half is in memory, and the SampleSource goes on or owes its event (R211). -/
theorem perform_srcWrite {h : Half} {k : Nat} (hsrc : v.src = fillingSource v.cfg h k) (hk : k < halfH v.cfg) (y : Sample) :
    ∃ t, perform (.srcWrite c y) s = .next t ∧
      channelView t c cc.xport = { v with src := fillingSource v.cfg h (k + 1) } ∧
      t.mem = memWriteBytes s.mem (cc.capBase.toNat + 2 * (halfOff v.cfg h + k)) (sampleBytes y) := by
  have hcfg : s.cfg = v.cfg := congrArg ChannelView.cfg hv
  have hnow : s.src c = { wptr := halfOff v.cfg h + k, due := .none } :=
    (congrArg ChannelView.src hv).trans (hsrc.trans (if_pos hk))
  have hafter : (s.src c).afterWrite v.cfg = fillingSource v.cfg h (k + 1) := by
    rw [← fillingSource_afterWrite (halfH_even hw) hk, ← hsrc, ← hv]
    rfl
  have hin := cfgWf_buffer hw (chanCfg_mem hc) (.inl rfl)
  have hoff := halfOff_add_halfH_le v.cfg h
  have hstore := store16_ok_iff.2 ⟨(by rw [hcfg]; omega : cc.capBase.toNat + 2 * (halfOff v.cfg h + k) + 2 ≤ s.cfg.memBytes),
    (rfl : s.storeBytes _ (sampleBytes y) = _)⟩
  refine ⟨(s.storeBytes (cc.capBase.toNat + 2 * (halfOff v.cfg h + k)) (sampleBytes y)).setSrc c
    (fillingSource v.cfg h (k + 1)), ?_, by rw [channelView_setSrc, channelView_storeBytes, hv], rfl⟩
  rw [hnow] at hafter
  simp only [perform, State.srcWrite, hcfg, hc, hnow, sampleAddr, hstore, hafter, if_true, finish]

/-- Writes up to the end of the half, from sample `k` of it. -/
theorem performAll_srcWrites {h : Half} {k : Nat} {xs : List Sample} (hsrc : v.src = fillingSource v.cfg h k)
    (hk : k + xs.length = halfH v.cfg) :
    ∃ t, performAll (xs.map (.srcWrite c ·)) s = .next t ∧
      channelView t c cc.xport = { v with src := fillingSource v.cfg h (halfH v.cfg) } ∧
      samplesAt t.mem (cc.capBase.toNat + 2 * (halfOff v.cfg h + k)) xs.length = xs ∧
      ∀ a, a < cc.capBase.toNat + 2 * (halfOff v.cfg h + k) ∨
        cc.capBase.toNat + 2 * (halfOff v.cfg h + k) + 2 * xs.length ≤ a → memRead t.mem a = memRead s.mem a := by
  induction xs generalizing s v k with
  | nil =>
    rw [List.length_nil, Nat.add_zero] at hk
    exact ⟨s, rfl, by rw [hv, ← hk, ← hsrc], rfl, fun _ _ => rfl⟩
  | cons y ys ih =>
    rw [List.length_cons] at hk ⊢
    obtain ⟨u, hu, huv, humem⟩ := perform_srcWrite hv hw hc hsrc (by omega) y
    obtain ⟨t, ht, htv, hys, hother⟩ := ih huv hw hc (k := k + 1) rfl (by show k + 1 + ys.length = halfH v.cfg; omega)
    simp only [Nat.mul_add, Nat.mul_one, ← Nat.add_assoc] at humem hys hother ⊢
    refine ⟨t, performAll_cons.2 ⟨u, hu, ht⟩, htv, ?_, fun a ha => ?_⟩
    · have hfirst : sampleAt t.mem (cc.capBase.toNat + 2 * halfOff v.cfg h + 2 * k) = y := by
        rw [sampleAt, hother _ (by omega), hother _ (by omega), ← sampleAt, humem, sampleAt_write_same]
      rw [samplesAt_succ, hfirst, hys]
    · rw [hother a (by omega), humem, memRead_memWriteBytes_outside _ (by rw [sampleBytes_length]; omega)]

/-- The event of a filled half, accepted with no handler pending: the half is latched, the other one is next (R212, R175). -/
theorem perform_srcEvent {h : Half} (hreg : cc.registered = true) (hsrc : v.src = fillingSource v.cfg h (halfH v.cfg))
    (hl : v.latch = none) :
    ∃ t, perform (.srcEvent c) s = .next t ∧
      channelView t c cc.xport = { v with latch := some h, src := fillingSource v.cfg h.other 0 } ∧ t.mem = s.mem := by
  have hnow : s.src c = { wptr := halfOff v.cfg h.other, due := h.due } :=
    (congrArg ChannelView.src hv).trans (hsrc.trans (if_neg (Nat.lt_irrefl _)))
  have hcleared : fillingSource v.cfg h.other 0 = { s.src c with due := .none } := by
    rw [fillingSource, if_pos (halfH_pos hw), hnow, Nat.add_zero]
  have hid := channel_toNat hw hc
  subst hv
  replace hc : chanCfg s.cfg c = some cc := hc
  have hregistered : registered s.cfg (BitVec.ofNat 8 c).toNat = true := by rw [hid, registered, hc]; exact hreg
  refine ⟨_, srcEvent_of_due hc (by rw [hnow]), ?_, ?_⟩
  · rw [State.clearDue, src_congr (accept_srcs s _ _ _), channelView_setSrc, channelView_accept s c _ hregistered hid hl,
      hcleared]
  · rw [clearDue_mem, accept_mem]

/-- H_START of the pending handler of an initialised channel (R180). -/
theorem perform_engStart {h : Half} {out : Addr} (hp : cc.policy = .filtered out) (he : v.eng = .idle)
    (hl : v.latch = some h) (hi : v.bank.initDone = true) :
    ∃ t, perform (.engStart c) s = .next t ∧ channelView t c cc.xport = { v with eng := .handler c h 0 } ∧
      t.mem = s.mem := by
  subst hv
  have hstart : s.hStart c = s.setEng (.handler c h 0) := (hStart_filtered he hc hl hp).trans (if_pos hi)
  exact ⟨_, congrArg Host.Outcome.next hstart, rfl, rfl⟩

/-- The H_SAMPLE steps of a handler, from its first: the recurrence over the half, in the output buffer (R149, R182). -/
theorem performAll_hSample {h : Half} {out : Addr} {p : Sample} (hp : cc.policy = .filtered out)
    (he : v.eng = .handler c h 0) (hbank : v.bank = liveBank cc.alphaCfg p cc.minCfg cc.maxCfg) :
    ∃ ys t, filterSeq cc.alphaCfg cc.minCfg cc.maxCfg p
        (samplesAt s.mem (cc.capBase.toNat + 2 * halfOff v.cfg h) (halfH v.cfg)) = some ys ∧
      performAll (List.replicate (halfH v.cfg) .engHandler) s = .next t ∧
      channelView t c cc.xport = { v with
        eng := .handler c h (halfH v.cfg)
        bank := liveBank cc.alphaCfg ((p :: ys).getLast (by simp)) cc.minCfg cc.maxCfg } ∧
      samplesAt t.mem (out.toNat + 2 * halfOff v.cfg h) (halfH v.cfg) = ys ∧
      ∀ a, a < out.toNat + 2 * halfOff v.cfg h ∨ out.toNat + 2 * halfOff v.cfg h + 2 * halfH v.cfg ≤ a →
        memRead t.mem a = memRead s.mem a := by
  have hcap := cfgWf_buffer hw (chanCfg_mem hc) (.inl rfl)
  have hout := cfgWf_buffer hw (chanCfg_mem hc) (.inr hp)
  have hapart := buffers_apart hw hc hp (chanCfg_mem hc)
  have hoff := halfOff_add_halfH_le v.cfg h
  have hsrc : cc.capBase.toNat + 2 * halfOff v.cfg h + 2 * halfH v.cfg ≤ v.cfg.memBytes := by omega
  have hdst : out.toNat + 2 * halfOff v.cfg h + 2 * halfH v.cfg ≤ v.cfg.memBytes := by omega
  have hsep : out.toNat + 2 * halfOff v.cfg h ≤ cc.capBase.toNat + 2 * halfOff v.cfg h ∨
      cc.capBase.toNat + 2 * halfOff v.cfg h + 2 * halfH v.cfg ≤ out.toNat + 2 * halfOff v.cfg h := by omega
  subst hv
  replace hc : chanCfg s.cfg c = some cc := hc
  obtain ⟨u, q, hu, -⟩ := exists_filterLoop (n := halfH s.cfg) (src := cc.capBase.toNat + 2 * halfOff s.cfg h)
    (dst := out.toNat + 2 * halfOff s.cfg h) hbank (cfgWf_alpha hw (chanCfg_mem hc)) hsrc hdst
  obtain ⟨ys, hseq, hys, hlast⟩ := filterLoop_recurrence hbank hsep hu
  refine ⟨ys, u.setEng (.handler c h (halfH s.cfg)), hseq, ?_, ?_, hys, fun a => filterLoop_mem_outside hu⟩
  · exact (performAll_hSample_iff he hc hp (Nat.zero_add _).le).2 ⟨u, hu, by rw [Nat.zero_add]⟩
  · rw [channelView_setEng, channelView_filterLoop _ _ _ hu, hlast]
    rfl

/-- H_SUBMIT of a handler with no sample left (R184). -/
theorem perform_engHandler_last {h : Half} (he : v.eng = .handler c h (halfH v.cfg)) :
    ∃ t, perform .engHandler s = .next t ∧
      channelView t c cc.xport = { v with
        eng := .idle, latch := none
        queue := v.queue ++ [{ ptr := submitPtr v.cfg cc h, len := submitLen v.cfg, sent := 0 }] } ∧
      t.mem = s.mem := by
  subst hv
  exact ⟨_, perform_engHandler_submit he hc, channelView_hSubmit s c cc h, rfl⟩

/-- One half, from the first write to the submission (R190): the recurrence from PREV_OUT stands in its half of the output
buffer, whose other half is as before. -/
theorem performAll_half {h : Half} {out : Addr} {p : Sample} {xs : List Sample} (hreg : cc.registered = true)
    (hp : cc.policy = .filtered out) (he : v.eng = .idle) (hl : v.latch = none) (hsrc : v.src = fillingSource v.cfg h 0)
    (hbank : v.bank = liveBank cc.alphaCfg p cc.minCfg cc.maxCfg) (hlen : xs.length = halfH v.cfg) :
    ∃ ys t, filterSeq cc.alphaCfg cc.minCfg cc.maxCfg p xs = some ys ∧
      performAll (fillHalf c xs ++ wholeHandler c (halfH v.cfg)) s = .next t ∧
      channelView t c cc.xport = { v with
        bank := liveBank cc.alphaCfg ((p :: ys).getLast (by simp)) cc.minCfg cc.maxCfg
        src := fillingSource v.cfg h.other 0
        queue := v.queue ++ [{ ptr := submitPtr v.cfg cc h, len := submitLen v.cfg, sent := 0 }] } ∧
      samplesAt t.mem (out.toNat + 2 * halfOff v.cfg h) (halfH v.cfg) = ys ∧
      ∀ a, out.toNat ≤ a → a < out.toNat + 2 * bufN v.cfg →
        a < out.toNat + 2 * halfOff v.cfg h ∨ out.toNat + 2 * halfOff v.cfg h + 2 * halfH v.cfg ≤ a →
        memRead t.mem a = memRead s.mem a := by
  obtain ⟨s₁, hwrites, hv₁, hxs, hother⟩ := performAll_srcWrites hv hw hc (k := 0) hsrc (by rw [hlen, Nat.zero_add])
  obtain ⟨s₂, hevent, hv₂, hmem₂⟩ := perform_srcEvent hv₁ hw hc hreg rfl hl
  obtain ⟨s₃, hstart, hv₃, hmem₃⟩ := perform_engStart hv₂ hw hc hp he rfl (congrArg FilterBank.initDone hbank)
  obtain ⟨ys, s₄, hseq, hsamples, hv₄, hys, houtside⟩ := performAll_hSample hv₃ hw hc hp rfl hbank
  obtain ⟨t, hsubmit, hvt, hmem⟩ := perform_engHandler_last hv₄ hw hc rfl
  rw [hmem₃, hmem₂] at hseq houtside
  rw [Nat.add_zero, hlen] at hxs
  refine ⟨ys, t, ?seq, ?run, ?view, ?out, fun a hlo hhi ha => ?frame⟩
  case seq => rw [← hxs]; exact hseq
  case run =>
    have hfill : performAll (fillHalf c xs) s = .next s₂ :=
      performAll_append.2 ⟨s₁, hwrites, performAll_cons.2 ⟨s₂, hevent, rfl⟩⟩
    refine performAll_append.2 ⟨s₂, hfill, performAll_cons.2 ⟨s₃, hstart, ?_⟩⟩
    rw [List.replicate_succ']
    exact performAll_append.2 ⟨s₄, hsamples, performAll_cons.2 ⟨t, hsubmit, rfl⟩⟩
  case view => rw [hvt, he, hl]
  case out => rw [hmem]; exact hys
  case frame =>
    have hapart := buffers_apart hw hc hp (chanCfg_mem hc)
    have hoff := halfOff_add_halfH_le v.cfg h
    rw [hmem, houtside a ha, hother a (by omega)]

end

/-- Settles O31: the first half from the PREV_OUT before it, the second from the last output of the first. -/
theorem continuityAcrossHalves : Obligations.ContinuityAcrossHalves := by
  intro s c cc out p xs ys hinv hc hreg hp hbank he hl hsrc hxs hys
  have hw := hinv.cfgOk
  have heven := halfH_even hw
  have hstart : s.src c = fillingSource s.cfg .first 0 := by
    rw [hsrc, fillingSource, if_pos (halfH_pos hw)]
    rfl
  obtain ⟨us, s₁, hus, hrun₁, hv₁, hout₁, -⟩ :=
    performAll_half (h := .first) (v := channelView s c cc.xport) rfl hw hc hreg hp he hl hstart hbank hxs
  obtain ⟨vs, t, hvs, hrun₂, hvt, hout₂, hframe⟩ := performAll_half (h := .second) hv₁ hw hc hreg hp he hl rfl rfl hys
  refine ⟨us ++ vs, t, filterSeq_append hus hvs, ?run, ?out, ?bank, ?queue, (congrArg ChannelView.eng hvt).trans he,
    (congrArg ChannelView.latch hvt).trans hl⟩
  case run =>
    rw [List.append_assoc (fillHalf c xs ++ _)]
    exact performAll_append.2 ⟨s₁, hrun₁, hrun₂⟩
  case out =>
    have hkept : samplesAt t.mem out.toNat (halfH s.cfg) = samplesAt s₁.mem out.toNat (halfH s.cfg) :=
      samplesAt_congr fun x h1 h2 => hframe x h1 (by show x < out.toNat + 2 * bufN s.cfg; omega) (.inl h2)
    rw [heven, Nat.two_mul, samplesAt_append, hkept]
    exact congrArg₂ (· ++ ·) hout₁ hout₂
  case bank =>
    have hlast : ((p :: us).getLast (by simp) :: vs).getLast (by simp) = (p :: (us ++ vs)).getLast (by simp) := by
      cases vs <;> simp
    rw [← hlast]
    exact congrArg ChannelView.bank hvt
  case queue =>
    have hfirst : submitPtr s.cfg cc .first = out := by
      rw [submitPtr_eq, submitBase, hp]
      exact BitVec.ofNat_toNat ..
    have hsecond : submitPtr s.cfg cc .second = out + BitVec.ofNat 32 (bufN s.cfg) := by
      rw [submitPtr_eq, submitBase, hp, heven]
      simp [halfOff, BitVec.ofNat_add]
    rw [← hsecond, ← hfirst]
    exact (congrArg ChannelView.queue hvt).trans (List.append_assoc ..)

end Sys2Proof.Machine
end

section
/-! PROOFS. What the environment does: the check of every write against what is still to be sent (R222), the host's ports
and stores (R230, R231), a SampleSource and its event (R211, R212), a transport's bytes (R221). -/

namespace Sys2Proof.Machine

/-! ### A write and what is still to be sent (R222) -/

theorem stale_iff {xpts : List Transport} {a n : Nat} :
    stale xpts a n = true ↔ ∃ t ∈ xpts, ∃ q ∈ t.queue, ∃ x, a ≤ x ∧ x < a + n ∧
      q.ptr.toNat + q.sent ≤ x ∧ x < q.ptr.toNat + q.len.toNat := by
  simp only [stale, List.any_eq_true, overlaps_iff]

theorem storeBytes_staleSpan (s : State) (a : Nat) (bs : List Byte) :
    (s.storeBytes a bs).gf.staleSpan = (s.gf.staleSpan || stale s.xpts a bs.length) := by
  rw [storeBytes_gf]
  cases stale s.xpts a bs.length <;> simp [ghostAdd]

/-- MemWrite changes memory and STALE_SPAN alone (R19, R222). -/
theorem storeBytes_gf_frame (s : State) (a : Nat) (bs : List Byte) :
    (s.storeBytes a bs).gf = { s.gf with staleSpan := (s.storeBytes a bs).gf.staleSpan } := by
  rw [storeBytes_gf]
  split <;> rfl

theorem storeBytes_frame (s : State) (a : Nat) (bs : List Byte) :
    s.storeBytes a bs = { s with mem := (s.storeBytes a bs).mem, gf := (s.storeBytes a bs).gf } := by
  unfold State.storeBytes
  cases stale s.xpts a bs.length <;> rfl

theorem memRead_memWriteBytes_at (m : Memory) (a : Nat) {bs : List Byte} {k : Nat} {b : Byte} (h : bs[k]? = some b) :
    memRead (memWriteBytes m a bs) (a + k) = b := by
  rw [memRead_memWriteBytes, if_pos (Nat.le_add_right a k), Nat.add_sub_cancel_left, h, Option.getD_some]

/-- Settles O36: the check before each write, and the write after it. -/
theorem staleSpanMarksLateWrites : Obligations.StaleSpanMarksLateWrites := by
  intro s a bs
  refine ⟨?mark, fun k b hb => memRead_memWriteBytes_at s.mem a hb, fun x hx => memRead_memWriteBytes_outside s.mem hx⟩
  rw [storeBytes_staleSpan, Bool.or_eq_true, stale_iff]

/-! ### The host's ports and stores (R230, R231) -/

/-- The spans of the FBLOCKs that the queue holds whole have a byte of `[lo, hi)` (R231, log 15). -/
theorem any_issuedSpans_iff {q : List Word} {lo hi : Nat} :
    ((issuedSpans q).any fun r => overlaps lo hi r.1 r.2) = true ↔
      ∃ x, lo ≤ x ∧ x < hi ∧ ∃ ch size src dst, Queued (.ok (.fblock ch size src dst)) q ∧ inSpans size src dst x := by
  simp only [List.any_eq_true, mem_issuedSpans, mem_commandSpans, overlaps_iff]
  constructor
  · rintro ⟨r, ⟨_, hq, ch, size, src, dst, rfl, hr⟩, x, h1, h2, h3, h4⟩
    refine ⟨x, h1, h2, ch, size, src, dst, hq, ?_⟩
    rcases hr with rfl | rfl
    · exact .inl ⟨h3, h4⟩
    · exact .inr ⟨h3, h4⟩
  · rintro ⟨x, h1, h2, ch, size, src, dst, hq, ⟨h3, h4⟩ | ⟨h3, h4⟩⟩
    · exact ⟨_, ⟨_, hq, ch, size, src, dst, rfl, .inl rfl⟩, x, h1, h2, h3, h4⟩
    · exact ⟨_, ⟨_, hq, ch, size, src, dst, rfl, .inr rfl⟩, x, h1, h2, h3, h4⟩

/-- The three conditions of R231: memory, no declared region, no span of an FBLOCK in the queue. -/
theorem hostMayTouch_iff {s : State} {a n : Nat} : s.hostMayTouch a n = true ↔ a + n ≤ s.cfg.memBytes ∧
    ¬ meets s.cfg a (a + n) = true ∧ ∀ x, a ≤ x → x < a + n → ∀ ch size src dst,
      Queued (.ok (.fblock ch size src dst)) s.cmdq → ¬ inSpans size src dst x := by
  simp only [State.hostMayTouch, Bool.and_eq_true, decide_eq_true_eq, Bool.not_eq_true', ← Bool.not_eq_true,
    any_issuedSpans_iff, and_assoc, not_exists, not_and]

theorem hostMayTouch_iff_of_cfgWf {s : State} {a n : Nat} (hw : cfgWf s.cfg = true) :
    s.hostMayTouch a n = true ↔ a + n ≤ s.cfg.memBytes ∧
      ∀ x, a ≤ x → x < a + n → (∀ r ∈ regions s.cfg, ¬(r.1 ≤ x ∧ x < r.2)) ∧
        ∀ ch size src dst, Queued (.ok (.fblock ch size src dst)) s.cmdq → ¬ inSpans size src dst x := by
  have hN : 0 < bufN s.cfg := by have := cfgWf_bufN hw; omega
  rw [hostMayTouch_iff, meets_iff hN]
  constructor
  · rintro ⟨hin, hmeet, hspan⟩
    exact ⟨hin, fun x h1 h2 => ⟨fun r hr ⟨h3, h4⟩ => hmeet ⟨r, hr, x, h1, h2, h3, h4⟩, hspan x h1 h2⟩⟩
  · rintro ⟨hin, hx⟩
    exact ⟨hin, fun ⟨r, hr, x, h1, h2, h3, h4⟩ => (hx x h1 h2).1 r hr ⟨h3, h4⟩, fun x h1 h2 => (hx x h1 h2).2⟩

/-- A host store leaves every byte that the host may not touch. -/
theorem hostStore_mem_of_barred {s : State} {a x : Nat} {bs : List Byte}
    (h : s.hostMayTouch a bs.length = true → ¬ (a ≤ x ∧ x < a + bs.length)) :
    memRead (s.hostStore a bs).mem x = memRead s.mem x := by
  rcases hostStore_cases s a bs with e | ⟨hm, e⟩ <;> rw [e]
  exact memRead_memWriteBytes_outside s.mem (by have := h hm; omega)

theorem hostTake_nil {s : State} (h : s.respq = []) : s.hostTake = s := by
  rw [State.hostTake, h, List.tail_nil, ← h]

/-- Settles O39: the ports by their definitions, and the store by the conditions of R231, which bar every byte that must
stay. -/
theorem hostStoresOnlyHostMemory : Obligations.HostStoresOnlyHostMemory := by
  intro s a bs
  refine ⟨fun w => rfl, fun w rest h => ?take, fun h => congrArg Host.Outcome.next (hostTake_nil h), rfl,
    s.hostStore a bs, rfl, fun r hr x h1 h2 => ?region, fun ch size src dst x hq hx => ?span,
    hostMayTouch_iff_of_cfgWf, fun hm k b hb => ?written, fun hm => ?refused, ?frame⟩
  case take => rw [perform, State.hostTake, h, List.tail_cons]
  case region =>
    refine hostStore_mem_of_barred fun hm ⟨h3, h4⟩ => ?_
    obtain ⟨-, hmeet, -⟩ := hostMayTouch_iff.1 hm
    exact hmeet ((meets_iff (bufN_pos_of_mem_regions hr h1 h2)).2 ⟨r, hr, x, h3, h4, h1, h2⟩)
  case span =>
    refine hostStore_mem_of_barred fun hm ⟨h3, h4⟩ => ?_
    obtain ⟨-, -, hspan⟩ := hostMayTouch_iff.1 hm
    exact hspan x h3 h4 ch size src dst hq hx
  case written =>
    rw [State.hostStore, if_pos hm]
    exact memRead_memWriteBytes_at s.mem a hb
  case refused => rw [State.hostStore, if_neg (by rw [hm]; decide)]
  case frame =>
    rcases hostStore_cases s a bs with e | ⟨-, e⟩ <;> rw [e]
    exact storeBytes_frame s a bs

/-! ### A SampleSource (R211, R212) -/

/-- SRC.WRITE where it is enabled and its sample lies in memory (R211). -/
theorem perform_srcWrite_eq {s : State} {c : Nat} {cc : ChannelCfg} (v : Sample) (hc : chanCfg s.cfg c = some cc)
    (hd : (s.src c).due = .none) (hin : cc.capBase.toNat + 2 * (s.src c).wptr + 2 ≤ s.cfg.memBytes) :
    perform (.srcWrite c v) s = .next ((s.storeBytes (cc.capBase.toNat + 2 * (s.src c).wptr) (sampleBytes v)).setSrc c
      ((s.src c).afterWrite s.cfg)) := by
  simp only [perform, State.srcWrite, hc, hd, sampleAddr, store16_ok_iff.2 ⟨hin, rfl⟩, if_true, finish]

/-- Settles O32: the sample is stored at the write index, and the index goes on. -/
theorem sourceWrites : Obligations.SourceWrites := by
  intro s c cc v hc hd hin
  refine ⟨_, perform_srcWrite_eq v hc hd hin, sampleAt_write_same _ _ v, fun x hlow hhigh => ?outside, ?source,
    fun d hne => ?others, storeBytes_gf_frame s _ _, ?frame⟩
  case outside => exact memRead_write_sample_other s.mem v hlow hhigh
  case source => rw [src_setSrc, if_pos rfl, Source.afterWrite, hd, halfH]
  case others => rw [src_setSrc, if_neg hne, src_congr (storeBytes_srcs s _ _)]
  case frame =>
    conv_lhs => rw [storeBytes_frame]
    rw [setSrc_srcs, storeBytes_srcs]
    rfl

theorem Due.eq_due_of_ne_none {d : Due} (h : d ≠ .none) : ∃ hf : Half, d = hf.due := by
  cases d with
  | none => exact absurd rfl h
  | half => exact ⟨.first, rfl⟩
  | full => exact ⟨.second, rfl⟩

/-- The events' meanings: acceptance of the half that is ready (R173, R174). -/
theorem exec_due (s : State) (id : ChanId) (hf : Half) :
    exec (if hf.due = .half then .evHalf id else .evFull id) s = .next (s.accept id hf hf.nextPhase) := by
  cases hf <;> rfl

/-- Acceptance leaves the sources alone, and SRC.EVENT then clears one debt (R212). -/
theorem src_clearDue_accept (s : State) (id : ChanId) (h : Half) (ph : Phase) (c d : Nat) :
    ((s.accept id h ph).clearDue c).src d = if d = c then { s.src c with due := .none } else s.src d := by
  rw [State.clearDue, src_setSrc, src_congr (accept_srcs s id h ph), src_congr (accept_srcs s id h ph)]

/-- Settles O33: the event that is owed is accepted, and then the debt is cleared. -/
theorem sourceRaisesItsEvent : Obligations.SourceRaisesItsEvent := by
  intro s c hlt hne
  obtain ⟨cc, hc⟩ := exists_chanCfg hlt
  obtain ⟨hf, hd⟩ := Due.eq_due_of_ne_none hne
  have hperform := srcEvent_of_due hc hd
  rw [BitVec.ofNat_toNat, BitVec.setWidth_eq] at hperform
  refine ⟨_, _, by rw [hd]; exact exec_due s c hf, hperform, ?_, fun d hdc => ?_, rfl⟩
  · rw [src_clearDue_accept, if_pos rfl]
  · rw [src_clearDue_accept, if_neg hdc]

/-! ### A transport (R221) -/

/-- XPT.SEND where its queue is not empty and the byte lies in memory (R221). -/
theorem perform_xptSend_eq {s : State} {x : Nat} {q : Submission} {rest : List Submission}
    (hq : (s.xpt x).queue = q :: rest) (hin : q.ptr.toNat + q.sent < s.cfg.memBytes) :
    perform (.xptSend x) s = .next (s.setXpt x
      { queue := queueAfterSend q rest, wire := (s.xpt x).wire ++ [memRead s.mem (q.ptr.toNat + q.sent)] }) := by
  simp only [perform, State.xptSend, hq, State.load8, hin, if_true, finish]

/-- Settles O35: the head of the queue gives one byte. -/
theorem transportSendsOneByte : Obligations.TransportSendsOneByte := by
  intro s x q rest hq hin
  refine ⟨_, perform_xptSend_eq hq hin, ?_, ?_, fun y hy => ?_, rfl⟩
  · rw [xpt_setXpt, if_pos rfl]
  · rw [xpt_setXpt, if_pos rfl, queueAfterSend]
  · rw [xpt_setXpt, if_neg hy]

end Sys2Proof.Machine
end

section
/-! PROOFS. The operations that leave the SampleSources and the transports alone, and what they do to the bytes still to be
sent (R222). -/

namespace Sys2Proof.Machine

/-- The byte at `x` is in the unsent part of a pending submission of some transport (R222). -/
def Unsent (s : State) (x : Nat) : Prop :=
  ∃ t ∈ s.xpts, ∃ q ∈ t.queue, q.ptr.toNat + q.sent ≤ x ∧ x < q.ptr.toNat + q.len.toNat

/-- The SampleSources and the transports are the same, and a byte still to be sent has changed only under STALE_SPAN. -/
structure Quiet (s t : State) : Prop where
  srcs : t.srcs = s.srcs
  xpts : t.xpts = s.xpts
  stale : s.gf.staleSpan = true → t.gf.staleSpan = true
  unsent : t.gf.staleSpan = false → ∀ x, Unsent s x → memRead t.mem x = memRead s.mem x

section
variable {s t u : State}

theorem Quiet.of_mem_eq (hsrcs : t.srcs = s.srcs) (hxpts : t.xpts = s.xpts) (hstale : t.gf.staleSpan = s.gf.staleSpan)
    (hmem : t.mem = s.mem) : Quiet s t :=
  ⟨hsrcs, hxpts, fun h => hstale.trans h, fun _ x _ => by rw [hmem]⟩

theorem Quiet.refl (s : State) : Quiet s s := .of_mem_eq rfl rfl rfl rfl

theorem Quiet.trans (h : Quiet s t) (k : Quiet t u) : Quiet s u where
  srcs := k.srcs.trans h.srcs
  xpts := k.xpts.trans h.xpts
  stale hs := k.stale (h.stale hs)
  unsent hu x hx := by
    have ht : t.gf.staleSpan = false := Bool.eq_false_iff.2 fun ht => by rw [k.stale ht] at hu; cases hu
    rw [k.unsent hu x (by simpa only [Unsent, h.xpts] using hx), h.unsent ht x hx]

/-- A write that changes a byte still to be sent adds STALE_SPAN (R222). -/
theorem quiet_storeBytes (s : State) (a : Nat) (bs : List Byte) : Quiet s (s.storeBytes a bs) where
  srcs := storeBytes_srcs s a bs
  xpts := storeBytes_xpts s a bs
  stale hs := by rw [storeBytes_staleSpan, hs, Bool.true_or]
  unsent hu x hx := by
    rw [storeBytes_staleSpan, Bool.or_eq_false_iff] at hu
    refine memRead_memWriteBytes_outside s.mem ?_
    by_contra hin
    obtain ⟨r, hr, q, hq, h1, h2⟩ := hx
    have hstale := stale_iff.2 ⟨r, hr, q, hq, x, (by omega : a ≤ x), (by omega : x < a + bs.length), h1, h2⟩
    rw [hu.2] at hstale
    cases hstale

theorem quiet_afterMove (s : State) (c dst : Nat) (y : Sample) : Quiet s (afterMove s c dst y) :=
  have hset : Quiet s (s.setFilter c { s.filter c with prevOut := some y }) := .of_mem_eq rfl rfl rfl rfl
  hset.trans (quiet_storeBytes _ dst (sampleBytes y))

theorem accept_staleSpan (s : State) (id : ChanId) (h : Half) (ph : Phase) :
    (s.accept id h ph).gf.staleSpan = s.gf.staleSpan := by
  rcases accept_cases s id h ph with ⟨-, e⟩ | ⟨hreg, -⟩
  · rw [e]
  · rw [accept_gf hreg]

theorem quiet_accept (s : State) (id : ChanId) (h : Half) (ph : Phase) : Quiet s (s.accept id h ph) :=
  .of_mem_eq (accept_srcs s id h ph) (accept_xpts s id h ph) (accept_staleSpan s id h ph) (accept_mem s id h ph)

theorem quiet_exec {i : Instr} (h : exec i s = .next t) : Quiet s t := by
  cases i with
  | init ch =>
    replace h : execInit ch s = .next t := h
    rcases execInit_cases ch s with ⟨-, e⟩ | ⟨cc, -, -, e⟩ | ⟨cc, -, -, e⟩ <;> rw [e] at h <;> cases h <;>
      exact .of_mem_eq rfl rfl rfl rfl
  | fsample ch x =>
    rcases execFsample_cases h with ⟨-, rfl⟩ | ⟨cc, -, -, rfl⟩ | ⟨cc, y, -, -, -, rfl⟩ <;>
      exact .of_mem_eq rfl rfl rfl rfl
  | fblock ch size src dst =>
    rcases execFblock_cases h with ⟨-, rfl⟩ | ⟨st, -, -, rfl⟩ | ⟨cc, u, -, -, hu, rfl⟩
    · exact .of_mem_eq rfl rfl rfl rfl
    · exact .of_mem_eq rfl rfl rfl rfl
    · have hblock : Quiet s u := filterLoop_induct (P := Quiet s) (fun k v w _ hv hw => by
        obtain ⟨-, -, y, -, rfl⟩ := filterMove_ok_iff.1 hw
        exact hv.trans (quiet_afterMove v _ _ y)) (.refl s) hu
      exact hblock.trans (.of_mem_eq rfl rfl rfl rfl)
  | rdreg ch sel =>
    rcases execRdreg_cases h with ⟨st, -, rfl⟩ | ⟨d, rfl⟩ <;> exact .of_mem_eq rfl rfl rfl rfl
  | evHalf id => cases h; exact quiet_accept s id _ _
  | evFull id => cases h; exact quiet_accept s id _ _

theorem quiet_engCommand (h : s.engCommand = .next t) : Quiet s t := by
  rcases engCommand_cases s with e | ⟨i, rest, -, -, e⟩ | ⟨_, rest, -, -, e⟩ <;> rw [e] at h
  · cases h; exact .refl s
  · have htake : Quiet s { s with cmdq := rest } := .of_mem_eq rfl rfl rfl rfl
    exact htake.trans (quiet_exec h)
  · cases h; exact .of_mem_eq rfl rfl rfl rfl

theorem quiet_hStart (s : State) (c : Nat) : Quiet s (s.hStart c) := by
  rcases hStart_cases s c with e | ⟨_, _, -, -, -, -, e⟩ | ⟨_, _, _, -, -, -, -, -, e⟩ |
    ⟨_, _, _, -, -, -, -, -, e⟩ <;> rw [e] <;> exact .of_mem_eq rfl rfl rfl rfl

theorem quiet_acceptWord {w : Word} (h : s.acceptWord w = .next t) : Quiet s t := by
  rcases acceptWord_cases s w with ⟨id, -, e⟩ | ⟨id, -, e⟩ | ⟨_, -, e⟩ <;> rw [e] at h <;> cases h
  · exact quiet_accept s id _ _
  · exact quiet_accept s id _ _
  · exact .of_mem_eq rfl rfl rfl rfl

theorem quiet_hostStore (s : State) (a : Nat) (bs : List Byte) : Quiet s (s.hostStore a bs) := by
  rcases hostStore_cases s a bs with e | ⟨-, e⟩ <;> rw [e]
  · exact .refl s
  · exact quiet_storeBytes s a bs

/-- A handler's step is quiet, or it is H_SUBMIT (R182, R184). -/
theorem hNext_quiet_or_submit (h : s.hNext = .ok t) :
    Quiet s t ∨ ∃ c hf cc, s.eng = .handler c hf (halfH s.cfg) ∧ chanCfg s.cfg c = some cc ∧ t = s.hSubmit c cc hf := by
  rcases hNext_cases h with rfl | hsubmit | ⟨c, hf, i, cc, out, u, -, -, -, -, hu, rfl⟩
  · exact .inl (.refl t)
  · exact .inr hsubmit
  · obtain ⟨-, -, y, -, rfl⟩ := filterMove_ok_iff.1 hu
    exact .inl ((quiet_afterMove s c _ y).trans (.of_mem_eq rfl rfl rfl rfl))

end

end Sys2Proof.Machine
end

section
/-! PROOFS. A SampleSource that keeps its contract stays in step with its arbiter (R212, R271). -/

namespace Sys2Proof.Machine

section
variable {s t : State} {c : Nat}

/-- SEQ and EVRSV come from events alone (R171, R177). -/
theorem Update.keeps_eventGhosts (h : Update false s t) : t.gf.seq = s.gf.seq ∧ t.gf.evrsv = s.gf.evrsv := by
  cases h with
  | @store _ _ a bs hin => rw [storeBytes_gf_frame]; exact ⟨rfl, rfl⟩
  | _ => exact ⟨rfl, rfl⟩

/-- A move that accepts no event leaves every PHASE, and adds neither of the two ghosts that mark a breach of contract. -/
theorem perform_keeps_phase {m : Move} (hm : acceptsEvent m = false) (h : perform m s = .next t) :
    (∀ d, (t.arb d).phase = (s.arb d).phase) ∧ t.gf.seq = s.gf.seq ∧ t.gf.evrsv = s.gf.evrsv := by
  have hu := updates_perform h
  rw [hm] at hu
  exact ⟨fun d => (hu.lift (r := fun u v => AtMostUnlatched (u.arb d) (v.arb d)) (fun _ => .refl _) .trans
      fun h => h.atMostUnlatched d).phase,
    hu.lift (r := fun u v => v.gf.seq = u.gf.seq ∧ v.gf.evrsv = u.gf.evrsv) (fun _ => ⟨rfl, rfl⟩)
      (fun h k => ⟨k.1.trans h.1, k.2.trans h.2⟩) Update.keeps_eventGhosts⟩

theorem perform_cfg {m : Move} (h : perform m s = .next t) : t.cfg = s.cfg :=
  ((updates_perform h).lift .refl .trans Update.grows).cfg

theorem phaseInStep_congr (hcfg : t.cfg = s.cfg) (hsrc : t.src c = s.src c)
    (hphase : (t.arb c).phase = (s.arb c).phase) : phaseInStep t c = phaseInStep s c := by
  simp only [phaseInStep, hcfg, hsrc, hphase]

theorem phaseInStep_of_none (hd : (s.src c).due = .none) : phaseInStep s c = true ↔
    (s.arb c).phase = if (s.src c).wptr < halfH s.cfg then .fillingFirst else .fillingSecond := by
  simp only [phaseInStep, hd, decide_eq_true_eq]

/-- While the event of a half is owed, PHASE is still at that half, where the other half's event has put it (R41). -/
theorem phaseInStep_of_due {h : Half} (hd : (s.src c).due = h.due) :
    phaseInStep s c = true ↔ (s.arb c).phase = h.other.nextPhase := by
  cases h <;> simp [phaseInStep, hd, Half.due, Half.other, Half.nextPhase]

/-- A write inside a half keeps to it, and the last one of a half owes its event (R211). -/
theorem phaseInStep_afterWrite (hw : cfgWf s.cfg = true) (hd : (s.src c).due = .none)
    (hs : phaseInStep s c = true) (hcfg : t.cfg = s.cfg) (hsrc : t.src c = (s.src c).afterWrite s.cfg)
    (hphase : (t.arb c).phase = (s.arb c).phase) : phaseInStep t c = true := by
  have heven := halfH_even hw
  have hpos := halfH_pos hw
  rw [phaseInStep_of_none hd] at hs
  unfold Source.afterWrite at hsrc
  split at hsrc
  · next hlast =>
    have hdue : (t.src c).due = Half.second.due := by rw [hsrc]; rfl
    rw [phaseInStep_of_due hdue, hphase, hs, if_neg (by omega)]
    rfl
  · split at hsrc
    · next hhalf =>
      have hdue : (t.src c).due = Half.first.due := by rw [hsrc]; rfl
      rw [phaseInStep_of_due hdue, hphase, hs, if_pos (by omega)]
      rfl
    · next hhalf =>
      have hsame : (s.src c).wptr + 1 < halfH s.cfg ↔ (s.src c).wptr < halfH s.cfg := by omega
      rw [phaseInStep_of_none (by rw [hsrc]; exact hd), hphase, hs, hcfg, hsrc]
      simp only [hsame]

/-- Once its event is accepted, a SampleSource fills the other half, and PHASE says so (R41, R212). -/
theorem phaseInStep_afterEvent {h : Half} (hw : cfgWf s.cfg = true) (hok : srcOk s.cfg (s.src c) = true)
    (hd : (s.src c).due = h.due) (hcfg : t.cfg = s.cfg) (hsrc : t.src c = { s.src c with due := .none })
    (hphase : (t.arb c).phase = h.nextPhase) : phaseInStep t c = true := by
  have hpos := halfH_pos hw
  obtain ⟨-, hhalf, hfull⟩ := srcOk_iff.1 hok
  rw [phaseInStep_of_none (by rw [hsrc]), hphase, hcfg, hsrc]
  cases h with
  | first => simp [hhalf hd, Half.nextPhase]
  | second => simp [hfull hd, hpos, Half.nextPhase]

/-- An event that its arbiter waits for adds no SEQ, and an unregistered channel's changes nothing (R172, R177). -/
theorem accept_of_phaseInStep {id : ChanId} {h : Half} (hd : (s.src id.toNat).due = h.due)
    (hs : registered s.cfg id.toNat = true → phaseInStep s id.toNat = true) :
    (s.accept id h h.nextPhase).gf.seq = s.gf.seq ∧ (s.accept id h h.nextPhase).gf.evrsv = s.gf.evrsv ∧
      ∀ d, registered s.cfg d = true →
        ((s.accept id h h.nextPhase).arb d).phase = if d = id.toNat then h.nextPhase else (s.arb d).phase := by
  cases hreg : registered s.cfg id.toNat with
  | false =>
    have hsame : s.accept id h h.nextPhase = s := by rw [State.accept, chanNum, hreg]; rfl
    rw [hsame]
    refine ⟨rfl, rfl, fun d hdreg => ?_⟩
    rw [if_neg]
    rintro rfl
    rw [hreg] at hdreg
    cases hdreg
  | true =>
    have hne : (s.arb id.toNat).phase ≠ h.nextPhase := by
      rw [(phaseInStep_of_due hd).1 (hs hreg)]
      cases h <;> decide
    rw [accept_gf hreg, decide_eq_false hne, Bool.or_false]
    refine ⟨rfl, rfl, fun d _ => ?_⟩
    rw [accept_arb hreg]
    split <;> rfl

/-- Every contract-keeping move but SRC.WRITE and SRC.EVENT leaves the SampleSources alone. -/
theorem perform_srcs {m : Move} (hm : acceptsEvent m = false) (hwrite : ∀ d v, m ≠ .srcWrite d v)
    (h : perform m s = .next t) : t.srcs = s.srcs := by
  cases m with
  | engCommand => exact (quiet_engCommand h).srcs
  | engStart d => cases h; exact (quiet_hStart s d).srcs
  | engHandler =>
    rcases hNext_quiet_or_submit (finish_eq_next h) with hq | ⟨d, hf, cc, -, -, rfl⟩
    · exact hq.srcs
    · rfl
  | srcWrite d v => exact absurd rfl (hwrite d v)
  | event w => cases hm
  | srcEvent d => cases hm
  | xptSend x => rcases xptSend_cases (finish_eq_next h) with rfl | ⟨q, rest, -, -, rfl⟩ <;> rfl
  | hostCmd w => cases h; rfl
  | hostTake => cases h; rfl
  | hostStore a bs => cases h; exact (quiet_hostStore s a bs).srcs
  | hostLoad a n => cases h; rfl

/-- SRC.WRITE: the writing source stays in step, and nothing changes for the others. -/
theorem srcWrite_phaseInStep {d : Nat} {v : Sample} (hinv : Inv s) (h : perform (.srcWrite d v) s = .next t)
    (hs : phaseInStep s c = true) : phaseInStep t c = true := by
  obtain ⟨hphase, -⟩ := perform_keeps_phase rfl h
  rcases srcWrite_cases (finish_eq_next h) with rfl | ⟨cc, hc, hd, -, rfl⟩
  · exact hs
  · have hsrc := src_setSrc (s.storeBytes (sampleAddr cc.capBase (s.src d).wptr) (sampleBytes v)) d c
      ((s.src d).afterWrite s.cfg)
    by_cases hcd : c = d
    · subst hcd
      rw [if_pos rfl] at hsrc
      exact phaseInStep_afterWrite hinv.cfgOk hd hs (perform_cfg h) hsrc (hphase c)
    · rw [if_neg hcd, src_congr (storeBytes_srcs s _ _)] at hsrc
      rw [phaseInStep_congr (perform_cfg h) hsrc (hphase c), hs]

/-- SRC.EVENT: the event is the one PHASE waits for, so the source is in step after it and no ghost is added. -/
theorem srcEvent_phaseInStep {d : Nat} (hinv : Inv s) (h : perform (.srcEvent d) s = .next t)
    (hs : ∀ c, registered s.cfg c = true → phaseInStep s c = true) :
    (∀ c, registered s.cfg c = true → phaseInStep t c = true) ∧ t.gf.seq = s.gf.seq ∧ t.gf.evrsv = s.gf.evrsv := by
  have hcfg := perform_cfg h
  replace h : s.srcEvent d = .next t := h
  cases hc : chanCfg s.cfg d with
  | none => rw [State.srcEvent, hc] at h; cases h; exact ⟨hs, rfl, rfl⟩
  | some cc =>
    by_cases hnone : (s.src d).due = .none
    · rw [State.srcEvent, hc, hnone] at h; cases h; exact ⟨hs, rfl, rfl⟩
    · obtain ⟨hf, hd⟩ := Due.eq_due_of_ne_none hnone
      rw [srcEvent_of_due hc hd] at h
      cases h
      have hid := channel_toNat hinv.cfgOk hc
      obtain ⟨hseq, hevrsv, hphase⟩ := accept_of_phaseInStep (id := BitVec.ofNat 8 d) (by rw [hid]; exact hd) (hs _)
      rw [hid] at hphase
      refine ⟨fun c hreg => ?_, hseq, hevrsv⟩
      have hsrc := src_clearDue_accept s (BitVec.ofNat 8 d) hf hf.nextPhase d c
      by_cases hcd : c = d
      · subst hcd
        rw [if_pos rfl] at hsrc
        obtain ⟨-, -, hok⟩ := chanOk_iff.1 (hinv.chansOk c (chanCfg_lt hc)) cc hc
        exact phaseInStep_afterEvent hinv.cfgOk hok hd hcfg hsrc ((hphase c hreg).trans (if_pos rfl))
      · rw [if_neg hcd] at hsrc
        rw [phaseInStep_congr hcfg hsrc ((hphase c hreg).trans (if_neg hcd)), hs c hreg]

end

/-- Settles O34: a write keeps to its half or owes the event PHASE waits for, that event moves PHASE on, and every other
contract-keeping move leaves both alone. -/
theorem contractKeepsPhaseInStep : Obligations.ContractKeepsPhaseInStep := by
  intro s t m hinv hm hs h
  replace hs : ∀ c, registered s.cfg c = true → phaseInStep s c = true := fun c hreg => by
    obtain ⟨cc, hc, -⟩ := registered_chanCfg hreg
    exact hs c (chanCfg_lt hc) hreg
  rw [perform_cfg h]
  cases m with
  | event w => cases hm
  | srcEvent d =>
    obtain ⟨hstep, hghosts⟩ := srcEvent_phaseInStep hinv h hs
    exact ⟨fun c _ hreg => hstep c hreg, hghosts⟩
  | srcWrite d v =>
    exact ⟨fun c _ hreg => srcWrite_phaseInStep hinv h (hs c hreg), (perform_keeps_phase rfl h).2⟩
  | _ =>
    obtain ⟨hphase, hghosts⟩ := perform_keeps_phase rfl h
    have hsrcs := perform_srcs rfl (by simp) h
    exact ⟨fun c _ hreg => (phaseInStep_congr (perform_cfg h) (src_congr hsrcs c) (hphase c)).trans (hs c hreg), hghosts⟩

end Sys2Proof.Machine
end

section
/-! PROOFS. The wire law: what a transport has promised grows at its end only (R224). -/

namespace Sys2Proof.Machine

/-! ### The unsent bytes of a submission (R74, R221) -/

theorem spanBytes_succ (m : Memory) (p n : Nat) : spanBytes m p (n + 1) = memRead m p :: spanBytes m (p + 1) n := by
  simp only [spanBytes, List.range_succ_eq_map, List.map_cons, List.map_map]
  congr 1
  exact List.map_congr_left fun k _ => congrArg (memRead m) (by simp only [Nat.succ_eq_add_one]; omega)

/-- The next unsent byte, and those after it. -/
theorem unsentBytes_of_lt (m : Memory) {q : Submission} (h : q.sent < q.len.toNat) :
    unsentBytes m q = memRead m (q.ptr.toNat + q.sent) :: unsentBytes m { q with sent := q.sent + 1 } := by
  have hlen : q.len.toNat - q.sent = q.len.toNat - (q.sent + 1) + 1 := by omega
  rw [unsentBytes, hlen, spanBytes_succ]
  rfl

theorem unsentBytes_of_le (m : Memory) {q : Submission} (h : q.len.toNat ≤ q.sent) : unsentBytes m q = [] := by
  rw [unsentBytes, Nat.sub_eq_zero_of_le h]
  rfl

/-- XPT.SEND moves the first promised byte of the queue to the wire (R221). -/
theorem unsentBytes_queueAfterSend (m : Memory) {q : Submission} (rest : List Submission) (h : q.sent < q.len.toNat) :
    (q :: rest).flatMap (unsentBytes m) =
      memRead m (q.ptr.toNat + q.sent) :: (queueAfterSend q rest).flatMap (unsentBytes m) := by
  rw [List.flatMap_cons, unsentBytes_of_lt m h, List.cons_append, queueAfterSend]
  split
  · next hlast =>
    rw [unsentBytes_of_le m (q := { q with sent := q.sent + 1 }) hlast.ge, List.nil_append]
  · rw [List.flatMap_cons]

/-! ### What each move does to a promise (R184, R221, R222) -/

section
variable {s t : State} {x : Nat}

/-- A transport's pending submissions are among those of all transports. -/
theorem unsent_of_mem_queue {q : Submission} {a : Nat} (hq : q ∈ (s.xpt x).queue) (h1 : q.ptr.toNat + q.sent ≤ a)
    (h2 : a < q.ptr.toNat + q.len.toNat) : Unsent s a := by
  rcases bankGet_mem Transport.atReset s.xpts x with hm | e
  · exact ⟨_, hm, q, hq, h1, h2⟩
  · rw [State.xpt, e] at hq
    cases hq

/-- A quiet step leaves every promise, while STALE_SPAN is not added. -/
theorem Quiet.promised_eq (h : Quiet s t) (hstale : t.gf.staleSpan = false) (x : Nat) :
    promised t x = promised s x := by
  rw [promised, promised, xpt_congr h.xpts]
  congr 1
  refine List.flatMap_congr fun q hq => List.map_congr_left fun k hk => ?_
  have hk := List.mem_range.1 hk
  exact h.unsent hstale _ (unsent_of_mem_queue hq (by omega) (by omega))

/-- XPT.SEND changes no promise: it moves a byte from the queue to the wire (R221). -/
theorem promised_xptSend {y : Nat} (hinv : Inv s) (h : s.xptSend y = .ok t) : promised t x = promised s x := by
  rcases xptSend_cases h with rfl | ⟨q, rest, hq, -, rfl⟩
  · rfl
  · rw [promised, promised, xpt_setXpt]
    split
    · next hxy =>
      subst hxy
      have hok : QueuesOk s := hinv.queuesOk
      obtain ⟨-, hlt⟩ := submissionOk_iff.1 (hok.xpt x q (by rw [hq]; exact List.mem_cons_self))
      rw [hq, unsentBytes_queueAfterSend s.mem rest hlt, List.append_assoc, List.singleton_append]
      rfl
    · rfl

theorem submitBase_isBuffer (cc : ChannelCfg) : isBuffer cc (submitBase cc) := by
  unfold isBuffer submitBase
  cases cc.policy <;> simp

/-- The record's fields are the numbers R184 gives: they fit 32 bits where the buffer lies in memory. -/
theorem submitPtr_toNat {cfg : Config} {cc : ChannelCfg} (hw : cfgWf cfg = true) (hcc : cc ∈ cfg.chans) (h : Half) :
    (submitPtr cfg cc h).toNat = (submitBase cc).toNat + 2 * halfOff cfg h := by
  have hin := cfgWf_buffer hw hcc (submitBase_isBuffer cc)
  have hmem := cfgWf_memBytes hw
  have hoff := halfOff_add_halfH_le cfg h
  have hpos := halfH_pos hw
  rw [submitPtr_eq, BitVec.toNat_ofNat]
  exact Nat.mod_eq_of_lt (by omega)

theorem submitLen_toNat {cfg : Config} {cc : ChannelCfg} (hw : cfgWf cfg = true) (hcc : cc ∈ cfg.chans) :
    (submitLen cfg).toNat = bufN cfg := by
  have hin := cfgWf_buffer hw hcc (submitBase_isBuffer cc)
  have hmem := cfgWf_memBytes hw
  have hN := cfgWf_bufN hw
  rw [submitLen, BitVec.toNat_ofNat]
  exact Nat.mod_eq_of_lt (by omega)

/-- H_SUBMIT promises the bytes that the half holds, at the end of its transport's (R184). -/
theorem promised_hSubmit {cc : ChannelCfg} (hw : cfgWf s.cfg = true) (hcc : cc ∈ s.cfg.chans) (c : Nat) (h : Half) :
    promised (s.hSubmit c cc h) x = promised s x ++
      if x = cc.xport then spanBytes s.mem ((submitBase cc).toNat + 2 * halfOff s.cfg h) (bufN s.cfg) else [] := by
  have hspan : unsentBytes s.mem { ptr := submitPtr s.cfg cc h, len := submitLen s.cfg, sent := 0 } =
      spanBytes s.mem ((submitBase cc).toNat + 2 * halfOff s.cfg h) (bufN s.cfg) := by
    rw [unsentBytes, submitPtr_toNat hw hcc, submitLen_toNat hw hcc]
    rfl
  rw [promised, promised, hSubmit_xpt]
  split
  · next hx =>
    rw [hx, List.flatMap_append, List.flatMap_singleton, ← List.append_assoc, ← hspan]
    rfl
  · rw [List.append_nil]
    rfl

theorem promised_setSrc (c : Nat) (r : Source) : promised (s.setSrc c r) x = promised s x := rfl

theorem promised_srcWrite {c : Nat} {v : Sample} (h : s.srcWrite c v = .ok t) (hstale : t.gf.staleSpan = false) :
    promised t x = promised s x := by
  rcases srcWrite_cases h with rfl | ⟨cc, -, -, -, rfl⟩
  · rfl
  · rw [promised_setSrc]
    exact (quiet_storeBytes s _ _).promised_eq hstale x

theorem promised_srcEvent {c : Nat} (h : s.srcEvent c = .next t) (hstale : t.gf.staleSpan = false) :
    promised t x = promised s x := by
  rcases srcEvent_cases s c with e | ⟨cc, -, -, e⟩ | ⟨cc, -, -, e⟩ <;> rw [e] at h <;> cases h
  · rfl
  · rw [State.clearDue, promised_setSrc]
    exact (quiet_accept s _ _ _).promised_eq hstale x
  · rw [State.clearDue, promised_setSrc]
    exact (quiet_accept s _ _ _).promised_eq hstale x

/-- No move but H_SUBMIT changes a promise, while STALE_SPAN is not added (R224). -/
theorem promised_perform_or_submit {m : Move} (hinv : Inv s) (h : perform m s = .next t)
    (hstale : t.gf.staleSpan = false) (x : Nat) :
    promised t x = promised s x ∨
    ∃ c hf cc, s.eng = .handler c hf (halfH s.cfg) ∧ chanCfg s.cfg c = some cc ∧ t = s.hSubmit c cc hf := by
  cases m with
  | engCommand => exact .inl ((quiet_engCommand h).promised_eq hstale x)
  | engStart c => cases h; exact .inl ((quiet_hStart s c).promised_eq hstale x)
  | engHandler => exact (hNext_quiet_or_submit (finish_eq_next h)).imp_left fun hq => hq.promised_eq hstale x
  | event w => exact .inl ((quiet_acceptWord h).promised_eq hstale x)
  | srcWrite c v => exact .inl (promised_srcWrite (finish_eq_next h) hstale)
  | srcEvent c => exact .inl (promised_srcEvent h hstale)
  | xptSend y => exact .inl (promised_xptSend hinv (finish_eq_next h))
  | hostCmd w => cases h; exact .inl rfl
  | hostTake => cases h; exact .inl rfl
  | hostStore a bs => cases h; exact .inl ((quiet_hostStore s a bs).promised_eq hstale x)
  | hostLoad a n => cases h; exact .inl rfl

/-- The wire law of one move. -/
theorem promised_perform {m : Move} (hinv : Inv s) (h : perform m s = .next t) (hstale : t.gf.staleSpan = false)
    (x : Nat) :
    promised t x = promised s x ∨
    ∃ c hf cc, s.eng = .handler c hf (halfH s.cfg) ∧ t.eng = .idle ∧ chanCfg s.cfg c = some cc ∧ cc.xport = x ∧
      promised t x = promised s x ++ spanBytes s.mem ((submitBase cc).toNat + 2 * halfOff s.cfg hf) (bufN s.cfg) := by
  rcases promised_perform_or_submit hinv h hstale x with hsame | ⟨c, hf, cc, he, hc, rfl⟩
  · exact .inl hsame
  · have hsubmit := promised_hSubmit (x := x) hinv.cfgOk (chanCfg_mem hc) c hf
    by_cases hx : x = cc.xport
    · rw [if_pos hx] at hsubmit
      exact .inr ⟨c, hf, cc, he, rfl, hc, hx.symm, hsubmit⟩
    · rw [if_neg hx, List.append_nil] at hsubmit
      exact .inl hsubmit

end

/-- A step is a move, of the state without it (R22). -/
theorem exists_perform_of_step {s t : State} (hw : cfgWf s.cfg = true) (h : step s = .next t) :
    ∃ m script draws, perform m { s with script := script, draws := draws } = .next t := by
  rw [step_eq_perform s hw] at h
  rcases takeMove_cases s with ⟨m, rest, -, e⟩ | ⟨-, e⟩ <;> rw [e] at h
  · exact ⟨m, rest, s.draws, h⟩
  · exact ⟨_, s.script, s.draws + 1, h⟩

/-- Settles O37: no promise looks at the script, and the move of the step obeys the law. -/
theorem wireLaw : Obligations.WireLaw := by
  intro s t x hinv h hstale
  obtain ⟨m, script, draws, hm⟩ := exists_perform_of_step hinv.cfgOk h
  have hinv' : Inv { s with script := script, draws := draws } :=
    (Update.ports (ev := false) s.cmdq s.respq script draws).keeps_inv hinv
  rcases promised_perform hinv' hm hstale x with hsame | ⟨c, hf, cc, he, hidle, hc, hx, hsubmit⟩
  · exact .inl hsame
  · refine .inr ⟨c, hf, cc, he, hidle, hc, hx, hsubmit.trans ?_⟩
    rw [submitBase]
    cases cc.policy <;> rfl

end Sys2Proof.Machine
end

section
/-! PROOFS. The statuses that the checks before a command's work answer (R140 to R143, R150, R242 to R244). -/

namespace Sys2Proof.Machine

/-- Settles O15: of INIT's three cases, the one that finds INIT_DONE set. -/
theorem secondInitAnswersReinit : Obligations.SecondInitAnswersReinit := by
  intro s ch hch hdone
  obtain ⟨cc, hcc⟩ := exists_chanCfg hch
  rcases execInit_cases ch s with ⟨hnone, -⟩ | ⟨-, -, -, hexec⟩ | ⟨-, -, hnew, -⟩
  · cases hcc.symm.trans hnone
  · exact hexec
  · cases hdone.symm.trans hnew

/-! ### A channel that does not exist (R242) -/

/-- A number from NUM_CH on has no record (R10). -/
theorem chanCfg_eq_none {cfg : Config} {c : Nat} (h : numCh cfg ≤ c) : chanCfg cfg c = none :=
  List.getElem?_eq_none h

/-- Settles O16: each command looks up its channel first, RDREG once its selector is known to be legal. -/
theorem missingChannelAnswersNochan : Obligations.MissingChannelAnswersNochan := by
  rintro s i hwf ⟨ch, hch, hi⟩
  have hnone : chanCfg s.cfg (chanNum ch) = none := chanCfg_eq_none hch
  show exec i s = .next (s.raise .nochan)
  rcases hi with rfl | ⟨x, rfl⟩ | ⟨size, src, dst, rfl⟩ | ⟨sel, rfl⟩
  · simp only [exec, execInit, hnone]
  · simp only [exec, execFsample, hnone]
  · simp only [exec, execFblock, hnone]
  · have hsel : selectorLegal sel = true := hwf
    simp only [exec, execRdreg, hsel, hnone, Bool.true_eq_false, if_false]

/-! ### A channel that is not initialised (R243) -/

/-- INIT_DONE is the first of FBLOCK's own checks. -/
theorem fblockStatus_uninit {f : FilterBank} (hnew : f.initDone = false) (cfg : Config) (size src dst : Nat) :
    fblockStatus cfg f size src dst = .uninit := if_pos hnew

theorem filterSelector_cases {sel : BitVec 4} (h : sel.toNat ≤ 3) : sel = 0 ∨ sel = 1 ∨ sel = 2 ∨ sel = 3 := by
  revert sel; decide

theorem selectorLegal_cases {sel : BitVec 4} (h : selectorLegal sel = true) : sel.toNat ≤ 3 ∨ sel = 4 ∨ sel = 5 := by
  revert sel; decide

/-- Selectors 0 to 3 name the filter registers (R57). -/
theorem readReg_filterReg (cc : ChannelCfg) (f : FilterBank) (a : ArbBank) (err : BitVec 8) {sel : BitVec 4}
    (h : sel.toNat ≤ 3) : ∃ d, readReg cc f a err sel = .filterReg d := by
  rcases filterSelector_cases h with rfl | rfl | rfl | rfl
  all_goals exact ⟨_, rfl⟩

/-- Settles O17: each of the three looks at INIT_DONE right after it has looked up its channel. -/
theorem uninitialisedUseAnswersUninit : Obligations.UninitialisedUseAnswersUninit := by
  intro s i ch hch hnew hi
  obtain ⟨cc, hcc⟩ := exists_chanCfg hch
  show exec i s = .next (s.raise .uninit)
  rcases hi with ⟨x, rfl⟩ | ⟨size, src, dst, rfl⟩ | ⟨sel, hsel, rfl⟩
  · simp only [exec, execFsample, chanNum, hcc, hnew, Bool.false_eq_true, if_false]
  · exact execFblock_raise hch (fblockStatus_uninit hnew _ _ _ _) (by decide)
  · have hlegal : selectorLegal sel = true := decide_eq_true (by omega)
    obtain ⟨d, hd⟩ := readReg_filterReg cc (s.filter ch.toNat) (s.arb ch.toNat) s.err hsel
    simp only [exec, execRdreg, chanNum, hlegal, hcc, hd, hnew, Bool.true_eq_false, Bool.false_eq_true, if_false]

end Sys2Proof.Machine
end

section
/-! PROOFS. The acceptances of two channels' events commute (R250). -/

namespace Sys2Proof.Machine

/-- An identity that is not recognised changes nothing (R172). -/
theorem accept_of_not_registered {s : State} {id : ChanId} (hreg : registered s.cfg id.toNat = false) (h : Half)
    (ph : Phase) : s.accept id h ph = s := by
  rcases accept_cases s id h ph with ⟨-, e⟩ | ⟨htrue, -⟩
  · exact e
  · cases hreg.symm.trans htrue

/-- Acceptance on a registered channel as one update: its arbiter bank, and the two ghosts it may add. -/
theorem accept_eq {s : State} {id : ChanId} (hreg : registered s.cfg id.toNat = true) (h : Half) (ph : Phase) :
    s.accept id h ph = { s with
      arbs := bankSet .atReset s.arbs id.toNat ((s.arb id.toNat).accept h ph)
      gf := { s.gf with seq := s.gf.seq || decide ((s.arb id.toNat).phase = ph)
                        overrun := s.gf.overrun || pend (s.arb id.toNat) } } := by
  have harbs : (s.accept id h ph).arbs = bankSet .atReset s.arbs id.toNat ((s.arb id.toNat).accept h ph) := by
    rw [accept_of_registered hreg, setArb_arbs, ghostIf_arbs, ghostIf_arbs]
  rw [accept_frame, harbs, accept_gf hreg]

/-- Acceptances on two channels read and write different arbiter banks, and ghosts are only added. -/
theorem accept_comm (s : State) {c d : ChanId} (hne : c ≠ d) (h k : Half) (ph qh : Phase) :
    (s.accept c h ph).accept d k qh = (s.accept d k qh).accept c h ph := by
  have hcd : c.toNat ≠ d.toNat := fun e => hne (BitVec.eq_of_toNat_eq e)
  cases hc : registered s.cfg c.toNat with
  | false => rw [accept_of_not_registered hc, accept_of_not_registered (s := s.accept d k qh) (by rwa [accept_cfg])]
  | true =>
    cases hd : registered s.cfg d.toNat with
    | false => rw [accept_of_not_registered hd, accept_of_not_registered (s := s.accept c h ph) (by rwa [accept_cfg])]
    | true =>
      have harbd : (s.accept c h ph).arb d.toNat = s.arb d.toNat := by rw [accept_arb hc, if_neg hcd.symm]
      have harbc : (s.accept d k qh).arb c.toNat = s.arb c.toNat := by rw [accept_arb hd, if_neg hcd]
      rw [accept_eq (s := s.accept c h ph) (by rwa [accept_cfg]), harbd, accept_eq hc,
        accept_eq (s := s.accept d k qh) (by rwa [accept_cfg]), harbc, accept_eq hd]
      simp only [bankSet_comm _ _ _ _ hcd, Bool.or_right_comm]

/-- An event is the acceptance of the half it readies, in every state (R173, R174). -/
theorem exec_event {i : Instr} {c : ChanId} (hi : i = .evHalf c ∨ i = .evFull c) :
    ∃ h ph, ∀ s, exec i s = .next (s.accept c h ph) := by
  rcases hi with rfl | rfl
  · exact ⟨.first, .fillingSecond, fun _ => rfl⟩
  · exact ⟨.second, .fillingFirst, fun _ => rfl⟩

/-- Settles O26: both orders reach the same state. -/
theorem eventsOfTwoChannelsCommute : Obligations.EventsOfTwoChannelsCommute := by
  intro s t u i j c d hne hi hj hst htu
  obtain ⟨h, ph, hexec_i⟩ := exec_event hi
  obtain ⟨k, qh, hexec_j⟩ := exec_event hj
  cases (hexec_i s).symm.trans hst
  cases (hexec_j _).symm.trans htu
  exact ⟨_, hexec_j s, by rw [hexec_i, accept_comm s hne]⟩

end Sys2Proof.Machine
end

section
/-! PROOFS. No state of the invariant stops: every access is in memory and every register FS needs holds a value (R37, R88,
R133, R246). -/

namespace Sys2Proof.Machine

/-- Each sample of a buffer lies in memory (R79, WF6). -/
theorem sample_in_memory {cfg : Config} {cc : ChannelCfg} {b : Addr} {k : Nat} (hw : cfgWf cfg = true)
    (hcc : cc ∈ cfg.chans) (hb : isBuffer cc b) (hk : k < bufN cfg) :
    b.toNat + 2 * k + 2 ≤ cfg.memBytes := by
  have := cfgWf_buffer hw hcc hb
  omega

/-! ### The acceptance of an event completes in every state (R178, R212) -/

theorem exists_perform_event (s : State) (w : Word) : ∃ t, perform (.event w) s = .next t := by
  rcases acceptWord_cases s w with ⟨_, -, e⟩ | ⟨_, -, e⟩ | ⟨_, -, e⟩ <;> exact ⟨_, e⟩

theorem exists_perform_srcEvent (s : State) (c : Nat) : ∃ t, perform (.srcEvent c) s = .next t := by
  rcases srcEvent_cases s c with e | ⟨_, -, -, e⟩ | ⟨_, -, -, e⟩ <;> exact ⟨_, e⟩

section
variable {s : State} (hinv : Inv s)
include hinv

/-- An initialised bank holds all four registers, its coefficient and its bounds good ones (R37, WF4, WF5). -/
theorem Inv.liveBank {c : Nat} {cc : ChannelCfg} (hc : chanCfg s.cfg c = some cc) (hdone : (s.filter c).initDone = true) :
    ∃ a p lo hi, s.filter c = liveBank a p lo hi ∧ alphaOk a = true ∧ s16 lo ≤ s16 hi := by
  obtain ⟨hfilter, -, -⟩ := chanOk_iff.1 (hinv.chansOk c (chanCfg_lt hc)) cc hc
  rcases filterOk_iff.1 hfilter with hreset | ⟨p, -, hlive⟩
  · rw [hreset] at hdone; cases hdone
  · exact ⟨_, p, _, _, hlive, cfgWf_alpha hinv.cfgOk (chanCfg_mem hc), cfgWf_bounds hinv.cfgOk (chanCfg_mem hc)⟩

/-! ### Instructions -/

theorem exists_exec_fsample (ch : ChanId) (x : Sample) : ∃ t, exec (.fsample ch x) s = .next t := by
  rcases Nat.lt_or_ge ch.toNat (numCh s.cfg) with hch | hmissing
  · obtain ⟨cc, hcc⟩ := exists_chanCfg hch
    cases hdone : (s.filter ch.toNat).initDone with
    | false => exact ⟨_, uninitialisedUseAnswersUninit s _ ch hch hdone (.inl ⟨x, rfl⟩)⟩
    | true =>
      obtain ⟨a, p, lo, hi, hbank, ha, hle⟩ := hinv.liveBank hcc hdone
      obtain ⟨-, t, -, hexec, -⟩ := fsampleFilters s ch x a p lo hi hch hbank ha hle
      exact ⟨t, hexec⟩
  · exact ⟨_, missingChannelAnswersNochan s _ rfl ⟨ch, hmissing, .inr (.inl ⟨x, rfl⟩)⟩⟩

theorem exists_exec_fblock (ch : ChanId) (size : BitVec 16) (src dst : Addr) :
    ∃ t, exec (.fblock ch size src dst) s = .next t := by
  rcases Nat.lt_or_ge ch.toNat (numCh s.cfg) with hch | hmissing
  · obtain ⟨cc, hcc⟩ := exists_chanCfg hch
    by_cases hst : fblockStatus s.cfg (s.filter ch.toNat) size.toNat src.toNat dst.toNat = .ok
    · obtain ⟨hdone, -⟩ := fblockStatus_ok_iff.1 hst
      obtain ⟨a, p, lo, hi, hbank, ha, -⟩ := hinv.liveBank hcc hdone
      obtain ⟨u, -, -, -, hexec⟩ := execFblock_completes hch hbank ha hst
      exact ⟨_, hexec⟩
    · exact ⟨_, execFblock_raise hch rfl hst⟩
  · exact ⟨_, missingChannelAnswersNochan s _ rfl ⟨ch, hmissing, .inr (.inr (.inl ⟨size, src, dst, rfl⟩))⟩⟩

theorem exists_exec_rdreg (ch : ChanId) (sel : BitVec 4) : ∃ t, exec (.rdreg ch sel) s = .next t := by
  cases hlegal : selectorLegal sel with
  | false => exact ⟨_, if_pos hlegal⟩
  | true =>
    rcases Nat.lt_or_ge ch.toNat (numCh s.cfg) with hch | hmissing
    · obtain ⟨cc, hcc⟩ := exists_chanCfg hch
      obtain ⟨hlive, ⟨flags, hflags, -⟩, ⟨err, herr, -⟩, -⟩ := rdregReadsRegisters s ch cc hcc
      rcases selectorLegal_cases hlegal with hsel | rfl | rfl
      · cases hdone : (s.filter ch.toNat).initDone with
        | false => exact ⟨_, uninitialisedUseAnswersUninit s _ ch hch hdone (.inr (.inr ⟨sel, hsel, rfl⟩))⟩
        | true =>
          obtain ⟨a, p, lo, hi, hbank, -, -⟩ := hinv.liveBank hcc hdone
          obtain ⟨hprev, halpha, hmin, hmax⟩ := hlive a p lo hi hbank
          rcases filterSelector_cases hsel with rfl | rfl | rfl | rfl
          exacts [⟨_, hprev⟩, ⟨_, halpha⟩, ⟨_, hmin⟩, ⟨_, hmax⟩]
      · exact ⟨_, hflags⟩
      · exact ⟨_, herr⟩
    · exact ⟨_, missingChannelAnswersNochan s _ hlegal ⟨ch, hmissing, .inr (.inr (.inr ⟨sel, rfl⟩))⟩⟩

/-- Every instruction answers, whatever its channel and its bank. -/
theorem exists_exec (i : Instr) : ∃ t, exec i s = .next t := by
  cases i with
  | init ch => rcases execInit_cases ch s with ⟨-, e⟩ | ⟨_, -, -, e⟩ | ⟨_, -, -, e⟩ <;> exact ⟨_, e⟩
  | fsample ch x => exact exists_exec_fsample hinv ch x
  | fblock ch size src dst => exact exists_exec_fblock hinv ch size src dst
  | rdreg ch sel => exact exists_exec_rdreg hinv ch sel
  | evHalf id => exact ⟨_, rfl⟩
  | evFull id => exact ⟨_, rfl⟩

/-! ### Moves -/

theorem exists_perform_engCommand : ∃ t, perform .engCommand s = .next t := by
  rcases engCommand_cases s with e | ⟨i, rest, -, -, e⟩ | ⟨-, rest, -, -, e⟩
  · exact ⟨s, e⟩
  · have hrest : Inv { s with cmdq := rest } :=
      (Update.ports (ev := false) rest s.respq s.script s.draws).keeps_inv hinv
    exact (exists_exec hrest i).imp fun t ht => e.trans ht
  · exact ⟨_, e⟩

/-- A handler in progress has a sample to filter, with both its accesses in memory, or submits. -/
theorem exists_perform_engHandler : ∃ t, perform .engHandler s = .next t := by
  cases he : s.eng with
  | idle => exact ⟨s, by simp only [perform, State.hNext, he, finish]⟩
  | handler c h i =>
    obtain ⟨cc, hc, -, hle, hraw, hfiltered⟩ := engOk_iff.1 hinv.engineOk c h i he
    rcases hle.eq_or_lt with rfl | hlt
    · exact ⟨_, perform_engHandler_submit he hc⟩
    · cases hp : cc.policy with
      | raw => exact absurd (hraw hp) hlt.ne
      | filtered out =>
        obtain ⟨a, p, lo, hi, hbank, ha, -⟩ := hinv.liveBank hc (hfiltered out hp)
        obtain ⟨y, hy⟩ := exists_filterValue ha p lo hi
          (sampleAt s.mem (cc.capBase.toNat + 2 * (halfOff s.cfg h + i)))
        have hk : halfOff s.cfg h + i < bufN s.cfg := by have := halfOff_add_halfH_le s.cfg h; omega
        have hcap := sample_in_memory hinv.cfgOk (chanCfg_mem hc) (.inl rfl) hk
        have hout := sample_in_memory hinv.cfgOk (chanCfg_mem hc) (.inr hp) hk
        have hmove := (filterMove_live_ok_iff hbank).2 ⟨hcap, hout, y, hy, rfl⟩
        exact ⟨_, (perform_engHandler_sample he hc hp hlt).2 ⟨_, hmove, rfl⟩⟩

/-- The write index is below N, so the sample it names lies in memory. -/
theorem exists_perform_srcWrite (c : Nat) (v : Sample) : ∃ t, perform (.srcWrite c v) s = .next t := by
  cases hc : chanCfg s.cfg c with
  | none => exact ⟨s, by simp only [perform, State.srcWrite, hc, finish]⟩
  | some cc =>
    by_cases hd : (s.src c).due = .none
    · obtain ⟨-, -, hsrc⟩ := chanOk_iff.1 (hinv.chansOk c (chanCfg_lt hc)) cc hc
      obtain ⟨hwptr, -⟩ := srcOk_iff.1 hsrc
      exact ⟨_, perform_srcWrite_eq v hc hd (sample_in_memory hinv.cfgOk (chanCfg_mem hc) (.inl rfl) hwptr)⟩
    · exact ⟨s, by simp only [perform, State.srcWrite, hc, hd, if_false, finish]⟩

/-- The unsent bytes of a pending submission lie in memory. -/
theorem exists_perform_xptSend (x : Nat) : ∃ t, perform (.xptSend x) s = .next t := by
  cases hq : (s.xpt x).queue with
  | nil => exact ⟨s, by simp only [perform, State.xptSend, hq, finish]⟩
  | cons q rest =>
    have hhead : q ∈ (s.xpt x).queue := by rw [hq]; exact List.mem_cons_self
    obtain ⟨hin, hlt⟩ := submissionOk_iff.1 (QueuesOk.xpt hinv.queuesOk x q hhead)
    exact ⟨_, perform_xptSend_eq hq (by omega)⟩

/-- Every move completes. -/
theorem exists_perform (m : Move) : ∃ t, perform m s = .next t := by
  cases m with
  | engCommand => exact exists_perform_engCommand hinv
  | engStart c => exact ⟨_, rfl⟩
  | engHandler => exact exists_perform_engHandler hinv
  | event w => exact exists_perform_event s w
  | srcWrite c v => exact exists_perform_srcWrite hinv c v
  | srcEvent c => exact exists_perform_srcEvent s c
  | xptSend x => exact exists_perform_xptSend hinv x
  | hostCmd w => exact ⟨_, rfl⟩
  | hostTake => exact ⟨_, rfl⟩
  | hostStore a bs => exact ⟨_, rfl⟩
  | hostLoad a n => exact ⟨_, rfl⟩

/-- The invariant looks at neither the script nor the draws. -/
theorem Inv.takeMove : Inv s.takeMove.2 := by
  rcases takeMove_cases s with ⟨m, rest, -, e⟩ | ⟨-, e⟩ <;> rw [e]
  · exact (Update.ports (ev := false) s.cmdq s.respq rest s.draws).keeps_inv hinv
  · exact (Update.ports (ev := false) s.cmdq s.respq s.script (s.draws + 1)).keeps_inv hinv

end

/-- Settles O44: the step performs a move on a state of the invariant. -/
theorem stepAlwaysCompletes : Obligations.StepAlwaysCompletes := by
  intro s hinv
  rw [step_eq_perform s hinv.cfgOk]
  exact exists_perform hinv.takeMove _

end Sys2Proof.Machine
end

section
/-! PROOFS. The state right after reset (R270 to R272), and that it satisfies the invariants. -/

namespace Sys2Proof.Machine

section
variable (cfg : Config) (mem : Memory) (script : List Move)

@[simp] theorem powerOn_filter (c : Nat) : (State.powerOn cfg mem script).filter c = .atReset := bankGet_replicate _ _ c
@[simp] theorem powerOn_arb (c : Nat) : (State.powerOn cfg mem script).arb c = .atReset := bankGet_replicate _ _ c
@[simp] theorem powerOn_src (c : Nat) : (State.powerOn cfg mem script).src c = .atReset := bankGet_replicate _ _ c
@[simp] theorem powerOn_xpt (x : Nat) : (State.powerOn cfg mem script).xpt x = .atReset := bankGet_replicate _ _ x

end

/-- Settles O41: every bank reads as reset, and the other fields are given. -/
theorem resetValues : Obligations.ResetValues := by
  intro cfg mem script c x
  dsimp only
  rw [powerOn_filter, powerOn_arb, powerOn_src, powerOn_xpt]
  exact ⟨rfl, rfl, rfl, rfl, rfl, rfl, rfl, rfl, rfl, rfl, rfl, rfl, ⟨rfl, rfl, rfl, rfl⟩, rfl, rfl, rfl, rfl, rfl, rfl⟩

section
variable {cfg : Config}

/-- The three banks of a channel are right at reset, where its buffer is not empty (R37, R46, R54). -/
theorem powerOn_chanOk (hw : cfgWf cfg = true) (mem : Memory) (script : List Move) (c : Nat) :
    chanOk (State.powerOn cfg mem script) c = true := by
  have hN := cfgWf_bufN hw
  rw [chanOk_iff]
  intro cc _
  rw [powerOn_filter, powerOn_arb, powerOn_src]
  refine ⟨filterOk_iff.2 (.inl rfl), arbOk_iff.2 ⟨fun _ => rfl, by decide, fun _ => rfl, fun _ => rfl⟩,
    srcOk_iff.2 ⟨?inBuffer, nofun, nofun⟩⟩
  case inBuffer => exact Nat.lt_of_lt_of_le Nat.zero_lt_two hN

theorem powerOn_queuesOk (mem : Memory) (script : List Move) : QueuesOk (State.powerOn cfg mem script) := by
  intro t ht q hq
  rw [List.eq_of_mem_replicate ht] at hq
  cases hq

theorem powerOn_inv {mem : Memory} (hw : cfgWf cfg = true) (hm : memOk cfg mem = true) (script : List Move) :
    Inv (State.powerOn cfg mem script) where
  cfgOk := hw
  sizedOk := sized_iff.2 ⟨List.length_replicate, List.length_replicate, List.length_replicate, List.length_replicate⟩
  memoryOk := hm
  chansOk c _ := powerOn_chanOk hw mem script c
  engineOk := rfl
  errOk := BitVec.getLsbD_zero
  queuesOk := powerOn_queuesOk mem script

end

/-- Settles O42: nothing is latched, and every SampleSource is at the start of the half that PHASE names. -/
theorem invHoldsAtReset : Obligations.InvHoldsAtReset := by
  intro cfg mem script hw hm
  refine ⟨powerOn_inv hw hm script, fun _ c _ => .inl (by rw [powerOn_arb]; rfl), fun c => ?_⟩
  rw [phaseInStep_of_none (by rw [powerOn_src]; rfl), powerOn_arb, powerOn_src]
  exact (if_pos (halfH_pos hw)).symm

end Sys2Proof.Machine
end

section
/-! PROOFS. What each move does to ENG and to the two command queues (R138, R180 to R186, R230). -/

namespace Sys2Proof.Machine

section
variable {s t : State} {m : Move}

/-! ### A command (R138) -/

/-- The other state differs by a command's work: ENG and CMDQ are the same, and RESPQ has two words more (R110). -/
structure Answers (s t : State) : Prop where
  eng : t.eng = s.eng
  cmdq : t.cmdq = s.cmdq
  respq : ∃ r0 r1, t.respq = s.respq ++ [r0, r1]

theorem answers_respond (s : State) (st : Status) (d : Word) : Answers s (s.respond st d) := ⟨rfl, rfl, _, _, rfl⟩

theorem answers_raise (s : State) (st : Status) : Answers s (s.raise st) := ⟨rfl, rfl, _, _, rfl⟩

theorem answers_exec {i : Instr} (hport : i.port = .command) (h : exec i s = .next t) : Answers s t := by
  cases i with
  | init ch =>
    replace h : execInit ch s = .next t := h
    rcases execInit_cases ch s with ⟨-, e⟩ | ⟨cc, -, -, e⟩ | ⟨cc, -, -, e⟩ <;> rw [e] at h <;> cases h
    · exact answers_raise s _
    · exact answers_raise s _
    · exact ⟨rfl, rfl, _, _, rfl⟩
  | fsample ch x =>
    rcases execFsample_cases h with ⟨-, rfl⟩ | ⟨cc, -, -, rfl⟩ | ⟨cc, y, -, -, -, rfl⟩
    · exact answers_raise s _
    · exact answers_raise s _
    · exact ⟨rfl, rfl, _, _, rfl⟩
  | fblock ch size src dst =>
    rcases execFblock_cases h with ⟨-, rfl⟩ | ⟨st, -, -, rfl⟩ | ⟨cc, u, -, -, hu, rfl⟩
    · exact answers_raise s _
    · exact answers_raise s _
    · have hsame := filterLoop_same hu
      exact ⟨hsame.eng, hsame.cmdq, _, _, respq_of_block hsame⟩
  | rdreg ch sel =>
    rcases execRdreg_cases h with ⟨st, -, rfl⟩ | ⟨d, rfl⟩
    · exact answers_raise s _
    · exact answers_respond s _ _
  | evHalf id => cases hport
  | evFull id => cases hport

theorem engCommand_enabled {d : Except Reject Instr} {rest : List Word} (he : s.eng = .idle)
    (hq : nextCommand s.cmdq = some (d, rest)) : moveEnabled .engCommand s = true := by
  simp [moveEnabled, he, hq]

/-- ENG's command step does nothing, or takes the command at the head of CMDQ, and answers it (R138). -/
theorem engCommand_answers (h : s.engCommand = .next t) :
    (t = s ∧ moveEnabled .engCommand s = false) ∨
    ∃ d rest, s.eng = .idle ∧ nextCommand s.cmdq = some (d, rest) ∧ Answers { s with cmdq := rest } t := by
  cases he : s.eng with
  | handler c hf i =>
    simp only [State.engCommand, he] at h
    cases h
    exact .inl ⟨rfl, by simp [moveEnabled, he]⟩
  | idle =>
    rcases hq : nextCommand s.cmdq with _ | ⟨e | i, rest⟩ <;> simp only [State.engCommand, he, hq] at h
    · cases h
      exact .inl ⟨rfl, by simp [moveEnabled, hq]⟩
    · cases h
      exact .inr ⟨_, rest, rfl, rfl, answers_raise _ _⟩
    · exact .inr ⟨_, rest, rfl, rfl, answers_exec (nextCommand_port hq) h⟩

/-! ### Events -/

theorem accept_cmdq (s : State) (id : ChanId) (h : Half) (ph : Phase) : (s.accept id h ph).cmdq = s.cmdq := by
  rw [accept_frame]

theorem acceptWord_eng_cmdq {w : Word} (h : s.acceptWord w = .next t) : t.eng = s.eng ∧ t.cmdq = s.cmdq := by
  rcases acceptWord_cases s w with ⟨id, -, e⟩ | ⟨id, -, e⟩ | ⟨_, -, e⟩ <;> rw [e] at h <;> cases h
  · exact ⟨accept_eng s id _ _, accept_cmdq s id _ _⟩
  · exact ⟨accept_eng s id _ _, accept_cmdq s id _ _⟩
  · exact ⟨rfl, rfl⟩

/-- SRC.EVENT does nothing, or delivers the event of the half it is owed for (R212). -/
theorem srcEvent_half_cases {c : Nat} (h : s.srcEvent c = .next t) :
    t = s ∨ ∃ cc, ∃ hf : Half, chanCfg s.cfg c = some cc ∧ (s.src c).due = hf.due ∧
      t = (s.accept (BitVec.ofNat 8 c) hf hf.nextPhase).clearDue c := by
  rcases srcEvent_cases s c with e | ⟨cc, hc, hd, e⟩ | ⟨cc, hc, hd, e⟩ <;> rw [e] at h <;> cases h
  · exact .inl rfl
  · exact .inr ⟨cc, .first, hc, hd, rfl⟩
  · exact .inr ⟨cc, .second, hc, hd, rfl⟩

theorem srcEvent_eng_cmdq {c : Nat} (h : s.srcEvent c = .next t) : t.eng = s.eng ∧ t.cmdq = s.cmdq := by
  rcases srcEvent_half_cases h with rfl | ⟨_, _, -, -, rfl⟩
  · exact ⟨rfl, rfl⟩
  · exact ⟨accept_eng s _ _ _, accept_cmdq s _ _ _⟩

/-! ### Moves of other agents -/

/-- Only ENG's own moves change ENG or take words from CMDQ; a host may add words behind those there (R32, R230). -/
theorem perform_eng_cmdq_of_other (hm : ofEngine m = false) (h : perform m s = .next t) :
    t.eng = s.eng ∧ ∃ ws, t.cmdq = s.cmdq ++ ws := by
  have same (hq : t.eng = s.eng ∧ t.cmdq = s.cmdq) : t.eng = s.eng ∧ ∃ ws, t.cmdq = s.cmdq ++ ws :=
    ⟨hq.1, [], by rw [hq.2, List.append_nil]⟩
  cases m with
  | engCommand | engStart | engHandler => cases hm
  | event w => exact same (acceptWord_eng_cmdq h)
  | srcEvent c => exact same (srcEvent_eng_cmdq h)
  | srcWrite c v =>
    rcases srcWrite_cases (finish_eq_next h) with rfl | ⟨_, -, -, -, rfl⟩
    · exact same ⟨rfl, rfl⟩
    · exact same ⟨storeBytes_eng s _ _, storeBytes_cmdq s _ _⟩
  | xptSend x => rcases xptSend_cases (finish_eq_next h) with rfl | ⟨_, _, -, -, rfl⟩ <;> exact same ⟨rfl, rfl⟩
  | hostCmd w => cases h; exact ⟨rfl, [w], rfl⟩
  | hostTake => cases h; exact same ⟨rfl, rfl⟩
  | hostStore a bs =>
    cases h
    refine same ?_
    rcases hostStore_cases s a bs with e | ⟨-, e⟩ <;> rw [e]
    · exact ⟨rfl, rfl⟩
    · exact ⟨storeBytes_eng s a bs, storeBytes_cmdq s a bs⟩
  | hostLoad a n => cases h; exact same ⟨rfl, rfl⟩

/-! ### The handler's moves (R180 to R186) -/

theorem hStart_cmdq (s : State) (c : Nat) : (s.hStart c).cmdq = s.cmdq := by
  rcases hStart_cases s c with e | ⟨_, _, -, -, -, -, e⟩ | ⟨_, _, _, -, -, -, -, -, e⟩ |
    ⟨_, _, _, -, -, -, -, -, e⟩ <;> rw [e] <;> rfl

theorem hNext_cmdq (h : s.hNext = .ok t) : t.cmdq = s.cmdq := by
  rcases hNext_cases h with rfl | ⟨_, _, _, -, -, rfl⟩ | ⟨c, hf, i, cc, out, u, -, -, -, -, hu, rfl⟩
  · rfl
  · rfl
  · obtain ⟨-, -, y, -, rfl⟩ := filterMove_ok_iff.1 hu
    exact (afterMove_same s c _ y).cmdq

/-- Where ENG does not take the command at its head, CMDQ at most grows at its end. -/
theorem perform_cmdq_grows (hm : ¬(moveEnabled .engCommand s = true ∧ m = .engCommand)) (h : perform m s = .next t) :
    ∃ ws, t.cmdq = s.cmdq ++ ws := by
  cases hown : ofEngine m with
  | false => exact (perform_eng_cmdq_of_other hown h).2
  | true =>
    refine ⟨[], Eq.trans ?_ (List.append_nil _).symm⟩
    cases m with
    | engCommand =>
      rcases engCommand_answers h with ⟨rfl, -⟩ | ⟨d, rest, he, hq, -⟩
      · rfl
      · exact absurd ⟨engCommand_enabled he hq, rfl⟩ hm
    | engStart c => cases h; exact hStart_cmdq s c
    | engHandler => exact hNext_cmdq (finish_eq_next h)
    | _ => cases hown

theorem perform_engCommand_eng (h : perform .engCommand s = .next t) : t.eng = s.eng := by
  rcases engCommand_answers h with ⟨rfl, -⟩ | ⟨_, _, -, -, hans⟩
  · rfl
  · exact hans.eng

/-- A handler in progress stays as it is until its own next step: ENG takes no command and starts no other (R180, R138). -/
theorem perform_eng_of_running {c i : Nat} {hf : Half} (he : s.eng = .handler c hf i) (hm : m ≠ .engHandler)
    (h : perform m s = .next t) : t.eng = .handler c hf i := by
  cases hown : ofEngine m with
  | false => exact (perform_eng_cmdq_of_other hown h).1.trans he
  | true =>
    cases m with
    | engCommand => exact (perform_engCommand_eng h).trans he
    | engStart d =>
      cases h
      rw [State.hStart, he, if_neg nofun, he]
    | engHandler => exact absurd rfl hm
    | _ => cases hown

/-- The next step of a handler in progress is enabled: it submits after H samples, and filters one before (R182, R184). -/
theorem perform_engHandler_of_running {c i : Nat} {hf : Half} (hok : engOk s = true) (he : s.eng = .handler c hf i)
    (h : perform .engHandler s = .next t) :
    (i = halfH s.cfg ∧ ∃ cc, chanCfg s.cfg c = some cc ∧ t = s.hSubmit c cc hf) ∨
      (i < halfH s.cfg ∧ t.eng = .handler c hf (i + 1)) := by
  obtain ⟨cc, hc, -, hle, hraw, -⟩ := engOk_iff.1 hok c hf i he
  rcases hle.eq_or_lt with rfl | hlt
  · rw [perform_engHandler_submit he hc] at h
    cases h
    exact .inl ⟨rfl, cc, hc, rfl⟩
  · cases hp : cc.policy with
    | raw => exact absurd (hraw hp) hlt.ne
    | filtered out =>
      obtain ⟨u, -, rfl⟩ := (perform_engHandler_sample he hc hp hlt).1 h
      exact .inr ⟨hlt, rfl⟩

theorem engHandler_enabled {c i : Nat} {hf : Half} (hok : engOk s = true) (he : s.eng = .handler c hf i) :
    moveEnabled .engHandler s = true := by
  obtain ⟨cc, hc, -, hle, hraw, -⟩ := engOk_iff.1 hok c hf i he
  simp only [moveEnabled, he, hc, Bool.or_eq_true, Bool.and_eq_true, decide_eq_true_eq]
  rcases hle.eq_or_lt with hlast | hlt
  · exact .inl hlast
  · cases hp : cc.policy with
    | raw => exact absurd (hraw hp) hlt.ne
    | filtered out => exact .inr ⟨rfl, hlt⟩

theorem engStart_enabled_iff {c : Nat} : moveEnabled (.engStart c) s = true ↔
    s.eng = .idle ∧ (∃ cc, chanCfg s.cfg c = some cc) ∧ pend (s.arb c) = true := by
  simp only [moveEnabled, Bool.and_eq_true, decide_eq_true_eq, Option.isSome_iff_exists, and_assoc]

/-- Where it is enabled, H_START puts a handler in progress, or aborts and leaves none pending (R180, R185). -/
theorem hStart_of_enabled {c : Nat} (h : moveEnabled (.engStart c) s = true) :
    (∃ hf i, (s.hStart c).eng = .handler c hf i) ∨ pend ((s.hStart c).arb c) = false := by
  obtain ⟨he, ⟨cc, hc⟩, hpend⟩ := engStart_enabled_iff.1 h
  obtain ⟨hf, hl⟩ := Option.isSome_iff_exists.1 hpend
  cases hp : cc.policy with
  | raw => exact .inl ⟨hf, _, by rw [hStart_raw he hc hl hp]; rfl⟩
  | filtered out =>
    rw [hStart_filtered he hc hl hp]
    split
    · exact .inl ⟨hf, 0, rfl⟩
    · exact .inr (by rw [State.hAbort, arb_setArb, if_pos rfl]; rfl)

/-! ### The transports (R184, R220, R221) -/

/-- Only H_SUBMIT and XPT.SEND change a transport. -/
theorem perform_xpts_cases (h : perform m s = .next t) :
    t.xpts = s.xpts ∨ (∃ y, s.xptSend y = .ok t) ∨ ∃ c hf cc, chanCfg s.cfg c = some cc ∧ t = s.hSubmit c cc hf := by
  cases m with
  | engCommand => exact .inl (quiet_engCommand h).xpts
  | engStart c => cases h; exact .inl (quiet_hStart s c).xpts
  | engHandler =>
    rcases hNext_quiet_or_submit (finish_eq_next h) with hq | ⟨c, hf, cc, -, hc, e⟩
    · exact .inl hq.xpts
    · exact .inr (.inr ⟨c, hf, cc, hc, e⟩)
  | event w => exact .inl (quiet_acceptWord h).xpts
  | srcWrite c v =>
    rcases srcWrite_cases (finish_eq_next h) with rfl | ⟨_, -, -, -, rfl⟩
    · exact .inl rfl
    · exact .inl (storeBytes_xpts s _ _)
  | srcEvent c =>
    rcases srcEvent_half_cases h with rfl | ⟨_, _, -, -, rfl⟩
    · exact .inl rfl
    · exact .inl (accept_xpts s _ _ _)
  | xptSend y => exact .inr (.inl ⟨y, finish_eq_next h⟩)
  | hostCmd w => cases h; exact .inl rfl
  | hostTake => cases h; exact .inl rfl
  | hostStore a bs => cases h; exact .inl (quiet_hostStore s a bs).xpts
  | hostLoad a n => cases h; exact .inl rfl

/-- Nothing is taken off a wire. -/
theorem wire_length_le (h : perform m s = .next t) (x : Nat) : (s.xpt x).wire.length ≤ (t.xpt x).wire.length := by
  rcases perform_xpts_cases h with e | ⟨y, hsend⟩ | ⟨c, hf, cc, -, rfl⟩
  · rw [xpt_congr e]
  · rcases xptSend_cases hsend with rfl | ⟨q, rest, -, -, rfl⟩
    · exact le_rfl
    · rw [xpt_setXpt]
      split
      · next hxy => simp [hxy]
      · exact le_rfl
  · rw [hSubmit_xpt]
    split
    · next hx => rw [hx]
    · exact le_rfl

/-- How many bytes are promised does not depend on memory. -/
theorem promised_length_congr (h : t.xpts = s.xpts) (x : Nat) : (promised t x).length = (promised s x).length := by
  simp only [promised, xpt_congr h, List.length_append, List.length_flatMap, unsentBytes, spanBytes, List.length_map,
    List.length_range]

/-- No move takes a promise back (R224). -/
theorem promised_length_le (hinv : Inv s) (h : perform m s = .next t) (x : Nat) :
    (promised s x).length ≤ (promised t x).length := by
  rcases perform_xpts_cases h with e | ⟨y, hsend⟩ | ⟨c, hf, cc, hc, rfl⟩
  · rw [promised_length_congr e]
  · rw [promised_xptSend hinv hsend]
  · rw [promised_hSubmit hinv.cfgOk (chanCfg_mem hc), List.length_append]
    exact Nat.le_add_right _ _

theorem xptSend_enabled {x : Nat} (hq : (s.xpt x).queue ≠ []) : moveEnabled (.xptSend x) s = true := by
  rw [moveEnabled, Bool.not_eq_true', List.isEmpty_eq_false_iff]
  exact hq

/-- XPT.SEND with a submission pending puts one byte on the wire (R221). -/
theorem wire_length_of_send {x : Nat} (hinv : Inv s) (hq : (s.xpt x).queue ≠ [])
    (h : perform (.xptSend x) s = .next t) : (t.xpt x).wire.length = (s.xpt x).wire.length + 1 := by
  obtain ⟨q, rest, hq⟩ := List.exists_cons_of_ne_nil hq
  obtain ⟨hin, hlt⟩ := submissionOk_iff.1 (QueuesOk.xpt hinv.queuesOk x q (by rw [hq]; exact List.mem_cons_self))
  rw [perform_xptSend_eq hq (by omega)] at h
  cases h
  rw [xpt_setXpt, if_pos rfl, List.length_append, List.length_singleton]

end

end Sys2Proof.Machine
end

section
/-! PROOFS. What fair runs reach (R285): every command is answered, every handler ends and every submitted byte is sent. -/

namespace Sys2Proof.Machine

/-! ### Runs -/

/-- A condition that every update keeps holds along a run. -/
theorem IsRun.keeps {σ : Nat → State} {μ : Nat → Move} (hrun : IsRun σ μ) {P : State → Prop}
    (update : ∀ {ev u v}, Update ev u v → P u → P v) (h0 : P (σ 0)) (k : Nat) : P (σ k) := by
  induction k with
  | zero => exact h0
  | succ k ih => exact (updates_perform (hrun k)).lift (r := fun u v => P u → P v) (fun _ => id) (fun f g => g ∘ f) update ih

theorem IsRun.cfg {σ : Nat → State} {μ : Nat → Move} (hrun : IsRun σ μ) : ∀ k, (σ k).cfg = (σ 0).cfg :=
  hrun.keeps (fun hu hs => hu.grows.cfg.trans hs) rfl

theorem IsRun.inv {σ : Nat → State} {μ : Nat → Move} (hrun : IsRun σ μ) (h0 : Inv (σ 0)) : ∀ k, Inv (σ k) :=
  hrun.keeps Update.keeps_inv h0

/-- What holds until a move is taken, while the move is enabled over and over, holds when it is taken (R285 (a)). -/
theorem StronglyFair.exists_taken {σ : Nat → State} {μ : Nat → Move} {m : Move} {P : State → Prop} {k : Nat}
    (hfair : StronglyFair σ μ m) (hk : P (σ k))
    (hkeep : ∀ j, P (σ j) → ¬(moveEnabled m (σ j) = true ∧ μ j = m) → P (σ (j + 1)))
    (hen : (∀ j, k ≤ j → P (σ j)) → InfOften fun j => moveEnabled m (σ j) = true) :
    ∃ j, k ≤ j ∧ P (σ j) ∧ moveEnabled m (σ j) = true ∧ μ j = m := by
  by_contra hnever
  have hall : ∀ j, k ≤ j → P (σ j) := fun j hj => Nat.le_induction hk
    (fun i hi hp => hkeep i hp fun ⟨he, hm⟩ => hnever ⟨i, hi, hp, he, hm⟩) j hj
  obtain ⟨j, hj, he, hm⟩ := hfair (hen hall) k
  exact hnever ⟨j, hj, hall j hj, he, hm⟩

/-- Words added behind a whole command leave it at the head (R100, R138). -/
theorem nextCommand_append {q rest : List Word} {d : Except Reject Instr} (h : nextCommand q = some (d, rest))
    (more : List Word) : nextCommand (q ++ more) = some (d, rest ++ more) := by
  cases q with
  | nil => cases h
  | cons w tl =>
    by_cases ho : headerOpc w = 3#4
    · match tl with
      | [] | [_] => rw [nextCommand_three_short ho (by simp)] at h; cases h
      | w1 :: w2 :: tl =>
        rw [nextCommand_three ho] at h
        cases h
        exact nextCommand_three ho w1 w2 _
    · rw [nextCommand_one ho] at h
      cases h
      exact nextCommand_one ho _

/-- A handler is pending of a channel only. -/
theorem exists_chanCfg_of_pend {s : State} {c : Nat} (hz : sized s = true) (hp : pend (s.arb c) = true) :
    ∃ cc, chanCfg s.cfg c = some cc := by
  obtain ⟨-, ha, -, -⟩ := sized_iff.1 hz
  refine exists_chanCfg (Nat.lt_of_not_le fun hle => ?_)
  rw [State.arb, bankGet, List.getD_eq_default _ _ (ha ▸ hle)] at hp
  cases hp

/-- While a promised byte is not sent, XPT.SEND stays enabled: the queue holds it. -/
theorem exists_send {σ : Nat → State} {μ : Nat → Move} {n x k : Nat} (hfair : WeaklyFair σ μ (.xptSend x))
    (hn : ∀ j, k ≤ j → n ≤ (promised (σ j) x).length)
    (hwire : ∀ j, k ≤ j → ((σ j).xpt x).wire.length < n) (i : Nat) :
    ∃ j, i ≤ j ∧ k ≤ j ∧ ((σ j).xpt x).queue ≠ [] ∧ μ j = .xptSend x := by
  have hqueue (j : Nat) (hj : k ≤ j) : ((σ j).xpt x).queue ≠ [] := fun e => by
    have h1 := hn j hj
    have h2 := hwire j hj
    rw [promised, e, List.flatMap_nil, List.append_nil] at h1
    omega
  obtain ⟨j, hj, hm⟩ := hfair ⟨k, fun j hj => xptSend_enabled (hqueue j hj)⟩ (max i k)
  exact ⟨j, by omega, by omega, hqueue j (by omega), hm⟩

section
variable {σ : Nat → State} {μ : Nat → Move} (hrun : IsRun σ μ) (hfair : Fair σ μ) (hinv : ∀ k, Inv (σ k))
include hrun hfair hinv

/-! ### Handlers (R180 to R186) -/

/-- A handler in progress takes its next step. -/
theorem exists_handler_step {k c i : Nat} {h : Half} (he : (σ k).eng = .handler c h i) :
    ∃ j, k ≤ j ∧ (σ j).eng = .handler c h i ∧ μ j = .engHandler := by
  have henabled (j : Nat) (hj : (σ j).eng = .handler c h i) := engHandler_enabled (hinv j).engineOk hj
  obtain ⟨j, hj, hej, -, hm⟩ := hfair.handler.exists_taken (P := fun s => s.eng = .handler c h i) he
    (fun j hj hnot => perform_eng_of_running hj (fun hm => hnot ⟨henabled j hj, hm⟩) (hrun j))
    (fun hall n => ⟨max k n, le_max_right k n, henabled _ (hall _ (le_max_left k n))⟩)
  exact ⟨j, hj, hej, hm⟩

/-- A handler in progress filters the samples it has left, one by one, and submits. -/
theorem exists_submit {k c i : Nat} {h : Half} (he : (σ k).eng = .handler c h i) :
    ∃ j, k ≤ j ∧ μ j = .engHandler ∧ (σ j).eng = .handler c h (halfH (σ j).cfg) ∧
      (σ (j + 1)).eng = .idle ∧ ((σ (j + 1)).arb c).halfLatch = none := by
  have hcfg := hrun.cfg
  induction hleft : halfH (σ 0).cfg - i using Nat.strong_induction_on generalizing k i with
  | _ n ih =>
    obtain ⟨j, hj, hej, hm⟩ := exists_handler_step hrun hfair hinv he
    have hstep := hrun j
    rw [hm] at hstep
    rcases perform_engHandler_of_running (hinv j).engineOk hej hstep with ⟨rfl, cc, -, e⟩ | ⟨hlt, hnext⟩
    · exact ⟨j, hj, hm, hej, by rw [e]; rfl, by rw [e, hSubmit_arb, if_pos rfl]⟩
    · rw [hcfg j] at hlt
      obtain ⟨j', hj', hrest⟩ := ih (halfH (σ 0).cfg - (i + 1)) (by omega) hnext rfl
      exact ⟨j', by omega, hrest⟩

/-- ENG is idle over and over, since every handler ends. -/
theorem infOften_idle : InfOften fun k => (σ k).eng = .idle := by
  intro k
  cases he : (σ k).eng with
  | idle => exact ⟨k, le_rfl, he⟩
  | handler c h i =>
    obtain ⟨j, hj, -, -, hidle, -⟩ := exists_submit hrun hfair hinv he
    exact ⟨j + 1, by omega, hidle⟩

/-- A pending handler ends or is aborted: ENG is idle over and over, so it is started. -/
theorem exists_not_pending (k c : Nat) : ∃ j, k ≤ j ∧ pend ((σ j).arb c) = false := by
  by_contra hnever
  have hpend (j : Nat) (hj : k ≤ j) : pend ((σ j).arb c) = true :=
    Bool.eq_true_of_not_eq_false fun hf => hnever ⟨j, hj, hf⟩
  have henabled : InfOften fun j => moveEnabled (.engStart c) (σ j) = true := fun n => by
    obtain ⟨j, hj, hidle⟩ := infOften_idle hrun hfair hinv (max k n)
    have hp := hpend j (by omega)
    exact ⟨j, by omega, engStart_enabled_iff.2 ⟨hidle, exists_chanCfg_of_pend (hinv j).sizedOk hp, hp⟩⟩
  obtain ⟨j, hj, hen, hm⟩ := hfair.start c henabled k
  have hstep := hrun j
  rw [hm] at hstep
  have hnext : (σ j).hStart c = σ (j + 1) := Host.Outcome.next.inj hstep
  rcases hStart_of_enabled hen with ⟨hf, i, he⟩ | hnone
  · obtain ⟨j', hj', -, -, -, hl⟩ := exists_submit hrun hfair hinv (hnext ▸ he)
    exact pend_iff.1 (hpend (j' + 1) (by omega)) hl
  · rw [hnext, hpend (j + 1) (by omega)] at hnone
    cases hnone

/-! ### Commands (R138) -/

/-- ENG takes the command at the head of CMDQ, and whatever words the host adds stay behind it. -/
theorem exists_command_taken {k : Nat} {d : Except Reject Instr} {rest : List Word}
    (hq : nextCommand (σ k).cmdq = some (d, rest)) :
    ∃ j more, k ≤ j ∧ moveEnabled .engCommand (σ j) = true ∧ μ j = .engCommand ∧
      nextCommand (σ j).cmdq = some (d, rest ++ more) := by
  obtain ⟨j, hj, ⟨more, hqj⟩, hen, hm⟩ := hfair.command.exists_taken
    (P := fun s => ∃ more, nextCommand s.cmdq = some (d, rest ++ more)) ⟨[], by rw [hq, List.append_nil]⟩
    (fun j ⟨more, hqj⟩ hnot => by
      obtain ⟨ws, e⟩ := perform_cmdq_grows hnot (hrun j)
      exact ⟨more ++ ws, by rw [e, nextCommand_append hqj, List.append_assoc]⟩)
    (fun hall n => by
      obtain ⟨j, hj, hidle⟩ := infOften_idle hrun hfair hinv (max k n)
      obtain ⟨more, hqj⟩ := hall j (by omega)
      exact ⟨j, by omega, engCommand_enabled hidle hqj⟩)
  exact ⟨j, more, hj, hen, hm, hqj⟩

/-! ### Transports (R221) -/

/-- A wire grows beyond every length that is promised from some step on. -/
theorem exists_sent {n x k : Nat} (hn : ∀ j, k ≤ j → n ≤ (promised (σ j) x).length) :
    ∃ j, k ≤ j ∧ n ≤ ((σ j).xpt x).wire.length := by
  by_contra hnever
  have hshort (j : Nat) (hj : k ≤ j) : ((σ j).xpt x).wire.length < n := Nat.lt_of_not_le fun hle => hnever ⟨j, hj, hle⟩
  have hmono : Monotone fun j => ((σ j).xpt x).wire.length := monotone_nat_of_le_succ fun j => wire_length_le (hrun j) x
  have hgrows (w : Nat) : ∃ j, k ≤ j ∧ w ≤ ((σ j).xpt x).wire.length := by
    induction w with
    | zero => exact ⟨k, le_rfl, Nat.zero_le _⟩
    | succ w ih =>
      obtain ⟨i, -, hw⟩ := ih
      obtain ⟨j, hij, hkj, hq, hm⟩ := exists_send (hfair.send x) hn hshort i
      have hsend := wire_length_of_send (hinv j) hq (hm ▸ hrun j)
      have hle : ((σ i).xpt x).wire.length ≤ ((σ j).xpt x).wire.length := hmono hij
      exact ⟨j + 1, by omega, by omega⟩
  obtain ⟨j, hj, hle⟩ := hgrows n
  exact absurd (hshort j hj) (Nat.not_lt.2 hle)

end

/-- Settles O58: the command is taken with its words, and the step that takes it answers. -/
theorem commandsAreAnswered : Obligations.CommandsAreAnswered := by
  intro σ μ hrun hfair h0 k d rest hq
  have hinv := hrun.inv h0
  obtain ⟨j, more, hj, hen, hm, hqj⟩ := exists_command_taken hrun hfair hinv hq
  have hstep := hrun j
  rw [hm] at hstep
  rcases engCommand_answers hstep with ⟨-, hdisabled⟩ | ⟨d', rest', -, hq', hans⟩
  · rw [hen] at hdisabled; cases hdisabled
  · cases hqj.symm.trans hq'
    obtain ⟨r0, r1, hresp⟩ := hans.respq
    exact ⟨j, more, r0, r1, hj, hm, hqj, hans.cmdq, hresp⟩

/-- Settles O59: ENG is idle over and over, so every pending handler is started, and what is started ends. -/
theorem pendingHandlersComplete : Obligations.PendingHandlersComplete := by
  intro σ μ hrun hfair h0
  have hinv := hrun.inv h0
  exact ⟨fun k c i h he => exists_submit hrun hfair hinv he, fun k c _ => exists_not_pending hrun hfair hinv k c⟩

/-- Settles O60: no promise is taken back, so what was promised stays promised until the wire holds as much. -/
theorem submittedSpansAreSent : Obligations.SubmittedSpansAreSent := by
  intro σ μ hrun hfair h0 k x
  have hinv := hrun.inv h0
  have hmono : Monotone fun j => (promised (σ j) x).length :=
    monotone_nat_of_le_succ fun j => promised_length_le (hinv j) (hrun j) x
  exact exists_sent hrun hfair hinv fun j hj => hmono hj

end Sys2Proof.Machine
end

section
/-! PROOFS. What a contract-keeping run from reset has written, up to each of its steps (R182, R211, R274). -/

namespace Sys2Proof.Machine

/-! ### What one move does to a channel -/

section
variable {s t : State} {m : Move}

/-- A SampleSource is moved by its own write and its own event only (R211, R212). -/
theorem perform_src_cases (hm : contractual m = true) (h : perform m s = .next t) (c : Nat) :
    t.src c = s.src c ∨
    (∃ v, m = .srcWrite c v ∧ (s.src c).due = .none ∧ t.src c = (s.src c).afterWrite s.cfg) ∨
    t.src c = { s.src c with due := .none } := by
  cases m with
  | event w => cases hm
  | srcWrite d v =>
    rcases srcWrite_cases (finish_eq_next h) with rfl | ⟨cc, -, hd, -, rfl⟩
    · exact .inl rfl
    · rw [src_setSrc]
      split
      · next hcd => subst hcd; exact .inr (.inl ⟨v, rfl, hd, rfl⟩)
      · exact .inl (src_congr (storeBytes_srcs s _ _) c)
  | srcEvent d =>
    rcases srcEvent_half_cases h with rfl | ⟨_, _, -, -, rfl⟩
    · exact .inl rfl
    · rw [src_clearDue_accept]
      split
      · next hcd => subst hcd; exact .inr (.inr rfl)
      · exact .inl rfl
  | _ => exact .inl (src_congr (perform_srcs rfl (by simp) h) c)

/-- An accepted event leaves each latch as it is, or latches the half it readies (R175). -/
theorem accept_halfLatch_cases (s : State) (id : ChanId) (h : Half) (ph : Phase) (c : Nat) :
    ((s.accept id h ph).arb c).halfLatch = (s.arb c).halfLatch ∨
      (c = id.toNat ∧ ((s.accept id h ph).arb c).halfLatch = some h) := by
  rcases accept_cases s id h ph with ⟨-, e⟩ | ⟨hreg, -⟩
  · rw [e]; exact .inl rfl
  · rw [accept_arb hreg]
    split
    · next hc =>
      subst hc
      rw [accept_halfLatch]
      cases hl : (s.arb id.toNat).halfLatch with
      | none => exact .inr ⟨rfl, rfl⟩
      | some k => exact .inl rfl
    · exact .inl rfl

/-- Where SampleSources keep their contracts, a latch is set to a half only by the event that its source owes for it
(R175, R212). -/
theorem perform_halfLatch_cases (hw : cfgWf s.cfg = true) (hm : contractual m = true) (h : perform m s = .next t)
    (c : Nat) :
    (t.arb c).halfLatch = (s.arb c).halfLatch ∨ (t.arb c).halfLatch = none ∨
      ∃ hf : Half, (s.src c).due = hf.due ∧ (t.arb c).halfLatch = some hf := by
  cases hev : acceptsEvent m with
  | false =>
    have hu := updates_perform h
    rw [hev] at hu
    have hbank := hu.lift (r := fun u v => AtMostUnlatched (u.arb c) (v.arb c)) (fun _ => .refl _) .trans
      fun h => h.atMostUnlatched c
    exact hbank.halfLatch.imp_right .inl
  | true =>
    cases m with
    | srcEvent d =>
      rcases srcEvent_half_cases h with rfl | ⟨cc, hf, hc, hd, rfl⟩
      · exact .inl rfl
      · rcases accept_halfLatch_cases s (BitVec.ofNat 8 d) hf hf.nextPhase c with e | ⟨hcd, e⟩
        · exact .inl e
        · rw [channel_toNat hw hc] at hcd
          subst hcd
          exact .inr (.inr ⟨hf, hd, e⟩)
    | event w => cases hm
    | _ => cases hev

/-- A handler of a filtered channel in progress after a move was so before, was just started, or has just filtered a sample
(R180, R182). -/
theorem perform_handler_cases (hok : engOk s = true) (h : perform m s = .next t) {c n : Nat} {hf : Half}
    {cc : ChannelCfg} {out : Addr} (hc : chanCfg s.cfg c = some cc) (hp : cc.policy = .filtered out)
    (he : t.eng = .handler c hf n) :
    s.eng = .handler c hf n ∨ n = 0 ∨
      ∃ i, n = i + 1 ∧ m = .engHandler ∧ s.eng = .handler c hf i := by
  cases hown : ofEngine m with
  | false => exact .inl ((perform_eng_cmdq_of_other hown h).1 ▸ he)
  | true =>
    cases m with
    | engCommand => exact .inl (perform_engCommand_eng h ▸ he)
    | engStart d =>
      cases h
      rcases hStart_cases s d with e | ⟨dd, _, -, hd, -, hraw, e⟩ | ⟨_, _, _, -, -, -, -, -, e⟩ |
        ⟨_, _, _, -, -, -, -, -, e⟩ <;> rw [e] at he
      · exact .inl he
      · cases he
        cases hc.symm.trans hd
        cases hp.symm.trans hraw
      · cases he; exact .inr (.inl rfl)
      · exact .inl he
    | engHandler =>
      cases hs : s.eng with
      | idle =>
        simp only [perform, State.hNext, hs, finish] at h
        cases h
        rw [hs] at he; cases he
      | handler d hd i =>
        rcases perform_engHandler_of_running hok hs h with ⟨-, dd, -, rfl⟩ | ⟨-, e⟩
        · cases he
        · cases e.symm.trans he
          exact .inr (.inr ⟨i, rfl, rfl, rfl⟩)
    | _ => cases hown

end

/-! ### What a run has written -/

/-- Before step `k` SRC[c] wrote sample `i` of its buffer (R211). -/
def SampleWritten (σ : Nat → State) (μ : Nat → Move) (k c i : Nat) : Prop :=
  ∃ j v, j < k ∧ μ j = .srcWrite c v ∧ ((σ j).src c).due = .none ∧ ((σ j).src c).wptr = i

/-- Before step `k` SRC[c] wrote every sample of half `h`. -/
def HalfWritten (σ : Nat → State) (μ : Nat → Move) (k c : Nat) (h : Half) : Prop :=
  ∀ i, i < halfH (σ 0).cfg → SampleWritten σ μ k c (halfOff (σ 0).cfg h + i)

/-- Before step `k` a handler of channel `c` filtered sample `i` of half `h` (R182). -/
def SampleFiltered (σ : Nat → State) (μ : Nat → Move) (k c : Nat) (h : Half) (i : Nat) : Prop :=
  ∃ j, j < k ∧ μ j = .engHandler ∧ (σ j).eng = .handler c h i

/-- What channel `c` shows at step `k` of what was written before: the samples below the write index, the half whose event
is owed, the half that is latched, and the samples that the handler of a filtered channel counts as done. -/
structure WrittenBefore (σ : Nat → State) (μ : Nat → Move) (c : Nat) (cc : ChannelCfg) (k : Nat) : Prop where
  filled : ∀ i, i < ((σ k).src c).wptr → SampleWritten σ μ k c i
  owed : ∀ h : Half, ((σ k).src c).due = h.due → HalfWritten σ μ k c h
  latched : ∀ h, ((σ k).arb c).halfLatch = some h → HalfWritten σ μ k c h
  filtered : ∀ h n out, cc.policy = .filtered out → (σ k).eng = .handler c h n → ∀ i, i < n → SampleFiltered σ μ k c h i

section
variable {σ : Nat → State} {μ : Nat → Move} {k c : Nat}

theorem SampleWritten.mono {i l : Nat} (h : SampleWritten σ μ k c i) (hkl : k ≤ l) : SampleWritten σ μ l c i := by
  obtain ⟨j, v, hj, hrest⟩ := h
  exact ⟨j, v, by omega, hrest⟩

theorem HalfWritten.mono {h : Half} {l : Nat} (hh : HalfWritten σ μ k c h) (hkl : k ≤ l) : HalfWritten σ μ l c h :=
  fun i hi => (hh i hi).mono hkl

theorem SampleFiltered.mono {h : Half} {i l : Nat} (hi : SampleFiltered σ μ k c h i) (hkl : k ≤ l) :
    SampleFiltered σ μ l c h i := by
  obtain ⟨j, hj, hrest⟩ := hi
  exact ⟨j, by omega, hrest⟩

/-- A half is written once every sample up to its end is. -/
theorem halfWritten_of_filled {h : Half} (hw : ∀ i, i < halfOff (σ 0).cfg h + halfH (σ 0).cfg → SampleWritten σ μ k c i) :
    HalfWritten σ μ k c h := fun i hi => hw _ (by omega)

end

section
variable {σ : Nat → State} {μ : Nat → Move} {k c : Nat} {cc : ChannelCfg} (hrun : IsRun σ μ)
  (hm : ∀ k, contractual (μ k) = true) (hw : cfgWf (σ 0).cfg = true) (hcfg : ∀ k, (σ k).cfg = (σ 0).cfg)
include hrun hm hw hcfg

/-- The write index and the owed event after a step: a write adds the sample at the index, and the last sample of a half
completes it (R211). -/
theorem WrittenBefore.source_step (h : WrittenBefore σ μ c cc k) :
    (∀ i, i < ((σ (k + 1)).src c).wptr → SampleWritten σ μ (k + 1) c i) ∧
      ∀ hf : Half, ((σ (k + 1)).src c).due = hf.due → HalfWritten σ μ (k + 1) c hf := by
  have heven := halfH_even hw
  rcases perform_src_cases (hm k) (hrun k) c with e | ⟨v, hv, hd, e⟩ | e
  · rw [e]
    exact ⟨fun i hi => (h.filled i hi).mono k.le_succ, fun hf hdue => (h.owed hf hdue).mono k.le_succ⟩
  · have hupto : ∀ i, i < ((σ k).src c).wptr + 1 → SampleWritten σ μ (k + 1) c i := fun i hi => by
      rcases Nat.lt_succ_iff_lt_or_eq.1 hi with hlt | heq
      · exact (h.filled i hlt).mono k.le_succ
      · exact ⟨k, v, k.lt_succ_self, hv, hd, heq.symm⟩
    rw [hcfg k, Source.afterWrite] at e
    split at e
    · next hlast =>
      rw [e]
      refine ⟨nofun, fun hf hdue => ?_⟩
      obtain rfl : hf = .second := by cases hf <;> cases hdue; rfl
      exact halfWritten_of_filled fun i hi => hupto i (by simp only [halfOff] at hi; omega)
    · split at e
      · next hhalf =>
        rw [e]
        refine ⟨hupto, fun hf hdue => ?_⟩
        obtain rfl : hf = .first := by cases hf <;> cases hdue; rfl
        exact halfWritten_of_filled fun i hi => hupto i (by simp only [halfOff] at hi; omega)
      · rw [e]
        exact ⟨hupto, fun hf hdue => by rw [hd] at hdue; cases hf <;> cases hdue⟩
  · rw [e]
    exact ⟨fun i hi => (h.filled i hi).mono k.le_succ, fun hf hdue => by cases hf <;> cases hdue⟩

/-- A half is latched by the event owed for it, so it was written (R175, R212). -/
theorem WrittenBefore.latch_step (h : WrittenBefore σ μ c cc k) (hf : Half)
    (hl : ((σ (k + 1)).arb c).halfLatch = some hf) : HalfWritten σ μ (k + 1) c hf := by
  rcases perform_halfLatch_cases (by rw [hcfg k]; exact hw) (hm k) (hrun k) c with e | e | ⟨hf', hd, e⟩ <;> rw [e] at hl
  · exact (h.latched hf hl).mono k.le_succ
  · cases hl
  · cases hl
    exact (h.owed hf hd).mono k.le_succ

end

section
variable {σ : Nat → State} {μ : Nat → Move} {k c : Nat} {cc : ChannelCfg} (hrun : IsRun σ μ)
  (hcfg : ∀ k, (σ k).cfg = (σ 0).cfg) (hok : ∀ k, engOk (σ k) = true) (hc : chanCfg (σ 0).cfg c = some cc)
include hrun hcfg hok hc

/-- A handler starts with no sample done and counts each one it filters (R180, R182). -/
theorem WrittenBefore.handler_step (h : WrittenBefore σ μ c cc k) {hf : Half} {n : Nat} {out : Addr}
    (hp : cc.policy = .filtered out) (he : (σ (k + 1)).eng = .handler c hf n) {i : Nat} (hi : i < n) :
    SampleFiltered σ μ (k + 1) c hf i := by
  rcases perform_handler_cases (hok k) (hrun k) ((congrArg (chanCfg · c) (hcfg k)).trans hc) hp he with
    hsame | rfl | ⟨j, rfl, hmove, hrunning⟩
  · exact (h.filtered hf n out hp hsame i hi).mono k.le_succ
  · cases hi
  · rcases Nat.lt_succ_iff_lt_or_eq.1 hi with hlt | rfl
    · exact (h.filtered hf j out hp hrunning i hlt).mono k.le_succ
    · exact ⟨k, k.lt_succ_self, hmove, hrunning⟩

end

/-- At every step of a contract-keeping run from reset, what a channel shows as written was written before. -/
theorem writtenBefore {σ : Nat → State} {μ : Nat → Move} {cfg : Config} {mem : Memory} {script : List Move} {c : Nat}
    {cc : ChannelCfg} (hw : cfgWf cfg = true) (h0 : σ 0 = State.powerOn cfg mem script) (hrun : IsRun σ μ)
    (hm : ∀ k, contractual (μ k) = true) (hc : chanCfg cfg c = some cc) (k : Nat) : WrittenBefore σ μ c cc k := by
  have hcfg0 : (σ 0).cfg = cfg := by rw [h0]; rfl
  rw [← hcfg0] at hw hc
  have hcfg := hrun.cfg
  have hok : ∀ k, engOk (σ k) = true := hrun.keeps Update.keeps_engOk (by rw [h0]; rfl)
  induction k with
  | zero =>
    have hsrc : (σ 0).src c = .atReset := by rw [h0, powerOn_src]
    have harb : (σ 0).arb c = .atReset := by rw [h0, powerOn_arb]
    have heng : (σ 0).eng = .idle := by rw [h0]; rfl
    constructor
    case filled => rw [hsrc]; nofun
    case owed => rw [hsrc]; intro h hd; cases h <;> cases hd
    case latched => rw [harb]; nofun
    case filtered => rw [heng]; nofun
  | succ k ih =>
    obtain ⟨hfilled, howed⟩ := ih.source_step hrun hm hw hcfg
    exact ⟨hfilled, howed, ih.latch_step hrun hm hw hcfg,
      fun h n out hp he i hi => ih.handler_step hrun hcfg hok hc hp he hi⟩

/-! ### The bytes of a half -/

/-- Each byte of a half is a byte of one of its samples (R79). -/
theorem exists_sample_of_byte {cfg : Config} (hw : cfgWf cfg = true) {b x : Nat} {h : Half}
    (h1 : b + 2 * halfOff cfg h ≤ x) (h2 : x < b + 2 * halfOff cfg h + bufN cfg) :
    ∃ i, i < halfH cfg ∧ b + 2 * (halfOff cfg h + i) ≤ x ∧ x < b + 2 * (halfOff cfg h + i) + 2 := by
  have heven := halfH_even hw
  exact ⟨(x - (b + 2 * halfOff cfg h)) / 2, by omega, by omega, by omega⟩

section
variable {σ : Nat → State} {μ : Nat → Move} {k c x : Nat} {cc : ChannelCfg} {h : Half} (hw : cfgWf (σ 0).cfg = true)
  (hcfg : ∀ k, (σ k).cfg = (σ 0).cfg) (hc : chanCfg (σ 0).cfg c = some cc)
include hw hcfg hc

theorem HalfWritten.sourceWrote (hh : HalfWritten σ μ k c h) (h1 : cc.capBase.toNat + 2 * halfOff (σ 0).cfg h ≤ x)
    (h2 : x < cc.capBase.toNat + 2 * halfOff (σ 0).cfg h + bufN (σ 0).cfg) : SourceWrote σ μ k c x := by
  obtain ⟨i, hi, hlo, hhi⟩ := exists_sample_of_byte hw h1 h2
  obtain ⟨j, v, hj, hmove, hd, hptr⟩ := hh i hi
  rw [← hptr] at hlo hhi
  exact ⟨j, v, cc, hj, hmove, hd, (congrArg (chanCfg · c) (hcfg j)).trans hc, hlo, hhi⟩

theorem handlerWrote_of_filtered {out : Addr} (hp : cc.policy = .filtered out)
    (hf : ∀ i, i < halfH (σ 0).cfg → SampleFiltered σ μ k c h i) (h1 : out.toNat + 2 * halfOff (σ 0).cfg h ≤ x)
    (h2 : x < out.toNat + 2 * halfOff (σ 0).cfg h + bufN (σ 0).cfg) : HandlerWrote σ μ k c x := by
  obtain ⟨i, hi, hlo, hhi⟩ := exists_sample_of_byte hw h1 h2
  obtain ⟨j, hj, hmove, he⟩ := hf i hi
  refine ⟨j, h, i, cc, out, hj, hmove, he, ?_⟩
  rw [hcfg j]
  exact ⟨hi, hc, hp, hlo, hhi⟩

end

/-- Settles O38: an owed or latched half was written, the latch of a handler is its half (R43), and a handler that has
counted H samples has filtered every one. -/
theorem submittedBytesWereWritten : Obligations.SubmittedBytesWereWritten := by
  intro cfg mem script σ μ hw h0 hrun hm k c cc hc
  have hbefore := writtenBefore hw h0 hrun hm hc k
  obtain rfl : (σ 0).cfg = cfg := by rw [h0]; rfl
  have hcfg := hrun.cfg
  have hok : engOk (σ k) = true := hrun.keeps Update.keeps_engOk (by rw [h0]; rfl) k
  have heven := halfH_even hw
  refine ⟨fun _ x => ⟨fun hd h1 h2 => ?half, fun hd h1 h2 => ?full⟩, fun h _ he x => ⟨fun _ => ?raw, fun out hp => ?filtered⟩⟩
  case half =>
    exact (hbefore.owed .first hd).sourceWrote hw hcfg hc (by simp only [halfOff]; omega) (by simp only [halfOff]; omega)
  case full =>
    exact (hbefore.owed .second hd).sourceWrote hw hcfg hc (by simp only [halfOff]; omega) (by simp only [halfOff]; omega)
  case raw =>
    obtain ⟨-, -, hl, -⟩ := engOk_iff.1 hok c h _ he
    exact (hbefore.latched h hl).sourceWrote hw hcfg hc
  case filtered => exact handlerWrote_of_filtered hw hcfg hc hp (hbefore.filtered h _ out hp he)

end Sys2Proof.Machine
end
